-- ==== Sys2Proof/Word.lean ====
section
/-! DEFINITION. The word types of CODEC16 (spec 00_scope R7, R9): every value is an unsigned word of a stated width,
bit 0 the least significant. -/

namespace Sys2Proof

/-- One byte on the transport port (20_memory R60). -/
abbrev Byte := BitVec 8

/-- A 16-bit word: a frame, or a register value carried in its 16-bit container (R9, R32). -/
abbrev Word := BitVec 16

/-- A 14-bit register address (R7, R49). -/
abbrev Addr := BitVec 14

/-- A 14-bit payload, bits 13 to 0 of a frame (R7, R18). -/
abbrev Payload := BitVec 14

end Sys2Proof
end

