-- ==== Sys2Proof/Config.lean ====
section
/-! DEFINITION. The parameters of the model (spec 00_scope R8, 10_state R43): what is fixed when the block is built.
A machine carries one `Config` in its state (log 2); the defaults stand in Machine/Params.lean. The two parameters
the spec leaves OPEN without a default are opaque constants here (log 3). -/

namespace Sys2Proof

/-- The registers the source names (10_state R33), and the further members its enumeration may have
(91_not_in_source N22, log 7). -/
inductive Register where
  | errfl | zposm | zposl | settings1 | settings2 | diaagc | mag | angleunc | anglecom
  | other (n : Nat)
  deriving DecidableEq, Repr

/-- `ANGLE_MAX`: 0x3FFF or 0x4000 (R8, R245, D10). -/
inductive AngleMax where
  | x3FFF | x4000
  deriving DecidableEq, Repr

/-- `DIAG_LAYOUT`: the bit positions of the four diagnostics flags (R8, R35, D7). -/
structure DiagLayout where
  bStrong : Fin 16
  bWeak   : Fin 16
  bCof    : Fin 16
  bOcf    : Fin 16
  deriving DecidableEq, Repr

/-- The parameters of R8. `regmap` is `REGMAP` with its addresses; the optional registers in it count only under
`hasZpos`, `hasSettings`. `tCsnMin` is in nanoseconds and no rule reads it (R362, log 26). -/
structure Config where
  regmap             : List (Register × Addr)
  hasZpos            : Bool
  hasSettings        : Bool
  diag               : DiagLayout
  angleMax           : AngleMax
  clrerrReturnsValue : Bool
  angleReg           : Register
  tCsnMin            : Nat
  deriving DecidableEq, Repr

/-- OPEN (D10): whether the built block's `ANGLE_MAX` is 0x4000. DESIGN CHOICE (log 3): no value is chosen. -/
opaque Config.openAngleMaxIs4000 : Bool

/-- OPEN (D11): the built block's `CLRERR_RETURNS_VALUE`. DESIGN CHOICE (log 3): no value is chosen. -/
opaque Config.openClrerrReturnsValue : Bool

end Sys2Proof
end

