-- ==== Sys2Proof/Syntax.lean ====
section
/-! DEFINITION. The instructions: one constructor of `Instr` per row of spec/opcode_table.json, in the table's order
(5 frames, 11 requests, 5 reserved op codes, 32 combinational functions), and the data their operands and values
are made of. -/

namespace Sys2Proof

/-- The function operand of MODIFY as plain data (R106, R354; log 8): an expression in the argument `x`, as the
syntax `x => <expression in x>` of R123 writes it. `table rows otherwise` lists results argument by argument, so
that every function of 16 bits to 16 bits has an expression. -/
inductive Fn where
  | arg
  | lit (w : Word)
  | not (a : Fn)
  | and (a b : Fn)
  | or (a b : Fn)
  | xor (a b : Fn)
  | add (a b : Fn)
  | shl (a : Fn) (n : Fin 16)
  | shr (a : Fn) (n : Fin 16)
  | table (rows : List (Word × Word)) (otherwise : Fn)
  deriving DecidableEq, Repr

/-- The ports of the combinational functions, one each (R28, R116). -/
inductive CombPort where
  | parCompute | parVerify | mkCmd | mkData | mkNop
  | respSplit | respValidate
  | fldGet | fldSet
  | diagAgc | diagStrong | diagWeak | diagCof | diagOcf | diagStrengthOk | diagValid
  | magGet | angleGet
  | zposmGet | zposmSet | zposlGet | zposlSet
  | zposlEn7Get | zposlEn7Set | zposlEn6Get | zposlEn6Set
  | errflE2 | errflE1 | errflE0
  | zposSplit | zposCompose | degConv
  deriving DecidableEq, Repr

/-- The verdict of RESP.VALIDATE (R161). -/
inductive Verdict where
  | parityBad
  | sensorFlag
  | good (payload : Payload)
  deriving DecidableEq, Repr

/-- What a combinational function puts on its output port, at the width its rule gives (column "output" of the
opcode table). -/
inductive Value where
  | bit (b : Bool)
  | six (x : BitVec 6)
  | byte (x : Byte)
  | payload (x : Payload)
  | word (x : Word)
  | split (p ef : Bool) (payload : Payload)
  | verdict (v : Verdict)
  | halves (msb : Byte) (lsb : BitVec 6)
  deriving DecidableEq, Repr

/-- The place of a sent frame in its READ or WRITE sequence, which alone tells the frame formats with bit 14 clear
apart (R114). -/
inductive FramePos where
  | command | data | nop
  deriving DecidableEq, Repr

/-- One constructor per row of the opcode table. A frame carries its fields as the table names them, the parity bit
among them; WellFormed says which frames the block sends. -/
inductive Instr where
  | cmdRd (p : Bool) (addr : Addr)
  | cmdWr (p : Bool) (addr : Addr)
  | data (p : Bool) (d : Payload)
  | nop
  | resp (p ef : Bool) (payload : Payload)
  | read (addr : Addr)
  | write (addr : Addr) (wdata : Word)
  | modify (addr : Addr) (fn : Fn)
  | angle
  | angleDeg
  | magnitude
  | diag
  | clrerr
  | zposGet
  | zposSet (wdata : Word)
  | release
  | reservedB
  | reservedC
  | reservedD
  | reservedE
  | reservedF
  | parCompute (w : Word)
  | parVerify (f : Word)
  | mkCmd (a : Addr) (rd : Bool)
  | mkData (d : Word)
  | mkNop
  | respSplit (f : Word)
  | respValidate (f : Word)
  | fldGet (v : Word) (hi lo : Fin 16)
  | fldSet (v : Word) (hi lo : Fin 16) (x : Word)
  | diagAgc (v : Word)
  | diagStrong (v : Word)
  | diagWeak (v : Word)
  | diagCof (v : Word)
  | diagOcf (v : Word)
  | diagStrengthOk (v : Word)
  | diagValid (v : Word)
  | magGet (v : Word)
  | angleGet (v : Word)
  | zposmGet (v : Word)
  | zposmSet (v x : Word)
  | zposlGet (v : Word)
  | zposlSet (v x : Word)
  | zposlEn7Get (v : Word)
  | zposlEn7Set (v : Word) (x : Bool)
  | zposlEn6Get (v : Word)
  | zposlEn6Set (v : Word) (x : Bool)
  | errflE2 (v : Word)
  | errflE1 (v : Word)
  | errflE0 (v : Word)
  | zposSplit (v : Word)
  | zposCompose (m l : Word)
  | degConv (a : Word)
  deriving DecidableEq, Repr

/-- What stands on a port before it is decoded: a request word with the host's function beside it (R106), a frame the
schedule sends with its place (R114), a frame received, or the input words of a combinational function: the table's
word and its separate inputs in the table's order, each carried in a 16-bit word (R116, log 12). -/
inductive Presented where
  | request (word : BitVec 34) (fn : Fn)
  | sent (pos : FramePos) (frame : Word)
  | received (frame : Word)
  | comb (port : CombPort) (w : Word) (side : List Word)
  deriving DecidableEq, Repr

end Sys2Proof
end

