-- ==== Sys2Proof/Machine/Flags.lean ====
section
/-! DEFINITION. The parity computations (spec 40_parity_codec R140 to R142), which are also the block's condition bit
`par_ok` (10_state R29). -/

namespace Sys2Proof.Machine

/-- `popcount(w)`: the number of indices 0 to 15 with `w[i] = 1` (R140). -/
def popcount (w : Word) : Nat := ((List.range 16).filter fun i => w.getLsbD i).length

/-- `popcount15(w) = popcount(w & 0x7FFF)` (R140). -/
def popcount15 (w : Word) : Nat := popcount (w &&& 0x7FFF#16)

/-- `PAR.COMPUTE(w) = popcount15(w) mod 2` (R141). -/
def parCompute (w : Word) : Bool := popcount15 w % 2 == 1

/-- `PAR.VERIFY(f) = 1` iff `popcount(f) mod 2 = 0` (R142): the frame check is even parity (90_conflicts C1). -/
def parVerify (f : Word) : Bool := popcount f % 2 == 0

/-- The condition bit `ef = RXW[14]`, and bit 14 of any response frame (R29, R103). -/
def errorFlag (f : Word) : Bool := f.getLsbD 14

end Sys2Proof.Machine
end

