-- ==== Sys2Proof/Machine/Codec.lean ====
section
/-! DEFINITION. Frames: the three constructors (spec 40_parity_codec R144 to R146), their two bytes on the port
(20_memory R60), and the decomposition and verdict of a received frame (41_response_validator R160, R161). -/

namespace Sys2Proof.Machine

/-- Bit 15 of a frame under construction is the parity of the 15 bits below it (R110). -/
def withParity (body : Word) : Word := body ||| ((BitVec.ofBool (parCompute body)).setWidth 16 <<< 15)

/-- `MKCMD(a, rd)` (R144). -/
def mkCmd (a : Addr) (rd : Bool) : Word :=
  withParity (a.setWidth 16 ||| ((BitVec.ofBool rd).setWidth 16 <<< 14))

/-- `MKDATA(d)` (R145): bits 15 and 14 of `d` are dropped without notice (R109). -/
def mkData (d : Word) : Word := withParity (d &&& 0x3FFF#16)

/-- `MKNOP()` (R146). -/
def mkNop : Word := 0x0000#16

/-- A frame with the fields of formats C and R: bit 15, bit 14, bits 13 to 0 (R100). -/
def packFrame (b15 b14 : Bool) (low : BitVec 14) : Word := BitVec.ofBool b15 ++ BitVec.ofBool b14 ++ low

/-- The two bytes of a sent frame, most significant first (R60). -/
def toWire (w : Word) : Byte × Byte := (w.extractLsb' 8 8, w.extractLsb' 0 8)

/-- The frame of two received bytes, most significant first (R60). -/
def ofWire (b0 b1 : Byte) : Word := b0 ++ b1

/-- Bits 13 to 0 of a frame (R103). -/
def payloadOf (f : Word) : Payload := f.extractLsb' 0 14

/-- `RESP.SPLIT(f)` (R160). -/
def respSplit (f : Word) : Bool × Bool × Payload := (f.getLsbD 15, errorFlag f, payloadOf f)

/-- `RESP.VALIDATE(f)` (R161): parity first, then the error flag, then the payload. -/
def respValidate (f : Word) : Verdict :=
  if parVerify f = false then .parityBad
  else if errorFlag f = true then .sensorFlag
  else .good (payloadOf f)

end Sys2Proof.Machine
end

