-- ==== Sys2Proof/WellFormed.lean ====
section
/-! DEFINITION. Which instructions are well formed: a sent frame has an even count of ones (spec 30_encoding R105,
R117) and a command frame names no address 0 (20_memory R69); a field position has `lo <= hi` (43_bitfield_decoder
R220). Every received frame is legal (R119), every request is (the reserved ones are well formed and refused, R118),
and every other function is total on its operands. -/

namespace Sys2Proof

/-- The check of one instruction, constructor by constructor. -/
def Instr.wellFormed : Instr → Bool
  | .cmdRd p a => Machine.parVerify (Machine.packFrame p true a) && decide (a ≠ 0)
  | .cmdWr p a => Machine.parVerify (Machine.packFrame p false a) && decide (a ≠ 0)
  | .data p d => Machine.parVerify (Machine.packFrame p false d)
  | .nop => true
  | .resp _ _ _ => true
  | .read _ | .write _ _ | .modify _ _ => true
  | .angle | .angleDeg | .magnitude | .diag | .clrerr | .zposGet | .zposSet _ | .release => true
  | .reservedB | .reservedC | .reservedD | .reservedE | .reservedF => true
  | .parCompute _ | .parVerify _ | .mkCmd _ _ | .mkData _ | .mkNop => true
  | .respSplit _ | .respValidate _ => true
  | .fldGet _ hi lo => decide (lo ≤ hi)
  | .fldSet _ hi lo _ => decide (lo ≤ hi)
  | .diagAgc _ | .diagStrong _ | .diagWeak _ | .diagCof _ | .diagOcf _ => true
  | .diagStrengthOk _ | .diagValid _ => true
  | .magGet _ | .angleGet _ => true
  | .zposmGet _ | .zposmSet _ _ | .zposlGet _ | .zposlSet _ _ => true
  | .zposlEn7Get _ | .zposlEn7Set _ _ | .zposlEn6Get _ | .zposlEn6Set _ _ => true
  | .errflE2 _ | .errflE1 _ | .errflE0 _ => true
  | .zposSplit _ | .zposCompose _ _ | .degConv _ => true

end Sys2Proof
end

