-- ==== Sys2Proof/Decode.lean ====
section
/-! DEFINITION. The decoder and encoder. A request is the 34-bit pattern `oooo aaaaaaaaaaaaaa dddddddddddddddd` of
spec 30_encoding R106 and R107; a sent frame is told by its place in its sequence (R114); every received word is a
response frame (R119); a combinational function is told by its port (R116) and takes the table's word and its separate
inputs. `decode` is total and rejects by name; `encode` writes what `decode` reads. -/

namespace Sys2Proof

/-- Why words on a port are no instruction. -/
inductive DecodeError where
  /-- The word in a NOP's place is not 0x0000 (R104). Safe. -/
  | nopNotZero
  /-- The word in a data frame's place has bit 14 set (R102, R117). Safe. -/
  | dataBit14
  /-- A combinational port holds another number of separate inputs than its function takes (R116, log 12). Safe. -/
  | sideInputs
  /-- A bit index above 15, or `lo > hi` (R220). Safe. -/
  | fieldPosition
  deriving DecidableEq, Repr

/-- The request pattern (R106). -/
def packRequest (op : BitVec 4) (a : Addr) (wdata : Word) : BitVec 34 := op ++ a ++ wdata

/-- Bits 33:30 of a request (R106). -/
def requestOp (w : BitVec 34) : Nat := (w.extractLsb' 30 4).toNat

/-- Bits 29:16 of a request (R106). -/
def requestAddr (w : BitVec 34) : Addr := w.extractLsb' 16 14

/-- Bits 15:0 of a request (R106). -/
def requestData (w : BitVec 34) : Word := w.extractLsb' 0 16

/-- A request, by its `op` code (R107); 0xB to 0xF are the reserved codes. -/
def decodeRequest (w : BitVec 34) (fn : Fn) : Instr :=
  match requestOp w with
  | 0x0 => .read (requestAddr w)
  | 0x1 => .write (requestAddr w) (requestData w)
  | 0x2 => .modify (requestAddr w) fn
  | 0x3 => .angle
  | 0x4 => .angleDeg
  | 0x5 => .magnitude
  | 0x6 => .diag
  | 0x7 => .clrerr
  | 0x8 => .zposGet
  | 0x9 => .zposSet (requestData w)
  | 0xA => .release
  | 0xB => .reservedB
  | 0xC => .reservedC
  | 0xD => .reservedD
  | 0xE => .reservedE
  | _ => .reservedF

/-- A sent frame, by its place and its bits (R100 to R104, R114). -/
def decodeSent (pos : FramePos) (f : Word) : Except DecodeError Instr :=
  match pos with
  | .command =>
    .ok (if f.getLsbD 14 then .cmdRd (f.getLsbD 15) (Machine.payloadOf f)
         else .cmdWr (f.getLsbD 15) (Machine.payloadOf f))
  | .data => if f.getLsbD 14 then .error .dataBit14 else .ok (.data (f.getLsbD 15) (Machine.payloadOf f))
  | .nop => if f = 0 then .ok .nop else .error .nopNotZero

/-- A field position from two separate inputs, `0 <= lo <= hi <= 15` (R220). -/
def decodePosition (hi lo : Word) : Except DecodeError (Fin 16 × Fin 16) :=
  if h : lo.toNat ≤ hi.toNat ∧ hi.toNat < 16 then
    .ok (⟨hi.toNat, h.2⟩, ⟨lo.toNat, Nat.lt_of_le_of_lt h.1 h.2⟩)
  else .error .fieldPosition

/-- An instruction whose function takes no separate input (R116). -/
def noSide (i : Instr) : List Word → Except DecodeError Instr
  | [] => .ok i
  | _ :: _ => .error .sideInputs

/-- An instruction whose function takes one separate input (R116). -/
def oneSide (i : Word → Instr) : List Word → Except DecodeError Instr
  | [x] => .ok (i x)
  | [] => .error .sideInputs
  | _ :: _ :: _ => .error .sideInputs

/-- The inputs `hi` and `lo` of FLD.GET (R220). -/
def fldGetSide (w : Word) : List Word → Except DecodeError Instr
  | [hi, lo] =>
    match decodePosition hi lo with
    | .ok (h, l) => .ok (.fldGet w h l)
    | .error e => .error e
  | [] => .error .sideInputs
  | [_] => .error .sideInputs
  | _ :: _ :: _ :: _ => .error .sideInputs

/-- The inputs `hi`, `lo` and `x` of FLD.SET (R221). -/
def fldSetSide (w : Word) : List Word → Except DecodeError Instr
  | [hi, lo, x] =>
    match decodePosition hi lo with
    | .ok (h, l) => .ok (.fldSet w h l x)
    | .error e => .error e
  | [] => .error .sideInputs
  | [_] => .error .sideInputs
  | [_, _] => .error .sideInputs
  | _ :: _ :: _ :: _ :: _ => .error .sideInputs

/-- A combinational function, by its port; `w` is the table's word, `side` its separate inputs (R116). -/
def decodeComb (port : CombPort) (w : Word) (side : List Word) : Except DecodeError Instr :=
  match port with
  | .parCompute => noSide (.parCompute w) side
  | .parVerify => noSide (.parVerify w) side
  | .mkCmd => oneSide (fun rd => .mkCmd (w.extractLsb' 0 14) (rd.getLsbD 0)) side
  | .mkData => noSide (.mkData w) side
  | .mkNop => noSide .mkNop side
  | .respSplit => noSide (.respSplit w) side
  | .respValidate => noSide (.respValidate w) side
  | .fldGet => fldGetSide w side
  | .fldSet => fldSetSide w side
  | .diagAgc => noSide (.diagAgc w) side
  | .diagStrong => noSide (.diagStrong w) side
  | .diagWeak => noSide (.diagWeak w) side
  | .diagCof => noSide (.diagCof w) side
  | .diagOcf => noSide (.diagOcf w) side
  | .diagStrengthOk => noSide (.diagStrengthOk w) side
  | .diagValid => noSide (.diagValid w) side
  | .magGet => noSide (.magGet w) side
  | .angleGet => noSide (.angleGet w) side
  | .zposmGet => noSide (.zposmGet w) side
  | .zposmSet => oneSide (fun x => .zposmSet w x) side
  | .zposlGet => noSide (.zposlGet w) side
  | .zposlSet => oneSide (fun x => .zposlSet w x) side
  | .zposlEn7Get => noSide (.zposlEn7Get w) side
  | .zposlEn7Set => oneSide (fun x => .zposlEn7Set w (x.getLsbD 0)) side
  | .zposlEn6Get => noSide (.zposlEn6Get w) side
  | .zposlEn6Set => oneSide (fun x => .zposlEn6Set w (x.getLsbD 0)) side
  | .errflE2 => noSide (.errflE2 w) side
  | .errflE1 => noSide (.errflE1 w) side
  | .errflE0 => noSide (.errflE0 w) side
  | .zposSplit => noSide (.zposSplit w) side
  | .zposCompose => oneSide (fun l => .zposCompose w l) side
  | .degConv => noSide (.degConv w) side

/-- The instruction that stands on a port. -/
def decode : Presented → Except DecodeError Instr
  | .request w fn => .ok (decodeRequest w fn)
  | .sent pos f => decodeSent pos f
  | .received f => .ok (.resp (f.getLsbD 15) (f.getLsbD 14) (Machine.payloadOf f))
  | .comb port w side => decodeComb port w side

/-- A one-bit separate input carried in a 16-bit word. -/
def bitWord (b : Bool) : Word := (BitVec.ofBool b).setWidth 16

/-- A bit index carried in a 16-bit word. -/
def indexWord (i : Fin 16) : Word := BitVec.ofNat 16 i.val

/-- A request word with an operation's own operands, every ignored bit 0 and, where the operation takes no function,
the identity beside it (R106: ignored fields may hold anything). -/
def encodeRequest (op : BitVec 4) (a : Addr) (wdata : Word) (fn : Fn) : Presented :=
  .request (packRequest op a wdata) fn

/-- The words of an instruction, from the same tables (R100 to R107, R116). -/
def encode : Instr → Presented
  | .cmdRd p a => .sent .command (Machine.packFrame p true a)
  | .cmdWr p a => .sent .command (Machine.packFrame p false a)
  | .data p d => .sent .data (Machine.packFrame p false d)
  | .nop => .sent .nop 0
  | .resp p ef d => .received (Machine.packFrame p ef d)
  | .read a => encodeRequest 0x0 a 0 .arg
  | .write a d => encodeRequest 0x1 a d .arg
  | .modify a fn => encodeRequest 0x2 a 0 fn
  | .angle => encodeRequest 0x3 0 0 .arg
  | .angleDeg => encodeRequest 0x4 0 0 .arg
  | .magnitude => encodeRequest 0x5 0 0 .arg
  | .diag => encodeRequest 0x6 0 0 .arg
  | .clrerr => encodeRequest 0x7 0 0 .arg
  | .zposGet => encodeRequest 0x8 0 0 .arg
  | .zposSet d => encodeRequest 0x9 0 d .arg
  | .release => encodeRequest 0xA 0 0 .arg
  | .reservedB => encodeRequest 0xB 0 0 .arg
  | .reservedC => encodeRequest 0xC 0 0 .arg
  | .reservedD => encodeRequest 0xD 0 0 .arg
  | .reservedE => encodeRequest 0xE 0 0 .arg
  | .reservedF => encodeRequest 0xF 0 0 .arg
  | .parCompute w => .comb .parCompute w []
  | .parVerify f => .comb .parVerify f []
  | .mkCmd a rd => .comb .mkCmd (a.setWidth 16) [bitWord rd]
  | .mkData d => .comb .mkData d []
  | .mkNop => .comb .mkNop 0 []
  | .respSplit f => .comb .respSplit f []
  | .respValidate f => .comb .respValidate f []
  | .fldGet v hi lo => .comb .fldGet v [indexWord hi, indexWord lo]
  | .fldSet v hi lo x => .comb .fldSet v [indexWord hi, indexWord lo, x]
  | .diagAgc v => .comb .diagAgc v []
  | .diagStrong v => .comb .diagStrong v []
  | .diagWeak v => .comb .diagWeak v []
  | .diagCof v => .comb .diagCof v []
  | .diagOcf v => .comb .diagOcf v []
  | .diagStrengthOk v => .comb .diagStrengthOk v []
  | .diagValid v => .comb .diagValid v []
  | .magGet v => .comb .magGet v []
  | .angleGet v => .comb .angleGet v []
  | .zposmGet v => .comb .zposmGet v []
  | .zposmSet v x => .comb .zposmSet v [x]
  | .zposlGet v => .comb .zposlGet v []
  | .zposlSet v x => .comb .zposlSet v [x]
  | .zposlEn7Get v => .comb .zposlEn7Get v []
  | .zposlEn7Set v x => .comb .zposlEn7Set v [bitWord x]
  | .zposlEn6Get v => .comb .zposlEn6Get v []
  | .zposlEn6Set v x => .comb .zposlEn6Set v [bitWord x]
  | .errflE2 v => .comb .errflE2 v []
  | .errflE1 v => .comb .errflE1 v []
  | .errflE0 v => .comb .errflE0 v []
  | .zposSplit v => .comb .zposSplit v []
  | .zposCompose m l => .comb .zposCompose m [l]
  | .degConv a => .comb .degConv a []

/-- The place a lone sent frame has when nothing says where it stood: the start of a sequence of R114's grammar, whose
first frame is a command, or the NOP, which no command equals because no register has address 0 (R69). Log 14. -/
def lonePosition (f : Word) : FramePos := if f = 0 then .nop else .command

/-- What the table's word of a row is presented as: 16 bits are a frame, more are a request with the identity function
beside it. Log 14. -/
def presentTableWord (nbits w : Nat) : Presented :=
  if nbits ≤ 16 then .sent (lonePosition (BitVec.ofNat 16 w)) (BitVec.ofNat 16 w)
  else .request (BitVec.ofNat 34 w) .arg

/-- The instruction the decoder reads from a word of the opcode table. The decoder's rejections give none. -/
def decodeTableWord (nbits w : Nat) : Option Instr := (decode (presentTableWord nbits w)).toOption

end Sys2Proof
end

