-- ==== Sys2Proof/Machine/Fields.lean ====
section
/-! DEFINITION. The bitfield decoder and encoder, the diagnostics accessors, the zero-position arithmetic and the
degree conversion (spec 43_bitfield_decoder R220 to R245). All pure and total. -/

namespace Sys2Proof.Machine

/-- `mask(n) = (1 << n) - 1` at 16 bits (R10); all ones for `n = 16`. -/
def mask (n : Nat) : Word := BitVec.ofNat 16 (2 ^ n - 1)

/-- The width `hi - lo + 1` of a field (R220). -/
def fieldWidth (hi lo : Fin 16) : Nat := hi.val - lo.val + 1

/-- `FLD.GET(v, hi, lo)` (R220). -/
def fldGet (v : Word) (hi lo : Fin 16) : Word := (v >>> lo.val) &&& mask (fieldWidth hi lo)

/-- `FLD.SET(v, hi, lo, x)` (R221). -/
def fldSet (v : Word) (hi lo : Fin 16) (x : Word) : Word :=
  (v &&& ~~~(mask (fieldWidth hi lo) <<< lo.val)) ||| ((x &&& mask (fieldWidth hi lo)) <<< lo.val)

/-- `DIAG.AGC(v) = v[7:0]` (R223). -/
def diagAgc (v : Word) : Byte := v.extractLsb' 0 8

/-- `DIAG.STRONG(v) = v[b_strong]` (R224). -/
def diagStrong (l : DiagLayout) (v : Word) : Bool := v.getLsbD l.bStrong.val

/-- `DIAG.WEAK(v) = v[b_weak]` (R225). -/
def diagWeak (l : DiagLayout) (v : Word) : Bool := v.getLsbD l.bWeak.val

/-- `DIAG.COF(v) = v[b_cof]` (R226). -/
def diagCof (l : DiagLayout) (v : Word) : Bool := v.getLsbD l.bCof.val

/-- `DIAG.OCF(v) = v[b_ocf]` (R227). -/
def diagOcf (l : DiagLayout) (v : Word) : Bool := v.getLsbD l.bOcf.val

/-- `DIAG.STRENGTH_OK(v)`: neither too strong nor too weak (R228). -/
def diagStrengthOk (l : DiagLayout) (v : Word) : Bool := !diagStrong l v && !diagWeak l v

/-- `DIAG.VALID(v)`: no CORDIC overflow and field strength ok (R229). -/
def diagValid (l : DiagLayout) (v : Word) : Bool := !diagCof l v && diagStrengthOk l v

/-- `MAG.GET(v) = v[13:0]` (R230). -/
def magGet (v : Word) : Payload := v.extractLsb' 0 14

/-- `ANGLE.GET(v) = v[13:0]` (R231). -/
def angleGet (v : Word) : Payload := v.extractLsb' 0 14

/-- `ZPOSM.GET(v) = v[7:0]` (R232). -/
def zposmGet (v : Word) : Byte := v.extractLsb' 0 8

/-- `ZPOSM.SET(v, x) = FLD.SET(v, 7, 0, x)` (R233). -/
def zposmSet (v x : Word) : Word := fldSet v 7 0 x

/-- `ZPOSL.GET(v) = v[5:0]` (R234). -/
def zposlGet (v : Word) : BitVec 6 := v.extractLsb' 0 6

/-- `ZPOSL.SET(v, x) = FLD.SET(v, 5, 0, x)` (R235). -/
def zposlSet (v x : Word) : Word := fldSet v 5 0 x

/-- `ZPOSL.EN7.GET(v) = v[7]` (R236). -/
def zposlEn7Get (v : Word) : Bool := v.getLsbD 7

/-- `ZPOSL.EN7.SET(v, x) = FLD.SET(v, 7, 7, x)` (R237). -/
def zposlEn7Set (v : Word) (x : Bool) : Word := fldSet v 7 7 ((BitVec.ofBool x).setWidth 16)

/-- `ZPOSL.EN6.GET(v) = v[6]` (R238). -/
def zposlEn6Get (v : Word) : Bool := v.getLsbD 6

/-- `ZPOSL.EN6.SET(v, x) = FLD.SET(v, 6, 6, x)` (R239). -/
def zposlEn6Set (v : Word) (x : Bool) : Word := fldSet v 6 6 ((BitVec.ofBool x).setWidth 16)

/-- `ERRFL.E2(v) = v[2]` (R240). -/
def errflE2 (v : Word) : Bool := v.getLsbD 2

/-- `ERRFL.E1(v) = v[1]` (R241). -/
def errflE1 (v : Word) : Bool := v.getLsbD 1

/-- `ERRFL.E0(v) = v[0]` (R242). -/
def errflE0 (v : Word) : Bool := v.getLsbD 0

/-- `ZPOS.SPLIT(v) = (v[13:6], v[5:0])` (R243). -/
def zposSplit (v : Word) : Byte × BitVec 6 := (v.extractLsb' 6 8, v.extractLsb' 0 6)

/-- `ZPOS.COMPOSE(m, l) = (ZPOSM.GET(m) << 6) | ZPOSL.GET(l)` (R244). -/
def zposCompose (m l : Word) : Payload := ((zposmGet m).setWidth 14 <<< 6) ||| (zposlGet l).setWidth 14

/-- The divisor of the degree conversion (R245). -/
def angleMaxNat : AngleMax → Nat
  | .x3FFF => 0x3FFF
  | .x4000 => 0x4000

/-- `DEG.CONV(a)` (R245): a 32-bit saturating multiply by 360, then floor division by `ANGLE_MAX`. -/
def degConv (m : AngleMax) (a : Word) : Word :=
  BitVec.ofNat 16 (min (a.toNat * 360) (2 ^ 32 - 1) / angleMaxNat m)

end Sys2Proof.Machine
end

