-- ==== Sys2Proof/Machine/Params.lean ====
section
/-! DEFINITION. The default values of the parameters (spec 00_scope R8, 10_state R34, R35) and the address map read
from a configuration (R34, R68, R106). -/

namespace Sys2Proof.Machine

/-- The default `REGMAP` of R34. PRESUMED (log 4): the addresses are from general knowledge, not from the source. -/
def defaultRegmap : List (Register × Addr) :=
  [(.errfl, 0x0001#14), (.zposm, 0x0016#14), (.zposl, 0x0017#14), (.settings1, 0x0018#14), (.settings2, 0x0019#14),
   (.diaagc, 0x3FFC#14), (.mag, 0x3FFD#14), (.angleunc, 0x3FFE#14), (.anglecom, 0x3FFF#14)]

/-- The default `DIAG_LAYOUT` `(b_strong, b_weak, b_cof, b_ocf) = (11, 8, 9, 10)` (R35, D7). DESIGN CHOICE (log 5). -/
def defaultDiag : DiagLayout := { bStrong := 11, bWeak := 8, bCof := 9, bOcf := 10 }

/-- The configuration a block comes out of reset with (R50): the spec's defaults (logs 4, 5), and the two OPEN
parameters left open (log 3). -/
def builtConfig : Config where
  regmap := defaultRegmap
  hasZpos := true
  hasSettings := true
  diag := defaultDiag
  angleMax := if Config.openAngleMaxIs4000 then .x4000 else .x3FFF
  clrerrReturnsValue := Config.openClrerrReturnsValue
  angleReg := .anglecom
  tCsnMin := 350

/-- Whether a register belongs to the configured set: the optional ones only under their flag (R8, D6). -/
def registerPresent (c : Config) : Register → Bool
  | .zposm | .zposl => c.hasZpos
  | .settings1 | .settings2 => c.hasSettings
  | _ => true

/-- The configured `REGMAP`: the entries of registers that are present. -/
def regmapOf (c : Config) : List (Register × Addr) := c.regmap.filter fun e => registerPresent c e.1

/-- `addr(reg)`, none for a register `REGMAP` lacks (R8, R34, R118 (d)). -/
def addrOf (c : Config) (r : Register) : Option Addr :=
  ((regmapOf c).find? fun e => e.1 = r).map fun e => e.2

/-- The member of `REGMAP` with this address, none outside `REGMAP` (R106, R118 (b)). -/
def registerAt (c : Config) (a : Addr) : Option Register :=
  ((regmapOf c).find? fun e => e.2 = a).map fun e => e.1

end Sys2Proof.Machine
end

