-- ==== Sys2Proof/Machine/State.lean ====
section
/-! DEFINITION. The state of CODEC16 as plain data (spec 10_state R20 to R28), what is on its three ports, and the
reasons a step can stop. A working register that holds no value is absent (R22: the spec's own state, log 11). -/

namespace Sys2Proof.Machine

/-- The sequenced operations, `REQ.op` (R107, D2). -/
inductive Op where
  | read | write | modify | angle | angleDeg | magnitude | diag | clrerr | zposGet | zposSet | release
  deriving DecidableEq, Repr

/-- The second part of a running phase (R24). -/
inductive Sub where
  | issue | wait
  deriving DecidableEq, Repr

/-- The phase register, the block's program counter (R24). -/
inductive Phase where
  | idle
  | released
  | run (k : Nat) (sub : Sub)
  deriving DecidableEq, Repr

/-- `TransportError`: the transport's own error, passed on unread (R8, R312, D21). DESIGN CHOICE (log 10): its values
are told apart by a number and by nothing else. -/
structure TransportError where
  tag : Nat
  deriving DecidableEq, Repr

/-- The three errors (R310). -/
inductive DriverError where
  | communication (e : TransportError)
  | parityError
  | sensorError
  deriving DecidableEq, Repr

/-- `RES.status` (R311). -/
inductive Status where
  | ok | comm | parity | sensor
  deriving DecidableEq, Repr

/-- What the host gets back, once per accepted request (R12, R28). -/
inductive Result where
  | ok (value : Option Word)
  | err (e : DriverError)
  deriving DecidableEq, Repr

/-- The outcome of one transaction as the transport gives it: two received bytes in the order received, or its own
failure (R60, R180). -/
inductive Answer where
  | ok (rx0 rx1 : Byte)
  | fail (e : TransportError)
  deriving DecidableEq, Repr

/-- One transaction of the trace (R13): the two bytes sent in the order sent, and the outcome once it has arrived. -/
structure Transaction where
  tx0    : Byte
  tx1    : Byte
  answer : Option Answer
  deriving DecidableEq, Repr

/-- A request on the request port: the 34-bit pattern of R106 and the host's function beside it. -/
structure Request where
  word : BitVec 34
  fn   : Fn
  deriving DecidableEq, Repr

/-- Who moves: the host evaluates a combinational function, or leaves the step to the block (R28, R358; log 12). -/
inductive Turn where
  | evaluate (port : CombPort) (w : Word) (side : List Word)
  | block
  deriving DecidableEq, Repr

/-- One value on the output side of a combinational port. -/
structure Output where
  port  : CombPort
  value : Value
  deriving DecidableEq, Repr

/-- The working registers, by name, and the model's own `fnValue`, for the fault of R22. -/
inductive WorkReg where
  | reqOp | reqReg | reqWdata | reqFn | txw | rxw | acc | fnValue | resStatus | resHasValue | resValue | resErr
  deriving DecidableEq, Repr

/-- The state of the machine. -/
structure State where
  /-- the parameters the block was built with (R43); no step changes them (log 2) -/
  cfg         : Config
  /-- R24 -/
  phase       : Phase
  /-- R27 -/
  owned       : Bool
  /-- `REQ.op` -/
  reqOp       : Option Op
  /-- `REQ.reg` -/
  reqReg      : Option Register
  /-- `REQ.wdata` -/
  reqWdata    : Option Word
  /-- `REQ.fn` -/
  reqFn       : Option Fn
  /-- `TXW` -/
  txw         : Option Word
  /-- `RXW` -/
  rxw         : Option Word
  /-- `ACC` -/
  acc         : Option Word
  /-- the MODEL's own: the result `u = f(t)` of a MODIFY half's function (42_frame_sequencer R192), from its evaluation
  (a step of its own, 00_scope R14, D19) until `ACC` takes the next payload (log 16) -/
  fnValue     : Option Word
  /-- `RES.status` -/
  resStatus   : Option Status
  /-- `RES.has_value` -/
  resHasValue : Option Bool
  /-- `RES.value` -/
  resValue    : Option Word
  /-- `RES.err` -/
  resErr      : Option TransportError
  /-- the request port: what the host presents, in order; a request waits here while the block is busy (R353) -/
  reqPort     : List Request
  /-- the host's evaluations of combinational functions and the turns it leaves to the block; none left: the block -/
  turns       : List Turn
  /-- the oracle: the outcomes the transport will give to the transactions to come, in order; none left: never
  (log 9; none at reset, log 27) -/
  answers     : List Answer
  /-- the transport trace (R13), the newest transaction first (log 18) -/
  trace       : List Transaction
  /-- the results delivered (R28), the newest first (log 18) -/
  results     : List Result
  /-- the values the combinational functions gave, the newest first (log 18) -/
  outs        : List Output
  deriving DecidableEq, Repr

/-- Why the machine stops with a fault. None is reachable from reset (R22): they are faults of the model. -/
inductive Fault where
  /-- A rule would read a working register that holds no value. Raised by `need` only. Safe: 10_state R22 says that
  such a read "is a fault of the model, not a zero" (so do 00_scope R16, D16 and U10), and that no rule ever does it. -/
  | absentRegister (r : WorkReg)
  /-- The phase names a transaction the operation's schedule does not have (R24: `k` ranges over 0 to N-1). Raised by
  `currentEntry`. Safe. -/
  | noScheduleEntry (k : Nat)
  /-- A frame needs the address of a register that `REGMAP` lacks (R118 keeps such an operation from being accepted).
  Raised by `buildFrame`. Safe. -/
  | unmappedRegister (r : Register)
  deriving DecidableEq, Repr

/-- Why an instruction is refused. -/
inductive Refusal where
  /-- The instruction has no meaning in the model yet. Raised by exec's arms only. Safe. -/
  | notModelled (mnemonic : String)
  /-- A reserved `op` code (R118 (a)). Raised by the meanings of RESERVED.B to RESERVED.F. Safe: the spec refuses it. -/
  | reservedOp (op : BitVec 4)
  /-- READ, WRITE or MODIFY of an address outside `REGMAP` (R118 (b)). Raised by their meanings. Safe: as the spec. -/
  | noSuchRegister (a : Addr)
  /-- A request when the handle does not own the transport (R118 (c)). Raised by every request. Safe: as the spec. -/
  | released
  /-- The operation needs a register the configured `REGMAP` lacks (R118 (d), log 23). Raised by the sensor operations.
  Safe: as the spec. -/
  | lacksRegister (r : Register)
  /-- A frame the schedule does not send now (R114, R117, log 15). Raised by the meanings of the sent frames. Safe: no
  step runs such a frame. -/
  | notScheduled (frame : Word)
  /-- A received frame while no transaction is outstanding (R26, R180, log 15). Raised by the meaning of RESP. Safe: no
  step runs such a frame. -/
  | noTransaction
  /-- A field position with `lo > hi` (R220). Raised by the meanings of FLD.GET and FLD.SET. Safe: it is no position. -/
  | fieldPosition
  /-- Words on a combinational port that are no operands of its function (R116, log 12). Raised by step. Safe. -/
  | undecodable
  deriving DecidableEq, Repr

/-- The machine right after creation of the handle (R50, R350): IDLE, owning the transport, no working register with a
value, nothing sent. The configuration is the built one (logs 3, 4, 5). What the environment brings is the model's
choice (log 27): no outcome to come (`answers`: a transport that never answers, where R350 and U5 leave its outcomes
free), no request on the port and no evaluation in turn. -/
def State.reset : State where
  cfg := builtConfig
  phase := .idle
  owned := true
  reqOp := none
  reqReg := none
  reqWdata := none
  reqFn := none
  txw := none
  rxw := none
  acc := none
  fnValue := none
  resStatus := none
  resHasValue := none
  resValue := none
  resErr := none
  reqPort := []
  turns := []
  answers := []
  trace := []
  results := []
  outs := []

end Sys2Proof.Machine
end

