-- ==== Sys2Proof/Machine/Operands.lean ====
section
/-! DEFINITION. Operand assembly (spec 30_encoding R108 to R113), the value of the host's function, the schedule table
of 42_frame_sequencer R182 and what a successful operation returns (44_sensor_operations). -/

namespace Sys2Proof.Machine

/-- The value of MODIFY's function at an argument (R106, R112; log 8). -/
def evalFn : Fn → Word → Word
  | .arg, x => x
  | .lit w, _ => w
  | .not a, x => ~~~(evalFn a x)
  | .and a b, x => evalFn a x &&& evalFn b x
  | .or a b, x => evalFn a x ||| evalFn b x
  | .xor a b, x => evalFn a x ^^^ evalFn b x
  | .add a b, x => evalFn a x + evalFn b x
  | .shl a n, x => evalFn a x <<< n.val
  | .shr a n, x => evalFn a x >>> n.val
  | .table rows otherwise, x =>
    match rows.find? fun r => r.1 = x with
    | some r => r.2
    | none => evalFn otherwise x

/-- `zext_16` of a payload: the value a READ returns (R111). -/
def zext (p : Payload) : Word := p.setWidth 16

/-- A 16-bit word from an 8-bit or a 6-bit half of a zero position (R113). -/
def msbWord (v : Word) : Word := (zposSplit v).1.setWidth 16

/-- See `msbWord`. -/
def lsbWord (v : Word) : Word := (zposSplit v).2.setWidth 16

/-- The register a command frame names: the request's operand, the configured angle register, or a fixed one (R198). -/
inductive RegRef where
  | operand | angleReg
  | fixed (r : Register)
  deriving DecidableEq, Repr

/-- The value a data frame carries (R182): `d`, or the value of a MODIFY half's function. -/
inductive DataRef where
  | wdata
  | fnValue
  deriving DecidableEq, Repr

/-- The function of a MODIFY half (R182, R192): the host's `REQ.fn`, or `x => ZPOSM.SET(x, v[13:6])` or
`x => ZPOSL.SET(x, v[5:0])` of ZPOS.SET. -/
inductive ModFn where
  | reqFn
  | zposm
  | zposl
  deriving DecidableEq, Repr

/-- The frame an entry sends (R182). -/
inductive FrameSpec where
  | readCmd (r : RegRef)
  | writeCmd (r : RegRef)
  | data (d : DataRef)
  | nop
  deriving DecidableEq, Repr

/-- How the received frame is handled (R181). -/
inductive Handling where
  | ignore | keepAcc | keepValue | discard
  deriving DecidableEq, Repr

/-- One entry of a schedule (R182). `evaluates` names the function that is evaluated before the entry's frame goes out:
that of a MODIFY half, before the first frame of its WRITE half (D19, log 16). -/
structure Entry where
  sends     : FrameSpec
  handling  : Handling
  evaluates : Option ModFn
  deriving DecidableEq, Repr

/-- The two transactions of a READ (R182), its payload kept where `keep` says. -/
def readEntries (r : RegRef) (keep : Handling) : List Entry := [⟨.readCmd r, .ignore, none⟩, ⟨.nop, keep, none⟩]

/-- The three transactions of a WRITE of `d` (R182), `f` evaluated before the first. -/
def writeEntries (r : RegRef) (d : DataRef) (f : Option ModFn) : List Entry :=
  [⟨.writeCmd r, .ignore, f⟩, ⟨.data d, .ignore, none⟩, ⟨.nop, .discard, none⟩]

/-- The five transactions of a MODIFY by `f` (R182). -/
def modifyEntries (r : RegRef) (f : ModFn) : List Entry :=
  readEntries r .keepAcc ++ writeEntries r .fnValue (some f)

/-- The schedule table (R182). -/
def schedule : Op → List Entry
  | .read => readEntries .operand .keepValue
  | .write => writeEntries .operand .wdata none
  | .modify => modifyEntries .operand .reqFn
  | .angle => readEntries .angleReg .keepValue
  | .angleDeg => readEntries .angleReg .keepValue
  | .magnitude => readEntries (.fixed .mag) .keepValue
  | .diag => readEntries (.fixed .diaagc) .keepValue
  | .clrerr => readEntries (.fixed .errfl) .keepValue
  | .zposGet => readEntries (.fixed .zposm) .keepAcc ++ readEntries (.fixed .zposl) .keepValue
  | .zposSet => modifyEntries (.fixed .zposm) .zposm ++ modifyEntries (.fixed .zposl) .zposl
  | .release => []

/-- The registers an operation without a register operand needs (R118 (d), R271 to R277). -/
def neededRegisters (c : Config) : Op → List Register
  | .read | .write | .modify | .release => []
  | .angle | .angleDeg => [c.angleReg]
  | .magnitude => [.mag]
  | .diag => [.diaagc]
  | .clrerr => [.errfl]
  | .zposGet | .zposSet => [.zposm, .zposl]

/-- The `op` code of an operation (R107). -/
def opCode : Op → BitVec 4
  | .read => 0x0
  | .write => 0x1
  | .modify => 0x2
  | .angle => 0x3
  | .angleDeg => 0x4
  | .magnitude => 0x5
  | .diag => 0x6
  | .clrerr => 0x7
  | .zposGet => 0x8
  | .zposSet => 0x9
  | .release => 0xA

/-- The code of `RES.status` (R311). -/
def statusCode : Status → BitVec 2
  | .ok => 0
  | .comm => 1
  | .parity => 2
  | .sensor => 3

end Sys2Proof.Machine
end

