-- ==== Sys2Proof/Machine/Ops.lean ====
section
/-! DEFINITION. The operations every meaning is made of: reading a working register (spec 10_state R22), the frame an
entry sends (42_frame_sequencer R182), the steps accept, issue and complete of R183, finishing an operation, raising an
error (60_exceptions R316), and a value on a combinational port (10_state R28). -/

namespace Sys2Proof.Machine

/-- What a step answers. -/
abbrev Out := Host.Outcome State Fault Refusal

/-- A read of a working register: absent is the fault of R22. -/
def need {α : Type} (r : WorkReg) (v : Option α) : Except Fault α :=
  match v with
  | some x => .ok x
  | none => .error (.absentRegister r)

/-- The register a command frame names (R182). -/
def refRegister (s : State) : RegRef → Except Fault Register
  | .operand => need .reqReg s.reqReg
  | .angleReg => .ok s.cfg.angleReg
  | .fixed r => .ok r

/-- `addr(reg)` for a command frame (R108). -/
def refAddr (s : State) (r : RegRef) : Except Fault Addr :=
  match refRegister s r with
  | .error f => .error f
  | .ok g =>
    match addrOf s.cfg g with
    | some a => .ok a
    | none => .error (.unmappedRegister g)

/-- The value `u = f(t)` of a MODIFY half's function at the payload `t` in `ACC` (R112, R182, R192). -/
def modFnValue (s : State) : ModFn → Except Fault Word
  | .reqFn => do
    let f ← need .reqFn s.reqFn
    let t ← need .acc s.acc
    return evalFn f t
  | .zposm => do
    let v ← need .reqWdata s.reqWdata
    let t ← need .acc s.acc
    return zposmSet t (msbWord v)
  | .zposl => do
    let v ← need .reqWdata s.reqWdata
    let t ← need .acc s.acc
    return zposlSet t (lsbWord v)

/-- The value a data frame carries (R182): `d`, or `f(ACC)` as the evaluation before the WRITE half left it. -/
def dataValue (s : State) : DataRef → Except Fault Word
  | .wdata => need .reqWdata s.reqWdata
  | .fnValue => need .fnValue s.fnValue

/-- The frame an entry sends (R182), with its place in its sequence (R114). -/
def buildFrame (s : State) : FrameSpec → Except Fault (FramePos × Word)
  | .readCmd r => do
    let a ← refAddr s r
    return (.command, mkCmd a true)
  | .writeCmd r => do
    let a ← refAddr s r
    return (.command, mkCmd a false)
  | .data d => do
    let v ← dataValue s d
    return (.data, mkData v)
  | .nop => .ok (.nop, mkNop)

/-- Entry `k` of the schedule of the operation in `REQ.op` (R24, R182). -/
def currentEntry (s : State) (k : Nat) : Except Fault Entry :=
  match need .reqOp s.reqOp with
  | .error f => .error f
  | .ok op =>
    match (schedule op)[k]? with
    | some e => .ok e
    | none => .error (.noScheduleEntry k)

/-- The frame of schedule entry `k`. -/
def scheduledFrame (s : State) (k : Nat) : Except Fault (FramePos × Word) :=
  match currentEntry s k with
  | .ok e => buildFrame s e.sends
  | .error f => .error f

/-- The function the block evaluates next, before entry `k` is issued: that of the MODIFY half whose WRITE half begins
at `k`, as long as it has not been evaluated (00_scope R14, D19, log 16). -/
def dueFn (s : State) (k : Nat) : Option ModFn :=
  match currentEntry s k with
  | .ok e => if s.fnValue.isNone then e.evaluates else none
  | .error _ => none

/-- The block's step that evaluates the function of a MODIFY half (00_scope R14, R192, D19). -/
def evaluateFn (g : ModFn) (s : State) : Out :=
  match modFnValue s g with
  | .ok u => .next { s with fnValue := some u }
  | .error f => .fault f

/-- Every working register returns to holding no value (R23, R183, R316). -/
def clearWorking (s : State) : State :=
  { s with
    reqOp := none, reqReg := none, reqWdata := none, reqFn := none, txw := none, rxw := none, acc := none,
    fnValue := none, resStatus := none, resHasValue := none, resValue := none, resErr := none }

/-- The result the `RES` registers encode (R20, R28, R311). -/
def resultOf (s : State) : Except Fault Result := do
  match (← need .resStatus s.resStatus) with
  | .ok =>
    if (← need .resHasValue s.resHasValue) then return .ok (some (← need .resValue s.resValue))
    else return .ok none
  | .comm => return .err (.communication (← need .resErr s.resErr))
  | .parity => return .err .parityError
  | .sensor => return .err .sensorError

/-- The end of every operation: the result is delivered, every working register holds no value, and the phase is
`ph` (R183 finish, R316 (3) and (4)). -/
def endOperation (ph : Phase) (s : State) : Out :=
  match resultOf s with
  | .ok r => .next { clearWorking s with results := r :: s.results, phase := ph }
  | .error f => .fault f

/-- `RES.status <- OK`, `RES.has_value` and `RES.value` (R183 finish). -/
def writeOk (v : Option Word) (s : State) : State :=
  { s with
    resStatus := some .ok
    resHasValue := some v.isSome
    resValue := match v with
      | some w => some w
      | none => s.resValue }

/-- `RES.status <- code(E)`, `RES.has_value <- 0`, and `RES.err <- e` for `Communication(e)` (R316 (1)). -/
def writeError (e : DriverError) (s : State) : State :=
  match e with
  | .communication t => { s with resStatus := some .comm, resHasValue := some false, resErr := some t }
  | .parityError => { s with resStatus := some .parity, resHasValue := some false }
  | .sensorError => { s with resStatus := some .sensor, resHasValue := some false }

/-- `raise E` (R316): the block's trap entry. Nothing is saved and nothing returns from it (R321). -/
def raiseErr (e : DriverError) (s : State) : Out := endOperation .idle (writeError e s)

/-- The value of `Ok` of each operation (R184, R188, R192, R271 to R278). -/
def finishValue (op : Op) (s : State) : Except Fault (Option Word) :=
  match op with
  | .write | .modify | .zposSet | .release => .ok none
  | .read => do return some (← need .resValue s.resValue)
  | .angle => do return some (zext (angleGet (← need .resValue s.resValue)))
  | .angleDeg => do return some (degConv s.cfg.angleMax (← need .resValue s.resValue))
  | .magnitude => do return some (zext (magGet (← need .resValue s.resValue)))
  | .diag => do return some (← need .resValue s.resValue)
  | .clrerr =>
    if s.cfg.clrerrReturnsValue then do return some (← need .resValue s.resValue) else .ok none
  | .zposGet => do
    let m ← need .acc s.acc
    let l ← need .resValue s.resValue
    return some (zext (zposCompose m l))

/-- `finish` (R183). -/
def finish (op : Op) (s : State) : Out :=
  match finishValue op s with
  | .ok v => endOperation .idle (writeOk v s)
  | .error f => .fault f

/-- Transaction `k` is handled and did not raise: the next entry, or finish (R25, R183). -/
def advance (k : Nat) (s : State) : Out :=
  match need .reqOp s.reqOp with
  | .error f => .fault f
  | .ok op =>
    if k + 1 < (schedule op).length then .next { s with phase := .run (k + 1) .issue } else finish op s

/-- The start of `Xfer(x[TXW])`: the two bytes go out and the transaction is in the trace, its outcome to come
(R13, R60, R180). -/
def startXfer (w : Word) (s : State) : State :=
  { s with txw := some w, trace := ⟨(toWire w).1, (toWire w).2, none⟩ :: s.trace }

/-- The outcome of the outstanding transaction enters the trace (R13, R180). -/
def recordAnswer (a : Answer) : List Transaction → List Transaction
  | [] => []
  | t :: ts => { t with answer := some a } :: ts

/-- `issue` (R183): the frame of entry `k` goes out; a frame that entry does not send, or does not send before the
function of its MODIFY half is evaluated, is refused (R117, log 15). -/
def issueFrame (pos : FramePos) (w : Word) (s : State) : Out :=
  match s.phase with
  | .run k .issue =>
    match dueFn s k with
    | some _ => .refused (.notScheduled w)
    | none =>
      match scheduledFrame s k with
      | .ok f => if f = (pos, w) then .next { startXfer w s with phase := .run k .wait } else .refused (.notScheduled w)
      | .error f => .fault f
  | _ => .refused (.notScheduled w)

/-- `RXW <- r` and the outcome in the trace (R183 complete, R60). -/
def receiveFrame (r : Word) (s : State) : State :=
  { s with rxw := some r, trace := recordAnswer (.ok (toWire r).1 (toWire r).2) s.trace }

/-- The condition bit `par_ok`, computed from `RXW` and not stored (R29). -/
def State.parOk (s : State) : Option Bool := s.rxw.map parVerify

/-- The condition bit `ef`, computed from `RXW` and not stored (R29). -/
def State.ef (s : State) : Option Bool := s.rxw.map errorFlag

/-- A validated transaction: raise on a bad verdict, else keep the payload by `keep` and go on (R181, R183). -/
def validated (k : Nat) (keep : Payload → State → State) (s : State) : Out :=
  match need .rxw s.rxw with
  | .error f => .fault f
  | .ok r =>
    match respValidate r with
    | .parityBad => raiseErr .parityError s
    | .sensorFlag => raiseErr .sensorError s
    | .good p => advance k (keep p s)

/-- `complete` with outcome `Ok(r)` (R183). -/
def completeFrame (r : Word) (s : State) : Out :=
  match s.phase with
  | .run k .wait =>
    match currentEntry s k with
    | .error f => .fault f
    | .ok e =>
      match e.handling with
      | .ignore => advance k (receiveFrame r s)
      | .keepAcc => validated k (fun p t => { t with acc := some (zext p), fnValue := none }) (receiveFrame r s)
      | .keepValue => validated k (fun p t => { t with resValue := some (zext p) }) (receiveFrame r s)
      | .discard => validated k (fun _ t => t) (receiveFrame r s)
  | _ => .refused .noTransaction

/-- `complete` with outcome `Fail(e)` (R183, R194): in the transaction it occurs in, ignored or validated alike. -/
def failTransaction (e : TransportError) (s : State) : Out :=
  raiseErr (.communication e) { s with trace := recordAnswer (.fail e) s.trace }

/-- A request: refused when the handle does not own the transport (R118 (c)), left pending on its port while an
operation is in progress (R353, log 17), and at IDLE what `atIdle` says. -/
def whenIdle (s : State) (atIdle : Out) : Out :=
  if s.owned = false then .refused .released
  else
    match s.phase with
    | .idle => atIdle
    | .released => .refused .released
    | .run _ _ => .next s

/-- The register at the address on the request port, where it is a register's (R28, R106). -/
def portReg (s : State) : Option Register := s.reqPort.head?.bind fun r => registerAt s.cfg (requestAddr r.word)

/-- The data word on the request port (R28, R106). -/
def portWdata (s : State) : Option Word := s.reqPort.head?.map fun r => requestData r.word

/-- The function on the request port (R28, R106). -/
def portFn (s : State) : Option Fn := s.reqPort.head?.map fun r => r.fn

/-- `REQ.* <- the request`, `phase <- RUN(0, ISSUE)` (R183 accept): the request is latched whole and leaves its port
(20_memory R82, D15). The fields an operation ignores (R106) are latched as they stand on the port (log 13). -/
def latch (op : Op) (reg : Option Register) (wdata : Option Word) (fn : Option Fn) (s : State) : State :=
  { s with
    reqOp := some op, reqReg := reg, reqWdata := wdata, reqFn := fn, phase := .run 0 .issue,
    reqPort := s.reqPort.tail }

/-- `accept` of READ, WRITE, MODIFY at the address on the port (R118 (b), R183). -/
def acceptAt (op : Op) (a : Addr) (wdata : Option Word) (fn : Option Fn) (s : State) : Out :=
  match registerAt s.cfg a with
  | some r => .next (latch op (some r) wdata fn s)
  | none => .refused (.noSuchRegister a)

/-- `accept` of a sensor operation (R118 (d), R183). -/
def acceptSensor (op : Op) (wdata : Option Word) (s : State) : Out :=
  match (neededRegisters s.cfg op).find? fun r => (addrOf s.cfg r).isNone with
  | some r => .refused (.lacksRegister r)
  | none => .next (latch op (portReg s) wdata (portFn s) s)

/-- A value on the output side of a combinational port; nothing of the block changes (R28, R30). -/
def emit (port : CombPort) (v : Value) (s : State) : Out := .next { s with outs := ⟨port, v⟩ :: s.outs }

end Sys2Proof.Machine
end

