-- ==== Sys2Proof/Machine/Comb.lean ====
section
/-! DEFINITION. The meanings of the 32 combinational functions (spec 30_encoding R116): each puts its value on its own
output port, at any time, and changes nothing of the block (10_state R28, R30). -/

namespace Sys2Proof.Machine

/-- PAR.COMPUTE (R141). -/
def execParCompute (w : Word) (s : State) : Out := emit .parCompute (.bit (parCompute w)) s

/-- PAR.VERIFY (R142). -/
def execParVerify (f : Word) (s : State) : Out := emit .parVerify (.bit (parVerify f)) s

/-- MKCMD (R144). -/
def execMkCmd (a : Addr) (rd : Bool) (s : State) : Out := emit .mkCmd (.word (mkCmd a rd)) s

/-- MKDATA (R145). -/
def execMkData (d : Word) (s : State) : Out := emit .mkData (.word (mkData d)) s

/-- MKNOP (R146). -/
def execMkNop (s : State) : Out := emit .mkNop (.word mkNop) s

/-- RESP.SPLIT (R160). -/
def execRespSplit (f : Word) (s : State) : Out :=
  emit .respSplit (.split (respSplit f).1 (respSplit f).2.1 (respSplit f).2.2) s

/-- RESP.VALIDATE (R161). -/
def execRespValidate (f : Word) (s : State) : Out := emit .respValidate (.verdict (respValidate f)) s

/-- FLD.GET (R220). -/
def execFldGet (v : Word) (hi lo : Fin 16) (s : State) : Out :=
  if lo ≤ hi then emit .fldGet (.word (fldGet v hi lo)) s else .refused .fieldPosition

/-- FLD.SET (R221). -/
def execFldSet (v : Word) (hi lo : Fin 16) (x : Word) (s : State) : Out :=
  if lo ≤ hi then emit .fldSet (.word (fldSet v hi lo x)) s else .refused .fieldPosition

/-- DIAG.AGC (R223). -/
def execDiagAgc (v : Word) (s : State) : Out := emit .diagAgc (.byte (diagAgc v)) s

/-- DIAG.STRONG (R224). -/
def execDiagStrong (v : Word) (s : State) : Out := emit .diagStrong (.bit (diagStrong s.cfg.diag v)) s

/-- DIAG.WEAK (R225). -/
def execDiagWeak (v : Word) (s : State) : Out := emit .diagWeak (.bit (diagWeak s.cfg.diag v)) s

/-- DIAG.COF (R226). -/
def execDiagCof (v : Word) (s : State) : Out := emit .diagCof (.bit (diagCof s.cfg.diag v)) s

/-- DIAG.OCF (R227). -/
def execDiagOcf (v : Word) (s : State) : Out := emit .diagOcf (.bit (diagOcf s.cfg.diag v)) s

/-- DIAG.STRENGTH_OK (R228). -/
def execDiagStrengthOk (v : Word) (s : State) : Out := emit .diagStrengthOk (.bit (diagStrengthOk s.cfg.diag v)) s

/-- DIAG.VALID (R229). -/
def execDiagValid (v : Word) (s : State) : Out := emit .diagValid (.bit (diagValid s.cfg.diag v)) s

/-- MAG.GET (R230). -/
def execMagGet (v : Word) (s : State) : Out := emit .magGet (.payload (magGet v)) s

/-- ANGLE.GET (R231). -/
def execAngleGet (v : Word) (s : State) : Out := emit .angleGet (.payload (angleGet v)) s

/-- ZPOSM.GET (R232). -/
def execZposmGet (v : Word) (s : State) : Out := emit .zposmGet (.byte (zposmGet v)) s

/-- ZPOSM.SET (R233). -/
def execZposmSet (v x : Word) (s : State) : Out := emit .zposmSet (.word (zposmSet v x)) s

/-- ZPOSL.GET (R234). -/
def execZposlGet (v : Word) (s : State) : Out := emit .zposlGet (.six (zposlGet v)) s

/-- ZPOSL.SET (R235). -/
def execZposlSet (v x : Word) (s : State) : Out := emit .zposlSet (.word (zposlSet v x)) s

/-- ZPOSL.EN7.GET (R236). -/
def execZposlEn7Get (v : Word) (s : State) : Out := emit .zposlEn7Get (.bit (zposlEn7Get v)) s

/-- ZPOSL.EN7.SET (R237). -/
def execZposlEn7Set (v : Word) (x : Bool) (s : State) : Out := emit .zposlEn7Set (.word (zposlEn7Set v x)) s

/-- ZPOSL.EN6.GET (R238). -/
def execZposlEn6Get (v : Word) (s : State) : Out := emit .zposlEn6Get (.bit (zposlEn6Get v)) s

/-- ZPOSL.EN6.SET (R239). -/
def execZposlEn6Set (v : Word) (x : Bool) (s : State) : Out := emit .zposlEn6Set (.word (zposlEn6Set v x)) s

/-- ERRFL.E2 (R240). -/
def execErrflE2 (v : Word) (s : State) : Out := emit .errflE2 (.bit (errflE2 v)) s

/-- ERRFL.E1 (R241). -/
def execErrflE1 (v : Word) (s : State) : Out := emit .errflE1 (.bit (errflE1 v)) s

/-- ERRFL.E0 (R242). -/
def execErrflE0 (v : Word) (s : State) : Out := emit .errflE0 (.bit (errflE0 v)) s

/-- ZPOS.SPLIT (R243). -/
def execZposSplit (v : Word) (s : State) : Out := emit .zposSplit (.halves (zposSplit v).1 (zposSplit v).2) s

/-- ZPOS.COMPOSE (R244): 14 bits, zero-extended to 16. -/
def execZposCompose (m l : Word) (s : State) : Out := emit .zposCompose (.word (zext (zposCompose m l))) s

/-- DEG.CONV (R245). -/
def execDegConv (a : Word) (s : State) : Out := emit .degConv (.word (degConv s.cfg.angleMax a)) s

end Sys2Proof.Machine
end

