-- ==== Sys2Proof/Machine/Frames.lean ====
section
/-! DEFINITION. The meanings of the five frame rows (spec 30_encoding R100 to R104): a sent frame is the issue step of
42_frame_sequencer R183, the received frame its complete step. -/

namespace Sys2Proof.Machine

/-- CMD.RD (R101, R144, R183 issue). -/
def execCmdRd (p : Bool) (addr : Addr) (s : State) : Out := issueFrame .command (packFrame p true addr) s

/-- CMD.WR (R101, R144, R183 issue). -/
def execCmdWr (p : Bool) (addr : Addr) (s : State) : Out := issueFrame .command (packFrame p false addr) s

/-- DATA (R102, R145, R183 issue). -/
def execData (p : Bool) (d : Payload) (s : State) : Out := issueFrame .data (packFrame p false d) s

/-- NOP (R104, R146, R183 issue). -/
def execNop (s : State) : Out := issueFrame .nop mkNop s

/-- RESP (R103, R160, R183 complete with outcome Ok). -/
def execResp (p ef : Bool) (payload : Payload) (s : State) : Out := completeFrame (packFrame p ef payload) s

end Sys2Proof.Machine
end

