-- ==== Sys2Proof/Machine/Sensor.lean ====
section
/-! DEFINITION. The meanings of the sensor operations and of RELEASE (spec 44_sensor_operations R271 to R278), and of the
five reserved op codes (30_encoding R118 (a)). -/

namespace Sys2Proof.Machine

/-- ANGLE (R271). -/
def execAngle (s : State) : Out := whenIdle s (acceptSensor .angle (portWdata s) s)

/-- ANGLE.DEG (R272). -/
def execAngleDeg (s : State) : Out := whenIdle s (acceptSensor .angleDeg (portWdata s) s)

/-- MAGNITUDE (R273). -/
def execMagnitude (s : State) : Out := whenIdle s (acceptSensor .magnitude (portWdata s) s)

/-- DIAG (R274). -/
def execDiag (s : State) : Out := whenIdle s (acceptSensor .diag (portWdata s) s)

/-- CLRERR (R275). -/
def execClrerr (s : State) : Out := whenIdle s (acceptSensor .clrerr (portWdata s) s)

/-- ZPOS.GET (R276). -/
def execZposGet (s : State) : Out := whenIdle s (acceptSensor .zposGet (portWdata s) s)

/-- ZPOS.SET (R277). -/
def execZposSet (wdata : Word) (s : State) : Out :=
  whenIdle s (acceptSensor .zposSet (some wdata) s)

/-- RELEASE (R278): `owned <- 0`, `phase <- RELEASED`, deliver Ok; no transaction. -/
def execRelease (s : State) : Out :=
  whenIdle s (endOperation .released (writeOk none { s with owned := false, reqPort := s.reqPort.tail }))

/-- RESERVED.B (R118 (a)). -/
def execReservedB (_ : State) : Out := .refused (.reservedOp 0xB#4)

/-- RESERVED.C (R118 (a)). -/
def execReservedC (_ : State) : Out := .refused (.reservedOp 0xC#4)

/-- RESERVED.D (R118 (a)). -/
def execReservedD (_ : State) : Out := .refused (.reservedOp 0xD#4)

/-- RESERVED.E (R118 (a)). -/
def execReservedE (_ : State) : Out := .refused (.reservedOp 0xE#4)

/-- RESERVED.F (R118 (a)). -/
def execReservedF (_ : State) : Out := .refused (.reservedOp 0xF#4)

end Sys2Proof.Machine
end

