-- ==== Sys2Proof/Machine/Sequencer.lean ====
section
/-! DEFINITION. The meanings of READ, WRITE and MODIFY (spec 42_frame_sequencer R184, R188, R192): the accept step of
R183. The transactions follow by the schedule of R182, one step each way. -/

namespace Sys2Proof.Machine

/-- READ (R184). -/
def execRead (addr : Addr) (s : State) : Out :=
  whenIdle s (acceptAt .read addr (portWdata s) (portFn s) s)

/-- WRITE (R188). -/
def execWrite (addr : Addr) (wdata : Word) (s : State) : Out :=
  whenIdle s (acceptAt .write addr (some wdata) (portFn s) s)

/-- MODIFY (R192). -/
def execModify (addr : Addr) (fn : Fn) (s : State) : Out :=
  whenIdle s (acceptAt .modify addr (portWdata s) (some fn) s)

end Sys2Proof.Machine
end

