-- ==== Sys2Proof/Machine/Dispatch.lean ====
section
/-! DEFINITION. One arm per instruction: a direct call of its meaning. -/

namespace Sys2Proof.Machine

def exec (i : Instr) (s : State) : Host.Outcome State Fault Refusal :=
  match i with
  | .cmdRd p addr => Sys2Proof.Machine.execCmdRd p addr s
  | .cmdWr p addr => Sys2Proof.Machine.execCmdWr p addr s
  | .data p d => Sys2Proof.Machine.execData p d s
  | .nop => Sys2Proof.Machine.execNop s
  | .resp p ef payload => Sys2Proof.Machine.execResp p ef payload s
  | .read addr => Sys2Proof.Machine.execRead addr s
  | .write addr wdata => Sys2Proof.Machine.execWrite addr wdata s
  | .modify addr fn => Sys2Proof.Machine.execModify addr fn s
  | .angle => Sys2Proof.Machine.execAngle s
  | .angleDeg => Sys2Proof.Machine.execAngleDeg s
  | .magnitude => Sys2Proof.Machine.execMagnitude s
  | .diag => Sys2Proof.Machine.execDiag s
  | .clrerr => Sys2Proof.Machine.execClrerr s
  | .zposGet => Sys2Proof.Machine.execZposGet s
  | .zposSet wdata => Sys2Proof.Machine.execZposSet wdata s
  | .release => Sys2Proof.Machine.execRelease s
  | .reservedB => Sys2Proof.Machine.execReservedB s
  | .reservedC => Sys2Proof.Machine.execReservedC s
  | .reservedD => Sys2Proof.Machine.execReservedD s
  | .reservedE => Sys2Proof.Machine.execReservedE s
  | .reservedF => Sys2Proof.Machine.execReservedF s
  | .parCompute w => Sys2Proof.Machine.execParCompute w s
  | .parVerify f => Sys2Proof.Machine.execParVerify f s
  | .mkCmd a rd => Sys2Proof.Machine.execMkCmd a rd s
  | .mkData d => Sys2Proof.Machine.execMkData d s
  | .mkNop => Sys2Proof.Machine.execMkNop s
  | .respSplit f => Sys2Proof.Machine.execRespSplit f s
  | .respValidate f => Sys2Proof.Machine.execRespValidate f s
  | .fldGet v hi lo => Sys2Proof.Machine.execFldGet v hi lo s
  | .fldSet v hi lo x => Sys2Proof.Machine.execFldSet v hi lo x s
  | .diagAgc v => Sys2Proof.Machine.execDiagAgc v s
  | .diagStrong v => Sys2Proof.Machine.execDiagStrong v s
  | .diagWeak v => Sys2Proof.Machine.execDiagWeak v s
  | .diagCof v => Sys2Proof.Machine.execDiagCof v s
  | .diagOcf v => Sys2Proof.Machine.execDiagOcf v s
  | .diagStrengthOk v => Sys2Proof.Machine.execDiagStrengthOk v s
  | .diagValid v => Sys2Proof.Machine.execDiagValid v s
  | .magGet v => Sys2Proof.Machine.execMagGet v s
  | .angleGet v => Sys2Proof.Machine.execAngleGet v s
  | .zposmGet v => Sys2Proof.Machine.execZposmGet v s
  | .zposmSet v x => Sys2Proof.Machine.execZposmSet v x s
  | .zposlGet v => Sys2Proof.Machine.execZposlGet v s
  | .zposlSet v x => Sys2Proof.Machine.execZposlSet v x s
  | .zposlEn7Get v => Sys2Proof.Machine.execZposlEn7Get v s
  | .zposlEn7Set v x => Sys2Proof.Machine.execZposlEn7Set v x s
  | .zposlEn6Get v => Sys2Proof.Machine.execZposlEn6Get v s
  | .zposlEn6Set v x => Sys2Proof.Machine.execZposlEn6Set v x s
  | .errflE2 v => Sys2Proof.Machine.execErrflE2 v s
  | .errflE1 v => Sys2Proof.Machine.execErrflE1 v s
  | .errflE0 v => Sys2Proof.Machine.execErrflE0 v s
  | .zposSplit v => Sys2Proof.Machine.execZposSplit v s
  | .zposCompose m l => Sys2Proof.Machine.execZposCompose m l s
  | .degConv a => Sys2Proof.Machine.execDegConv a s

end Sys2Proof.Machine
end

