-- ==== Sys2Proof/Machine/Fetch.lean ====
section
/-! DEFINITION. What the next step runs. The block fetches from no memory (spec 20_memory R82): at IDLE it takes the
request on its port (42_frame_sequencer R183 accept), at RUN(k, ISSUE) the frame of schedule entry k (issue), or first
the function of the MODIFY half whose WRITE half entry k begins (00_scope R14, D19), at RUN(k, WAIT) the outcome of the
outstanding transaction (complete); and the host may evaluate a function at any turn (10_state R28). -/

namespace Sys2Proof.Machine

/-- What is next: words to decode and run, a failed transaction, the function of a MODIFY half to evaluate, nothing to
do, or a fault of the model; with the state once it is taken. A request stays on its port until accept takes it. -/
inductive Fetched where
  | instr (p : Presented) (s : State)
  | transportFail (e : TransportError) (s : State)
  | evaluation (g : ModFn) (s : State)
  | waiting (s : State)
  | fault (f : Fault)
  deriving DecidableEq, Repr

/-- The block's own move (R183). With no request, or no outcome yet, it has no enabled step (R196, R330, log 9). -/
def fetchBlock (s : State) : Fetched :=
  match s.phase with
  | .run k .issue =>
    match dueFn s k with
    | some g => .evaluation g s
    | none =>
      match scheduledFrame s k with
      | .ok f => .instr (.sent f.1 f.2) s
      | .error f => .fault f
  | .run _ .wait =>
    match s.answers with
    | [] => .waiting s
    | .ok b0 b1 :: rest => .instr (.received (ofWire b0 b1)) { s with answers := rest }
    | .fail e :: rest => .transportFail e { s with answers := rest }
  | .idle | .released =>
    match s.reqPort with
    | [] => .waiting s
    | r :: _ => .instr (.request r.word r.fn) s

/-- The next move, the host's evaluations in their turn (R28, R358, log 12). -/
def fetch (s : State) : Fetched :=
  match s.turns with
  | .evaluate port w side :: rest => .instr (.comb port w side) { s with turns := rest }
  | .block :: rest => fetchBlock { s with turns := rest }
  | [] => fetchBlock s

/-- A state in which a command frame for address `a` is next: a READ or WRITE of the register there, one added to
`REGMAP` where it has none (log 24). -/
def placeCommand (rd : Bool) (a : Addr) (s : State) : State :=
  match registerAt s.cfg a with
  | some r =>
    { s with turns := [], owned := true, phase := .run 0 .issue, reqOp := some (if rd then .read else .write),
             reqReg := some r }
  | none =>
    { s with turns := [], owned := true, phase := .run 0 .issue, reqOp := some (if rd then .read else .write),
             reqReg := some (.other 0), cfg := { s.cfg with regmap := (.other 0, a) :: s.cfg.regmap } }

/-- The words placed where the next step takes them from, with all that this needs (log 24). A frame the block never
sends (odd count of ones, R117) cannot be placed: the frame with its parity set right is next instead. -/
def place (p : Presented) (s : State) : State :=
  match p with
  | .request w fn => { s with turns := [], owned := true, phase := .idle, reqPort := ⟨w, fn⟩ :: s.reqPort }
  | .sent .command f => placeCommand (f.getLsbD 14) (payloadOf f) s
  | .sent .data f =>
    { s with turns := [], owned := true, phase := .run 1 .issue, reqOp := some .write,
             reqWdata := some (zext (payloadOf f)) }
  | .sent .nop _ => { s with turns := [], owned := true, phase := .run 1 .issue, reqOp := some .read }
  | .received f =>
    { s with turns := [], owned := true, phase := .run 0 .wait, reqOp := some .read,
             answers := .ok (toWire f).1 (toWire f).2 :: s.answers }
  | .comb port w side => { s with turns := .evaluate port w side :: s.turns }

end Sys2Proof.Machine
end

