-- ==== Sys2Proof/Machine/Step.lean ====
section
/-! DEFINITION. One step: fetch (Machine/Fetch.lean), decode, exec (spec 00_scope R14, 42_frame_sequencer R183). -/

namespace Sys2Proof.Machine

/-- One step of the machine. Where nothing is enabled the state stays as it is, and the run goes on (R196, R330). -/
def step (s : State) : Host.Outcome State Fault Refusal :=
  match fetch s with
  | .instr p t =>
    match decode p with
    | .ok i => exec i t
    | .error _ => .refused .undecodable
  | .transportFail e t => failTransaction e t
  | .evaluation g t => evaluateFn g t
  | .waiting t => .next t
  | .fault f => .fault f

/-- The table's word where step takes its next instruction from (log 24). -/
def State.withFetchWord (s : State) (nbits w : Nat) : State := place (presentTableWord nbits w) s

end Sys2Proof.Machine
end

