-- ==== Sys2Proof/Safety.lean ====
section
/-! DEFINITION. The terms claims are made in: runs of the machine, what a legal configuration is (spec 00_scope R8,
20_memory R69), the invariant of the reachable states (10_state R22 to R27), what the pseudo-code of each operation does
with the transport's outcomes (42_frame_sequencer R184 to R192, 44_sensor_operations), and the environment assumptions
of 20_memory R71 to R77, which are premises a claim may take and no rules of the block. -/

namespace Sys2Proof.Machine

/-- `n` steps, stopping at the first fault or refusal. -/
def run : Nat → State → Out
  | 0, s => .next s
  | n + 1, s =>
    match step s with
    | .next t => run n t
    | .fault f => .fault f
    | .refused r => .refused r

/-! ### Configurations -/

/-- A permitted `DIAG_LAYOUT`: a permutation of {11, 10, 9, 8} with `b_ocf = 10` (R8, R35, C3, D7). -/
def layoutOk (l : DiagLayout) : Bool :=
  [l.bStrong, l.bWeak, l.bCof, l.bOcf].all (fun b => decide (b ∈ [(11 : Fin 16), 10, 9, 8]))
    && decide ([l.bStrong, l.bWeak, l.bCof, l.bOcf].Nodup) && decide (l.bOcf = 10)

/-- A legal `REGMAP`: `addr` is a function, injective, and never 0 (R8, R34, R69). -/
def regmapOk (c : Config) : Bool :=
  decide ((c.regmap.map fun e => e.1).Nodup) && decide ((c.regmap.map fun e => e.2).Nodup)
    && c.regmap.all (fun e => decide (e.2 ≠ 0))

/-- A legal configuration: a legal `REGMAP` with the angle register in it (R8), and a layout R35 permits. -/
def configOk (c : Config) : Bool := regmapOk c && (addrOf c c.angleReg).isSome && layoutOk c.diag

/-! ### The invariant -/

/-- No working register holds a value (R23). -/
def workingEmpty (s : State) : Bool :=
  s.reqOp.isNone && s.reqReg.isNone && s.reqWdata.isNone && s.reqFn.isNone && s.txw.isNone && s.rxw.isNone
    && s.acc.isNone && s.fnValue.isNone && s.resStatus.isNone && s.resHasValue.isNone && s.resValue.isNone && s.resErr.isNone

/-- `REQ.reg` holds a register of `REGMAP`. -/
def operandMapped (s : State) : Bool :=
  match s.reqReg with
  | some r => (addrOf s.cfg r).isSome
  | none => false

/-- The operands the operation uses are latched and its registers are in `REGMAP` (R20, R118). -/
def operandsLatched (s : State) : Op → Bool
  | .read => operandMapped s
  | .write => operandMapped s && s.reqWdata.isSome
  | .modify => operandMapped s && s.reqFn.isSome
  | .zposSet => (addrOf s.cfg .zposm).isSome && (addrOf s.cfg .zposl).isSome && s.reqWdata.isSome
  | op => (neededRegisters s.cfg op).all fun r => (addrOf s.cfg r).isSome

/-- `ACC` holds a value once the first READ half of a composite operation has validated (R20). -/
def accLatched (s : State) (op : Op) (k : Nat) : Bool :=
  match op with
  | .modify | .zposGet | .zposSet => decide (k ≤ 1) || s.acc.isSome
  | _ => true

/-- The function of the MODIFY half that entry `k` stands in or has behind it (R182). -/
def halfFn (op : Op) (k : Nat) : Option ModFn :=
  match op with
  | .modify => some .reqFn
  | .zposSet => if k ≤ 6 then some .zposm else some .zposl
  | _ => none

/-- The function's value is there from its evaluation on, and is that of its function at `ACC` (R192, D19). -/
def fnLatched (s : State) (op : Op) (k : Nat) (sub : Sub) : Bool :=
  match halfFn op k, s.fnValue with
  | none, v => v.isNone
  | some _, none => decide (k % 5 ≤ 1) || (decide (k % 5 = 2) && decide (sub = .issue))
  | some g, some u => decide (modFnValue s g = .ok u)

/-- A running operation: its entry exists, its operands are there, and the result is not written yet (R20, R24). -/
def runningOk (s : State) (k : Nat) (sub : Sub) : Bool :=
  match s.reqOp with
  | none => false
  | some op =>
    decide (k < (schedule op).length) && operandsLatched s op && accLatched s op k && fnLatched s op k sub
      && s.resStatus.isNone && s.resHasValue.isNone && s.resErr.isNone
      && (decide (sub = .issue) || s.txw.isSome)

/-- At most one transaction is outstanding, exactly in WAIT, and it is the newest, carrying `TXW` (R26, R78). -/
def outstandingOk (s : State) : Bool :=
  match s.phase, s.trace with
  | .run _ .wait, t :: ts =>
    t.answer.isNone && decide (s.txw = some (ofWire t.tx0 t.tx1)) && ts.all fun u => u.answer.isSome
  | .run _ .wait, [] => false
  | _, ts => ts.all fun u => u.answer.isSome

/-- The invariant of the reachable states (R22 to R27): ownership and RELEASED agree, between operations no working
register holds a value, and a running operation has what its rules read. -/
def inv (s : State) : Bool :=
  (s.owned == !decide (s.phase = .released))
    && (match s.phase with
        | .run k sub => runningOk s k sub
        | _ => workingEmpty s)
    && outstandingOk s

/-- Every frame sent so far has an even count of ones (R105, R147). -/
def evenTrace (s : State) : Bool := s.trace.all fun t => parVerify (ofWire t.tx0 t.tx1)

/-! ### What the pseudo-code of an operation does with the transport's outcomes -/

/-- How a piece of pseudo-code ends: with a value, with a raise, or never, the transport not answering (R330). -/
inductive Ended (α : Type) where
  | value (a : α)
  | raised (e : DriverError)
  | hangs

/-- Pseudo-code: from the outcomes to come and the trace so far to its end, the outcomes left and the trace. -/
abbrev Proc (α : Type) := List Answer → List Transaction → Ended α × List Answer × List Transaction

/-- A transaction of the trace. -/
def transaction (w : Word) (a : Option Answer) : Transaction := ⟨(toWire w).1, (toWire w).2, a⟩

/-- `Xfer(w)` (R180), a failure raised at once as Communication (R194). -/
def xferP (w : Word) : Proc Word := fun ans tr =>
  match ans with
  | [] => (.hangs, [], transaction w none :: tr)
  | .fail e :: rest => (.raised (.communication e), rest, transaction w (some (.fail e)) :: tr)
  | .ok b0 b1 :: rest => (.value (ofWire b0 b1), rest, transaction w (some (.ok b0 b1)) :: tr)

/-- `x <- p ; f x`: a raise or a hang ends the whole (R124, R270). -/
def thenP {α β : Type} (p : Proc α) (f : α → Proc β) : Proc β := fun ans tr =>
  match p ans tr with
  | (.value a, ans', tr') => f a ans' tr'
  | (.raised e, ans', tr') => (.raised e, ans', tr')
  | (.hangs, ans', tr') => (.hangs, ans', tr')

/-- `return v`. -/
def returnP {α : Type} (a : α) : Proc α := fun ans tr => (.value a, ans, tr)

/-- The tests on a validated frame, in the words of R184: parity, then bit 14, then `r & 0x3FFF`. -/
def validateP (r : Word) : Proc Word := fun ans tr =>
  if popcount r % 2 = 1 then (.raised .parityError, ans, tr)
  else if r.getLsbD 14 then (.raised .sensorError, ans, tr)
  else (.value (r &&& 0x3FFF#16), ans, tr)

/-- `READ` at address `a` (R184). -/
def readP (a : Addr) : Proc Word :=
  thenP (xferP (mkCmd a true)) fun _ => thenP (xferP mkNop) validateP

/-- `WRITE` of `d` at address `a` (R188). -/
def writeP (a : Addr) (d : Word) : Proc (Option Word) :=
  thenP (xferP (mkCmd a false)) fun _ => thenP (xferP (mkData d)) fun _ =>
    thenP (xferP mkNop) fun r => thenP (validateP r) fun _ => returnP none

/-- `MODIFY` at address `a` by `f` (R192). -/
def modifyP (a : Addr) (f : Word → Word) : Proc (Option Word) := thenP (readP a) fun t => writeP a (f t)

/-- The pseudo-code of each request (R124, R184, R188, R192, R271 to R277); none for RELEASE, for what is no request,
and for a register `REGMAP` lacks. -/
def pseudoCode (c : Config) : Instr → Option (Proc (Option Word))
  | .read a => if (registerAt c a).isSome then some (thenP (readP a) fun t => returnP (some t)) else none
  | .write a d => if (registerAt c a).isSome then some (writeP a d) else none
  | .modify a f => if (registerAt c a).isSome then some (modifyP a (evalFn f)) else none
  | .angle => (addrOf c c.angleReg).map fun a => thenP (readP a) fun t => returnP (some (zext (angleGet t)))
  | .angleDeg => (addrOf c c.angleReg).map fun a => thenP (readP a) fun t => returnP (some (degConv c.angleMax t))
  | .magnitude => (addrOf c .mag).map fun a => thenP (readP a) fun t => returnP (some (zext (magGet t)))
  | .diag => (addrOf c .diaagc).map fun a => thenP (readP a) fun t => returnP (some t)
  | .clrerr => (addrOf c .errfl).map fun a =>
      thenP (readP a) fun t => returnP (if c.clrerrReturnsValue then some t else none)
  | .zposGet => (addrOf c .zposm).bind fun am => (addrOf c .zposl).map fun al =>
      thenP (readP am) fun m => thenP (readP al) fun l => returnP (some (zext (zposCompose m l)))
  | .zposSet v => (addrOf c .zposm).bind fun am => (addrOf c .zposl).map fun al =>
      thenP (modifyP am fun x => zposmSet x ((v.extractLsb' 6 8).setWidth 16)) fun _ =>
        modifyP al fun x => zposlSet x ((v.extractLsb' 0 6).setWidth 16)
  | .release | .reservedB | .reservedC | .reservedD | .reservedE | .reservedF => none
  | .cmdRd _ _ | .cmdWr _ _ | .data _ _ | .nop | .resp _ _ _ => none
  | .parCompute _ | .parVerify _ | .mkCmd _ _ | .mkData _ | .mkNop | .respSplit _ | .respValidate _ => none
  | .fldGet _ _ _ | .fldSet _ _ _ _ => none
  | .diagAgc _ | .diagStrong _ | .diagWeak _ | .diagCof _ | .diagOcf _ | .diagStrengthOk _ | .diagValid _ => none
  | .magGet _ | .angleGet _ | .zposmGet _ | .zposmSet _ _ | .zposlGet _ | .zposlSet _ _ => none
  | .zposlEn7Get _ | .zposlEn7Set _ _ | .zposlEn6Get _ | .zposlEn6Set _ _ => none
  | .errflE2 _ | .errflE1 _ | .errflE0 _ | .zposSplit _ | .zposCompose _ _ | .degConv _ => none

/-- The state an operation begun in `s` ends in (R183 finish, R316): IDLE, no working register with a value, the result
delivered, and of the rest only the outcomes used up and the trace grown. -/
def endedState (s : State) (ans : List Answer) (tr : List Transaction) (r : Result) : State :=
  { clearWorking s with phase := .idle, answers := ans, trace := tr, results := r :: s.results }

/-- The state that a request on the port of `s` leads to: its operation ended, and the request off its port. -/
def servedState (s : State) (ans : List Answer) (tr : List Transaction) (r : Result) : State :=
  { endedState s ans tr r with reqPort := s.reqPort.tail }

/-! ### Words statements use -/

/-- The number of ones among bits 0 to `n - 1` of a word, counted bit by bit. -/
def ones (n : Nat) (w : Word) : Nat := ((List.range n).filter fun i => w.getLsbD i).length

/-- An outstanding transaction answered `Ok` with frame `f`: its high byte, then its low byte (R60). -/
def answered (u : Transaction) (f : Word) : Transaction :=
  { u with answer := some (.ok (f.extractLsb' 8 8) (f.extractLsb' 0 8)) }

/-- Two transactions answered `Ok`, newest first, on top of a trace. -/
def twoAnswered (w1 : Word) (b0 b1 : Byte) (w2 : Word) (c0 c1 : Byte) (tr : List Transaction) : List Transaction :=
  transaction w2 (some (.ok c0 c1)) :: transaction w1 (some (.ok b0 b1)) :: tr

/-- What the last frame of a READ or WRITE makes of its operation (R185, R189): the two failing rows, else `v`. -/
def verdictResult (r : Word) (v : Option Word) : Result :=
  if ones 16 r % 2 = 1 then .err .parityError
  else if r.getLsbD 14 then .err .sensorError
  else .ok v

/-- The sensor operations that are one READ (R271 to R275): the register read, and what is returned of the payload. -/
def sensorRead (c : Config) : Instr → Option (Register × (Word → Option Word))
  | .angle => some (c.angleReg, fun t => some t)
  | .angleDeg => some (c.angleReg, fun t => some (BitVec.ofNat 16 (t.toNat * 360 / angleMaxNat c.angleMax)))
  | .magnitude => some (.mag, fun t => some t)
  | .diag => some (.diaagc, fun t => some t)
  | .clrerr => some (.errfl, fun t => if c.clrerrReturnsValue then some t else none)
  | .read _ | .write _ _ | .modify _ _ | .zposGet | .zposSet _ | .release => none
  | .reservedB | .reservedC | .reservedD | .reservedE | .reservedF => none
  | .cmdRd _ _ | .cmdWr _ _ | .data _ _ | .nop | .resp _ _ _ => none
  | .parCompute _ | .parVerify _ | .mkCmd _ _ | .mkData _ | .mkNop | .respSplit _ | .respValidate _ => none
  | .fldGet _ _ _ | .fldSet _ _ _ _ => none
  | .diagAgc _ | .diagStrong _ | .diagWeak _ | .diagCof _ | .diagOcf _ | .diagStrengthOk _ | .diagValid _ => none
  | .magGet _ | .angleGet _ | .zposmGet _ | .zposmSet _ _ | .zposlGet _ | .zposlSet _ _ => none
  | .zposlEn7Get _ | .zposlEn7Set _ _ | .zposlEn6Get _ | .zposlEn6Set _ _ => none
  | .errflE2 _ | .errflE1 _ | .errflE0 _ | .zposSplit _ | .zposCompose _ _ | .degConv _ => none

/-- What an operation returns of the last payload `p` it keeps, and of `m` in `ACC` (R184, R188, R192, R271 to R277). -/
def lastValue (c : Config) (op : Op) (m : Word) (p : Payload) : Option Word :=
  match op with
  | .write | .modify | .zposSet | .release => none
  | .read | .angle | .magnitude | .diag => some (p.setWidth 16)
  | .angleDeg => some (BitVec.ofNat 16 (p.toNat * 360 / angleMaxNat c.angleMax))
  | .clrerr => if c.clrerrReturnsValue then some (p.setWidth 16) else none
  | .zposGet => some (BitVec.ofNat 16 (m.toNat % 256 * 64 + p.toNat % 64))

/-- Two states that differ at most in what lies behind them: the trace, the results and values delivered, and the last
frame received, which every rule overwrites before it reads it. -/
def sameButHistory (s t : State) : Prop :=
  { s with trace := [], results := [], outs := [], rxw := none }
    = { t with trace := [], results := [], outs := [], rxw := none }

/-- The newest frame sent, by its bytes. -/
def newestSent (s : State) : Option (Byte × Byte) := s.trace.head?.map fun t => (t.tx0, t.tx1)

/-! ### Environment assumptions (R71): premises about the past, told operation by operation

What a transmitted frame is follows from its place in the operation that sent it (R114), and which answers are to be
trusted from how the operations before it ended (U1, U2). So an assumption is about a list of operations performed. -/

/-- The trace in the order of R13. -/
def State.log (s : State) : List Transaction := s.trace.reverse

/-- The frame sent. -/
def Transaction.sent (t : Transaction) : Word := ofWire t.tx0 t.tx1

/-- The frame received, none while outstanding or failed. -/
def Transaction.received (t : Transaction) : Option Word :=
  match t.answer with
  | some (.ok b0 b1) => some (ofWire b0 b1)
  | _ => none

/-- An operation performed: which, and the transactions it issued, oldest first: entry 0, 1, ... of its schedule. -/
structure Performed where
  op  : Op
  did : List Transaction
  deriving DecidableEq, Repr

/-- The operation ended with Communication: a transaction of it failed (R194). -/
def Performed.failed (p : Performed) : Bool :=
  p.did.any fun t => match t.answer with
    | some (.fail _) => true
    | _ => false

/-- The operation returned Ok: every transaction of its schedule was answered, the validated ones with good frames. -/
def Performed.returnedOk (p : Performed) : Bool :=
  decide (p.did.length = (schedule p.op).length) && ((schedule p.op).zip p.did).all fun (e, t) =>
    match t.received with
    | none => false
    | some r => decide (e.handling = .ignore) || (parVerify r && !errorFlag r)

/-- `h` is the operations performed up to `s`, oldest first, each with the transactions it issued: so the machine itself
ran them, one after another, since a state in which nothing had been sent. An operation is what happens from the step
that accepts its request to the delivery of its one result (R183, R23). Between operations the environment may bring
requests, evaluations and outcomes (R28, R71). -/
inductive History : List Performed → State → Prop
  | created (s : State) (ht : s.trace = []) : History [] s
  | brought (h : List Performed) (s : State) (port : List Request) (turns : List Turn) (answers : List Answer)
      (outs : List Output) (hs : History h s) :
      History h { s with reqPort := port, turns := turns, answers := answers, outs := outs }
  | served (h : List Performed) (s s0 t : State) (i : Instr) (op : Op) (r : Result) (n : Nat) (hs : History h s)
      (hi : s.phase = .idle) (ha : exec i s = .next s0) (hp : s0.phase = .run 0 .issue) (ho : s0.reqOp = some op)
      (hn : run n s0 = .next t) (ht : t.phase = .idle) (hr : t.results = r :: s.results) :
      History (h ++ [⟨op, t.log.drop s.log.length⟩]) t

/-- The operation that comes after `h` is not the first after Err(Communication): its answers may be trusted (U2). That
the first operation of a block may be trusted is the model's choice (DESIGN CHOICE, log 29): the spec leaves the sensor's
pipeline at creation unspecified (R50, R351, U5). -/
def settledAfter (h : List Performed) : Bool :=
  match h.getLast? with
  | some p => !p.failed
  | none => true

/-- A transaction with its place: the ordinal of its operation, its schedule entry, and whether the operation may be
trusted (U2). -/
structure Placed where
  opNo    : Nat
  entry   : Entry
  settled : Bool
  did     : Transaction
  deriving DecidableEq, Repr

/-- See `placed`; `n` operations come before, and `ok` says whether the next may be trusted. -/
def placedFrom (n : Nat) (ok : Bool) : List Performed → List Placed
  | [] => []
  | p :: ps => ((schedule p.op).zip p.did).map (fun (e, t) => ⟨n, e, ok, t⟩) ++ placedFrom (n + 1) (!p.failed) ps

/-- The transactions of a list of operations, each with its place; the first operation is trusted (log 29). -/
def placed (h : List Performed) : List Placed := placedFrom 0 true h

/-- The address a read command names (R101). -/
def Placed.readsAt (x : Placed) : Option Addr :=
  match x.entry.sends with
  | .readCmd _ => some (payloadOf x.did.sent)
  | _ => none

/-- The address a write command names (R101). -/
def Placed.writesAt (x : Placed) : Option Addr :=
  match x.entry.sends with
  | .writeCmd _ => some (payloadOf x.did.sent)
  | _ => none

/-- The frame of a validated transaction, where it passes the parity check (R163, R313: others are not looked at). -/
def Placed.checked (x : Placed) : Option Word :=
  if x.entry.handling = .ignore then none
  else match x.did.received with
    | some r => if parVerify r then some r else none
    | none => none

/-- The transaction `d` places after `x`, in the same operation. -/
def later (log : List Placed) (n d : Nat) : Option Placed :=
  match log[n]?, log[n + d]? with
  | some x, some y => if y.opNo = x.opNo then some y else none
  | _, _ => none

/-- The transaction that brings the answer to the command at `n`: one after a read command, two after a write. -/
def answerTo (log : List Placed) (n : Nat) : Option Placed :=
  match log[n]? with
  | some x =>
    match x.entry.sends with
    | .readCmd _ => later log n 1
    | .writeCmd _ => later log n 2
    | _ => none
  | none => none

/-- E-READ (R72): the frame after a read command for `a` carries the content of `a` at that time, the sensor's error
flag at that time in bit 14, and even parity. Not assumed of the first operation after Err(Communication) (U2). -/
def EnvRead (content : Nat → Addr → Payload) (flag : Nat → Bool) (h : List Performed) : Prop :=
  ∀ (n : Nat) (x y : Placed) (a : Addr) (r : Word),
    (placed h)[n]? = some x → x.settled = true → x.readsAt = some a → answerTo (placed h) n = some y →
    y.did.received = some r →
    payloadOf r = content (n + 1) a ∧ errorFlag r = flag (n + 1) ∧ parVerify r = true

/-- E-WRITE (R73): of the three transactions of a WRITE to `a`, the second brings the old content, and a third that
passes both checks means that the write was accepted. Not assumed of the first operation after Err(Communication)
(U2). -/
def EnvWrite (content : Nat → Addr → Payload) (accepted : Nat → Prop) (h : List Performed) : Prop :=
  ∀ (n : Nat) (x u y : Placed) (a : Addr),
    (placed h)[n]? = some x → x.settled = true → x.writesAt = some a → later (placed h) n 1 = some u →
    answerTo (placed h) n = some y →
    (∀ r, u.did.received = some r → payloadOf r = content (n + 1) a) ∧
    (∀ r p, y.did.received = some r → respValidate r = .good p → accepted n)

/-- E-READBACK (R74): after an accepted write of `d` to a writable `a`, with no other write to `a` since, a later
successful READ of `a` returns `d`. Assumed only where every operation from the write's to the read's returned Ok
(R47, R365, U1). -/
def EnvReadback (writable : Addr → Prop) (h : List Performed) : Prop :=
  ∀ (n m : Nat) (x u y z v : Placed) (a : Addr) (w r : Word) (q p : Payload),
    (placed h)[n]? = some x → x.settled = true → x.writesAt = some a → writable a → later (placed h) n 1 = some u →
    answerTo (placed h) n = some y → y.did.received = some w → respValidate w = .good q →
    n + 2 < m → (placed h)[m]? = some z → z.readsAt = some a → answerTo (placed h) m = some v →
    v.did.received = some r → respValidate r = .good p →
    (∀ j t, n < j → j < m → (placed h)[j]? = some t → t.writesAt ≠ some a) →
    (∀ i o, x.opNo ≤ i → i ≤ z.opNo → h[i]? = some o → o.returnedOk = true) →
    p = payloadOf u.did.sent

/-- The frame received at `p` passes both checks: the sensor's error latch was clear when it answered, never set, or reset
by the Read of `ERRFL` that this answers (R45: while it is set, the sensor sets bit 14). An answer to a Read of `ERRFL`
with bit 14 set is no such evidence, and whether the latch is then reset is open (N23, log 28). -/
def clearAt (log : List Placed) (p : Nat) : Prop :=
  ∃ v w, log[p]? = some v ∧ v.settled = true ∧ v.checked = some w ∧ errorFlag w = false

/-- No command to read `ERRFL` (at `ae`) stands at the places `k` to `m - 1`: nothing there may have reset the latch. -/
def unreadFrom (ae : Addr) (log : List Placed) (k m : Nat) : Prop :=
  ∀ j z, k ≤ j → j < m → log[j]? = some z → z.readsAt ≠ some ae

/-- From transaction `n` on the sensor's error flag is set, unless `ERRFL` is read at `k` or later (R45, R75, R364): the
sensor rejected the command at `n`; or a framing fault at `n` made it set the flag; or the flag was seen set at `n`. In
the last two a read command at `n - 1` is still under way at `n` and counts as a Read from there on (R275, log 28). -/
inductive FlagSetAt (rejected framing : Nat → Prop) (log : List Placed) (n : Nat) : Nat → Prop
  | rejection (h : rejected n) : FlagSetAt rejected framing log n n
  | framingFault (h : framing n) : FlagSetAt rejected framing log n (n - 1)
  | seen (x : Placed) (r : Word) (hx : log[n]? = some x) (hs : x.settled = true) (hr : x.checked = some r)
      (hf : errorFlag r = true) : FlagSetAt rejected framing log n (n - 1)

/-- E-ERRORFLAG (R75): the answer to a command the sensor rejected has bit 14 set; once the sensor has set its flag, seen
in an answer or not, every later answer has bit 14 set until `ERRFL` is read (R364); and bit 14 set means that a command
before was invalid or a framing fault occurred, no earlier than the newest answer that showed the latch clear, or, where
no answer did, that the latch was set at creation (U5). Demanded of validated frames that pass the parity check, outside
the first operation after Err(Communication) (U2: its answers are unconstrained). -/
def EnvErrorFlag (ae : Addr) (rejected framing : Nat → Prop) (h : List Performed) : Prop :=
  (∀ (n : Nat) (x y : Placed) (r : Word),
    (placed h)[n]? = some x → x.settled = true → answerTo (placed h) n = some y → y.checked = some r → rejected n →
    errorFlag r = true) ∧
  (∀ (n k m : Nat) (y : Placed) (r : Word),
    FlagSetAt rejected framing (placed h) n k → n < m → unreadFrom ae (placed h) k m →
    (placed h)[m]? = some y → y.settled = true → y.checked = some r → errorFlag r = true) ∧
  (∀ (n : Nat) (x : Placed) (r : Word),
    (placed h)[n]? = some x → x.settled = true → x.checked = some r → errorFlag r = true →
    (∃ j < n, (rejected j ∨ framing j) ∧ ∀ p < n, clearAt (placed h) p → p ≤ j + 1) ∨
    ∀ p < n, ¬ clearAt (placed h) p)

/-- E-PARITY (R76): every frame received has an even count of ones. -/
def EnvParity (log : List Transaction) : Prop :=
  ∀ t ∈ log, ∀ r, t.received = some r → parVerify r = true

/-- E-TRANSPORT (R77), as far as the block sees it: the transport answers the next `n` transactions. -/
def EnvTransport (n : Nat) (s : State) : Prop := n ≤ s.answers.length

end Sys2Proof.Machine
end

