-- ==== Sys2Proof/Certificates/Slice0/Obligations.lean ====
section
/-! DEFINITION. The statements for the provers, from the numbered rules of spec/. Witnesses for their hypotheses stand in
Sys2Proof/Tests/Slice0.lean. -/

open Sys2Proof Sys2Proof.Machine

/-! ### Parity codec (40_parity_codec) -/

/-- R141: PAR.COMPUTE puts on its port whether bits 14 to 0 hold an odd count of ones, and nothing else changes. -/
def Obligations.ParComputeCountsLowFifteenBits : Prop :=
  ∀ (s : State) (w : Word),
    exec (.parCompute w) s = .next { s with outs := ⟨.parCompute, .bit (decide (ones 15 w % 2 = 1))⟩ :: s.outs }

/-- R142: PAR.VERIFY puts on its port whether all 16 bits hold an even count of ones, and nothing else changes. -/
def Obligations.ParVerifyAcceptsEvenCounts : Prop :=
  ∀ (s : State) (f : Word),
    exec (.parVerify f) s = .next { s with outs := ⟨.parVerify, .bit (decide (ones 16 f % 2 = 0))⟩ :: s.outs }

/-- R144, R145, R146: the frames MKCMD, MKDATA and MKNOP give, bit by bit, with bit 15 the parity of the bits below. -/
def Obligations.FrameConstructorsBitByBit : Prop :=
  (∀ (s : State) (a : Addr) (rd : Bool), ∃ f : Word,
    exec (.mkCmd a rd) s = .next { s with outs := ⟨.mkCmd, .word f⟩ :: s.outs } ∧
    (∀ i, i < 14 → f.getLsbD i = a.getLsbD i) ∧ f.getLsbD 14 = rd ∧ f.getLsbD 15 = decide (ones 15 f % 2 = 1)) ∧
  (∀ (s : State) (d : Word), ∃ f : Word,
    exec (.mkData d) s = .next { s with outs := ⟨.mkData, .word f⟩ :: s.outs } ∧
    (∀ i, i < 14 → f.getLsbD i = d.getLsbD i) ∧ f.getLsbD 14 = false ∧
    f.getLsbD 15 = decide (ones 15 f % 2 = 1)) ∧
  (∀ s : State, exec .mkNop s = .next { s with outs := ⟨.mkNop, .word 0x0000#16⟩ :: s.outs })

/-- R143: a frame passes exactly when bit 15 is PAR.COMPUTE of it; one flipped bit is always seen, two never. -/
def Obligations.ParityLawJoinsComputeAndVerify : Prop :=
  (∀ f : Word, parVerify f = true ↔ f.getLsbD 15 = parCompute f) ∧
  (∀ (f : Word) (i : Nat), i < 16 → parVerify f = true → parVerify (f ^^^ (1#16 <<< i)) = false) ∧
  (∀ (f : Word) (i j : Nat), i < 16 → j < 16 → i ≠ j → parVerify f = true →
    parVerify (f ^^^ (1#16 <<< i) ^^^ (1#16 <<< j)) = true)

/-- R105, R147: if every frame sent so far has an even count of ones, so has every frame sent after one more step. -/
def Obligations.EveryStepSendsEvenFrames : Prop :=
  ∀ s t : State, evenTrace s = true → step s = .next t → evenTrace t = true

/-! ### Response validator (41_response_validator) -/

/-- R160: RESP.SPLIT gives bit 15, bit 14 and bits 13 to 0. -/
def Obligations.RespSplitTakesTheThreeFields : Prop :=
  ∀ (s : State) (f : Word), ∃ d : Payload,
    exec (.respSplit f) s =
      .next { s with outs := ⟨.respSplit, .split (f.getLsbD 15) (f.getLsbD 14) d⟩ :: s.outs } ∧
    ∀ i, i < 14 → d.getLsbD i = f.getLsbD i

/-- R161: RESP.VALIDATE tests parity first, then the error flag, and else gives the payload. -/
def Obligations.RespValidateTestsParityFirst : Prop :=
  ∀ (s : State) (f : Word), ∃ d : Payload, (∀ i, i < 14 → d.getLsbD i = f.getLsbD i) ∧
    exec (.respValidate f) s = .next { s with outs := ⟨.respValidate, .verdict
      (if ones 16 f % 2 = 1 then .parityBad else if f.getLsbD 14 then .sensorFlag else .good d)⟩ :: s.outs }

/-- R162: one frame gives `Good(d)`, it is MKDATA(d); one frame with payload `d` gives SensorFlag, it is that frame with
bits 15 and 14 flipped. -/
def Obligations.EachVerdictHasItsFrame : Prop :=
  ∀ (f : Word) (d : Payload),
    (respValidate f = .good d ↔ f = mkData (d.setWidth 16)) ∧
    ((respValidate f = .sensorFlag ∧ payloadOf f = d) ↔ f = mkData (d.setWidth 16) ^^^ 0xC000#16)

/-! ### Bitfield decoder (43_bitfield_decoder) -/

/-- R220: FLD.GET gives bits `hi` to `lo`, right-aligned. -/
def Obligations.FldGetReadsItsField : Prop :=
  ∀ (s : State) (v : Word) (hi lo : Fin 16), lo ≤ hi → ∃ x : Word,
    exec (.fldGet v hi lo) s = .next { s with outs := ⟨.fldGet, .word x⟩ :: s.outs } ∧
    ∀ i, x.getLsbD i = (decide (i ≤ hi.val - lo.val) && v.getLsbD (lo.val + i))

/-- R221: FLD.SET replaces bits `hi` to `lo` by the low bits of `x` and keeps every other bit. -/
def Obligations.FldSetReplacesItsField : Prop :=
  ∀ (s : State) (v : Word) (hi lo : Fin 16) (x : Word), lo ≤ hi → ∃ y : Word,
    exec (.fldSet v hi lo x) s = .next { s with outs := ⟨.fldSet, .word y⟩ :: s.outs } ∧
    ∀ i, i < 16 → y.getLsbD i =
      if lo.val ≤ i ∧ i ≤ hi.val then x.getLsbD (i - lo.val) else v.getLsbD i

/-- R220 gives a position `0 <= lo <= hi <= 15`; with `hi < lo` FLD.GET and FLD.SET have no meaning and are refused. -/
def Obligations.IllegalFieldPositionRefused : Prop :=
  ∀ (s : State) (v : Word) (hi lo : Fin 16) (x : Word), hi < lo →
    exec (.fldGet v hi lo) s = .refused .fieldPosition ∧ exec (.fldSet v hi lo x) s = .refused .fieldPosition

/-- R222, laws (a) to (d). -/
def Obligations.FieldLaws : Prop :=
  ∀ (v x y : Word) (hi lo hi2 lo2 : Fin 16), lo ≤ hi → lo2 ≤ hi2 →
    fldGet (fldSet v hi lo x) hi lo = x &&& mask (fieldWidth hi lo) ∧
    fldSet v hi lo (fldGet v hi lo) = v ∧
    fldSet (fldSet v hi lo x) hi lo y = fldSet v hi lo y ∧
    (hi < lo2 ∨ hi2 < lo →
      fldGet (fldSet v hi lo x) hi2 lo2 = fldGet v hi2 lo2 ∧
      fldSet (fldSet v hi lo x) hi2 lo2 y = fldSet (fldSet v hi2 lo2 y) hi lo x)

/-- R223 to R227: the AGC value is the low 8 bits, and each flag is the bit its layout names. -/
def Obligations.DiagnosticsAccessors : Prop :=
  ∀ (s : State) (v : Word),
    (∃ a : Byte, exec (.diagAgc v) s = .next { s with outs := ⟨.diagAgc, .byte a⟩ :: s.outs } ∧
      ∀ i, i < 8 → a.getLsbD i = v.getLsbD i) ∧
    exec (.diagStrong v) s =
      .next { s with outs := ⟨.diagStrong, .bit (v.getLsbD s.cfg.diag.bStrong.val)⟩ :: s.outs } ∧
    exec (.diagWeak v) s = .next { s with outs := ⟨.diagWeak, .bit (v.getLsbD s.cfg.diag.bWeak.val)⟩ :: s.outs } ∧
    exec (.diagCof v) s = .next { s with outs := ⟨.diagCof, .bit (v.getLsbD s.cfg.diag.bCof.val)⟩ :: s.outs } ∧
    exec (.diagOcf v) s = .next { s with outs := ⟨.diagOcf, .bit (v.getLsbD s.cfg.diag.bOcf.val)⟩ :: s.outs }

/-- R228, R229: strength is ok when neither flag is set; valid when also no CORDIC overflow; and under any layout R35 permits
valid means bits 11, 9 and 8 are all clear. -/
def Obligations.DiagnosticsValidity : Prop :=
  ∀ (s : State) (v : Word),
    exec (.diagStrengthOk v) s = .next { s with outs := ⟨.diagStrengthOk,
      .bit (decide (v.getLsbD s.cfg.diag.bStrong.val = false ∧ v.getLsbD s.cfg.diag.bWeak.val = false))⟩ :: s.outs } ∧
    exec (.diagValid v) s = .next { s with outs := ⟨.diagValid,
      .bit (decide (v.getLsbD s.cfg.diag.bCof.val = false ∧ v.getLsbD s.cfg.diag.bStrong.val = false ∧
        v.getLsbD s.cfg.diag.bWeak.val = false))⟩ :: s.outs } ∧
    (layoutOk s.cfg.diag = true →
      (diagValid s.cfg.diag v = true ↔ v.getLsbD 11 = false ∧ v.getLsbD 9 = false ∧ v.getLsbD 8 = false))

/-- R230, R231: MAG.GET and ANGLE.GET give bits 13 to 0. -/
def Obligations.MagnitudeAndAngleFields : Prop :=
  ∀ (s : State) (v : Word), ∃ d : Payload, (∀ i, i < 14 → d.getLsbD i = v.getLsbD i) ∧
    exec (.magGet v) s = .next { s with outs := ⟨.magGet, .payload d⟩ :: s.outs } ∧
    exec (.angleGet v) s = .next { s with outs := ⟨.angleGet, .payload d⟩ :: s.outs }

/-- R232 to R239: the fields of the zero-position registers, and what each setter keeps and replaces. -/
def Obligations.ZeroPositionRegisterFields : Prop :=
  ∀ (s : State) (v x : Word) (b : Bool),
    (∃ m : Byte, (∀ i, i < 8 → m.getLsbD i = v.getLsbD i) ∧
      exec (.zposmGet v) s = .next { s with outs := ⟨.zposmGet, .byte m⟩ :: s.outs }) ∧
    exec (.zposmSet v x) s =
      .next { s with outs := ⟨.zposmSet, .word ((v &&& 0xFF00#16) ||| (x &&& 0x00FF#16))⟩ :: s.outs } ∧
    (∃ l : BitVec 6, (∀ i, i < 6 → l.getLsbD i = v.getLsbD i) ∧
      exec (.zposlGet v) s = .next { s with outs := ⟨.zposlGet, .six l⟩ :: s.outs }) ∧
    exec (.zposlSet v x) s =
      .next { s with outs := ⟨.zposlSet, .word ((v &&& 0xFFC0#16) ||| (x &&& 0x003F#16))⟩ :: s.outs } ∧
    exec (.zposlEn7Get v) s = .next { s with outs := ⟨.zposlEn7Get, .bit (v.getLsbD 7)⟩ :: s.outs } ∧
    exec (.zposlEn7Set v b) s = .next { s with outs :=
      ⟨.zposlEn7Set, .word ((v &&& 0xFF7F#16) ||| if b then 0x0080#16 else 0)⟩ :: s.outs } ∧
    exec (.zposlEn6Get v) s = .next { s with outs := ⟨.zposlEn6Get, .bit (v.getLsbD 6)⟩ :: s.outs } ∧
    exec (.zposlEn6Set v b) s = .next { s with outs :=
      ⟨.zposlEn6Set, .word ((v &&& 0xFFBF#16) ||| if b then 0x0040#16 else 0)⟩ :: s.outs }

/-- R240, R241, R242: the three bits of the error-flag register. -/
def Obligations.ErrorFlagBits : Prop :=
  ∀ (s : State) (v : Word),
    exec (.errflE2 v) s = .next { s with outs := ⟨.errflE2, .bit (v.getLsbD 2)⟩ :: s.outs } ∧
    exec (.errflE1 v) s = .next { s with outs := ⟨.errflE1, .bit (v.getLsbD 1)⟩ :: s.outs } ∧
    exec (.errflE0 v) s = .next { s with outs := ⟨.errflE0, .bit (v.getLsbD 0)⟩ :: s.outs }

/-- R243, R244: the halves of a zero position, their composition, and the round trips between them. -/
def Obligations.ZeroPositionSplitAndCompose : Prop :=
  (∀ (s : State) (v : Word), ∃ (m : Byte) (l : BitVec 6),
    exec (.zposSplit v) s = .next { s with outs := ⟨.zposSplit, .halves m l⟩ :: s.outs } ∧
    m.toNat = v.toNat / 64 % 256 ∧ l.toNat = v.toNat % 64) ∧
  (∀ (s : State) (m l : Word), ∃ x : Word,
    exec (.zposCompose m l) s = .next { s with outs := ⟨.zposCompose, .word x⟩ :: s.outs } ∧
    x.toNat = m.toNat % 256 * 64 + l.toNat % 64 ∧
    (zposSplit x).1.setWidth 16 = m &&& 0xFF#16 ∧ (zposSplit x).2.setWidth 16 = l &&& 0x3F#16) ∧
  (∀ m l v : Word,
    (zposCompose ((zposSplit v).1.setWidth 16) ((zposSplit v).2.setWidth 16)).setWidth 16 = v &&& 0x3FFF#16 ∧
    (zposCompose (zposmSet m ((zposSplit v).1.setWidth 16))
      (zposlSet l ((zposSplit v).2.setWidth 16))).setWidth 16 = v &&& 0x3FFF#16)

/-- R245: DEG.CONV is `floor(a * 360 / ANGLE_MAX)` for every 16-bit `a`; on a 14-bit `a` at most 359 with 0x4000 and at
most 360 with 0x3FFF, 360 at one input only; and the two divisors differ by at most 1 there. -/
def Obligations.DegreeConversionIsFloor : Prop :=
  (∀ (s : State) (a : Word), ∃ x : Word,
    exec (.degConv a) s = .next { s with outs := ⟨.degConv, .word x⟩ :: s.outs } ∧
    x.toNat = a.toNat * 360 / (match s.cfg.angleMax with | .x3FFF => 16383 | .x4000 => 16384)) ∧
  (∀ a : Word, a.toNat < 16384 →
    (degConv .x4000 a).toNat ≤ 359 ∧ (degConv .x3FFF a).toNat ≤ 360 ∧
    ((degConv .x3FFF a).toNat = 360 ↔ a = 0x3FFF#16) ∧
    (degConv .x4000 a).toNat ≤ (degConv .x3FFF a).toNat ∧
    (degConv .x3FFF a).toNat ≤ (degConv .x4000 a).toNat + 1)

/-- R28, R30: whatever is evaluated on a combinational port puts one value on that port and changes nothing else. -/
def Obligations.CombinationalFunctionsChangeNothing : Prop :=
  ∀ (i : Instr) (s t : State) (port : CombPort) (w : Word) (side : List Word),
    encode i = .comb port w side → exec i s = .next t → ∃ v, t = { s with outs := ⟨port, v⟩ :: s.outs }

/-! ### Requests: accept and refuse (30_encoding R118, 42_frame_sequencer R183) -/

/-- R183 accept, for READ, WRITE and MODIFY: at IDLE, with the transport owned and a register at the address, the
request is latched and leaves its port, and the schedule begins; nothing else changes. The fields the operation ignores
are those on the port (log 13). -/
def Obligations.ReadWriteModifyAccepted : Prop :=
  ∀ (s : State) (a : Addr) (d : Word) (f : Fn) (r : Register),
    s.phase = .idle → s.owned = true → registerAt s.cfg a = some r →
    exec (.read a) s = .next { s with
      phase := .run 0 .issue, reqPort := s.reqPort.tail, reqOp := some .read, reqReg := some r,
      reqWdata := portWdata s, reqFn := portFn s } ∧
    exec (.write a d) s = .next { s with
      phase := .run 0 .issue, reqPort := s.reqPort.tail, reqOp := some .write, reqReg := some r,
      reqWdata := some d, reqFn := portFn s } ∧
    exec (.modify a f) s = .next { s with
      phase := .run 0 .issue, reqPort := s.reqPort.tail, reqOp := some .modify, reqReg := some r,
      reqWdata := portWdata s, reqFn := some f }

/-- R183 accept, for the seven sensor operations with a schedule; nothing else changes, and the fields an operation
ignores are those on the port (log 13). And whatever request a step accepts is latched whole, field by field as it
stands on the port (R82, R183, D15). -/
def Obligations.SensorOperationsAccepted : Prop :=
  (∀ (s : State) (op : Op) (i : Instr), s.phase = .idle → s.owned = true →
    (op, i) ∈ [(Op.angle, Instr.angle), (.angleDeg, .angleDeg), (.magnitude, .magnitude), (.diag, .diag),
      (.clrerr, .clrerr), (.zposGet, .zposGet)] →
    (op = .angle ∨ op = .angleDeg → (addrOf s.cfg s.cfg.angleReg).isSome = true) →
    (op = .magnitude → (addrOf s.cfg .mag).isSome = true) →
    (op = .diag → (addrOf s.cfg .diaagc).isSome = true) →
    (op = .clrerr → (addrOf s.cfg .errfl).isSome = true) →
    (op = .zposGet → (addrOf s.cfg .zposm).isSome = true ∧ (addrOf s.cfg .zposl).isSome = true) →
    exec i s = .next { s with
      phase := .run 0 .issue, reqPort := s.reqPort.tail, reqOp := some op, reqReg := portReg s,
      reqWdata := portWdata s, reqFn := portFn s }) ∧
  (∀ (s : State) (d : Word), s.phase = .idle → s.owned = true →
    (addrOf s.cfg .zposm).isSome = true → (addrOf s.cfg .zposl).isSome = true →
    exec (.zposSet d) s = .next { s with
      phase := .run 0 .issue, reqPort := s.reqPort.tail, reqOp := some .zposSet, reqReg := portReg s,
      reqWdata := some d, reqFn := portFn s }) ∧
  (∀ (s t : State) (r : Request) (rest : List Request), s.turns = [] → s.phase = .idle → s.reqPort = r :: rest →
    step s = .next t → t.phase = .run 0 .issue →
    ∃ op, opCode op = r.word.extractLsb' 30 4 ∧ t = { s with
      phase := .run 0 .issue, reqPort := rest, reqOp := some op,
      reqReg := registerAt s.cfg (r.word.extractLsb' 16 14), reqWdata := some (r.word.extractLsb' 0 16),
      reqFn := some r.fn })

/-- R278: RELEASE is accepted only at IDLE with the transport owned; it gives the transport up and delivers Ok with no
value, and no transaction is issued; after it every request is refused. -/
def Obligations.ReleaseGivesTheTransportBack : Prop :=
  (∀ s : State, s.phase = .idle → s.owned = true → workingEmpty s = true →
    exec .release s = .next { s with
      phase := .released, owned := false, reqPort := s.reqPort.tail, results := .ok none :: s.results }) ∧
  (∀ s t : State, exec .release s = .next t → t.phase = .released → s.phase = .idle ∧ s.owned = true) ∧
  (∀ (s t : State) (i : Instr) (w : BitVec 34) (fn : Fn), exec .release s = .next t → t.phase = .released →
    encode i = .request w fn → ∃ r, exec i t = .refused r)

/-- R118: (a) a reserved `op`, (b) an address outside `REGMAP`, (c) a request without ownership and (d) ZPOS.GET and
ZPOS.SET without `HAS_ZPOS` are refused; and (last sentence) a request presented while an operation runs is not: no step
takes it from its port, and in every state of the invariant the block's own step goes on with the operation. -/
def Obligations.RefusedRequests : Prop :=
  (∀ s : State, (∀ k sub, s.phase ≠ .run k sub) →
    exec .reservedB s = .refused (.reservedOp 0xB#4) ∧ exec .reservedC s = .refused (.reservedOp 0xC#4) ∧
    exec .reservedD s = .refused (.reservedOp 0xD#4) ∧ exec .reservedE s = .refused (.reservedOp 0xE#4) ∧
    exec .reservedF s = .refused (.reservedOp 0xF#4)) ∧
  (∀ (s : State) (a : Addr) (d : Word) (f : Fn), s.phase = .idle → s.owned = true →
    (∀ r, addrOf s.cfg r ≠ some a) → regmapOk s.cfg = true →
    exec (.read a) s = .refused (.noSuchRegister a) ∧ exec (.write a d) s = .refused (.noSuchRegister a) ∧
    exec (.modify a f) s = .refused (.noSuchRegister a)) ∧
  (∀ (s : State) (i : Instr) (w : BitVec 34) (fn : Fn), encode i = .request w fn → requestOp w ≤ 0xA →
    s.owned = false → exec i s = .refused .released) ∧
  (∀ (s : State) (d : Word), s.phase = .idle → s.owned = true → s.cfg.hasZpos = false →
    exec .zposGet s = .refused (.lacksRegister .zposm) ∧
    exec (.zposSet d) s = .refused (.lacksRegister .zposm)) ∧
  (∀ (s t : State) (k : Nat) (sub : Sub), s.phase = .run k sub → step s = .next t → t.reqPort = s.reqPort) ∧
  (∀ (s : State) (k : Nat) (sub : Sub), s.phase = .run k sub → s.turns = [] → inv s = true →
    ∃ t, step s = .next t ∧ t.reqPort = s.reqPort)

/-- R118 (d) for the sensor operations that its example does not name (log 23): each is refused where `REGMAP` lacks
the register it needs. -/
def Obligations.MissingRegisterRefused : Prop :=
  ∀ s : State, s.phase = .idle → s.owned = true →
    (addrOf s.cfg s.cfg.angleReg = none →
      exec .angle s = .refused (.lacksRegister s.cfg.angleReg) ∧
      exec .angleDeg s = .refused (.lacksRegister s.cfg.angleReg)) ∧
    (addrOf s.cfg .mag = none → exec .magnitude s = .refused (.lacksRegister .mag)) ∧
    (addrOf s.cfg .diaagc = none → exec .diag s = .refused (.lacksRegister .diaagc)) ∧
    (addrOf s.cfg .errfl = none → exec .clrerr s = .refused (.lacksRegister .errfl))

/-- The model's choice (log 17) for a request handed to `exec` out of its turn, which no step does: a reserved `op` is
refused in every state (R118 (a)), and any other request stays where it is while an operation runs. -/
def Obligations.RequestsOutOfTurn : Prop :=
  (∀ s : State, exec .reservedB s = .refused (.reservedOp 0xB#4) ∧ exec .reservedC s = .refused (.reservedOp 0xC#4) ∧
    exec .reservedD s = .refused (.reservedOp 0xD#4) ∧ exec .reservedE s = .refused (.reservedOp 0xE#4) ∧
    exec .reservedF s = .refused (.reservedOp 0xF#4)) ∧
  (∀ (s : State) (i : Instr) (w : BitVec 34) (fn : Fn) (k : Nat) (sub : Sub), encode i = .request w fn →
    requestOp w ≤ 0xA → s.owned = true → s.phase = .run k sub → exec i s = .next s)

/-! ### The sequencer (42_frame_sequencer) -/

/-- R182: the frame each entry of each schedule sends, the handling of the frame received, and what ZPOS.GET makes of its
two payloads at its last entry. Each clause has the operands and addresses its entries read; the data frame of a MODIFY
half is that of its function at ACC in every state of the invariant in which it is sent. -/
def Obligations.ScheduleTable : Prop :=
  (∀ (s : State) (r : Register) (a : Addr), s.reqReg = some r → addrOf s.cfg r = some a →
    (s.reqOp = some .read → scheduledFrame s 0 = .ok (.command, mkCmd a true)) ∧
    (s.reqOp = some .write → scheduledFrame s 0 = .ok (.command, mkCmd a false)) ∧
    (s.reqOp = some .modify → scheduledFrame s 0 = .ok (.command, mkCmd a true) ∧
      scheduledFrame s 2 = .ok (.command, mkCmd a false))) ∧
  (∀ (s : State) (op : Op) (g : Register) (a : Addr), s.reqOp = some op → addrOf s.cfg g = some a →
    (op, g) ∈ [(Op.angle, s.cfg.angleReg), (.angleDeg, s.cfg.angleReg), (.magnitude, .mag), (.diag, .diaagc),
      (.clrerr, .errfl)] → scheduledFrame s 0 = .ok (.command, mkCmd a true)) ∧
  (∀ (s : State) (a : Addr), addrOf s.cfg .zposm = some a →
    (s.reqOp = some .zposGet → scheduledFrame s 0 = .ok (.command, mkCmd a true)) ∧
    (s.reqOp = some .zposSet → scheduledFrame s 0 = .ok (.command, mkCmd a true) ∧
      scheduledFrame s 2 = .ok (.command, mkCmd a false))) ∧
  (∀ (s : State) (a : Addr), addrOf s.cfg .zposl = some a →
    (s.reqOp = some .zposGet → scheduledFrame s 2 = .ok (.command, mkCmd a true)) ∧
    (s.reqOp = some .zposSet → scheduledFrame s 5 = .ok (.command, mkCmd a true) ∧
      scheduledFrame s 7 = .ok (.command, mkCmd a false))) ∧
  (∀ (s : State) (op : Op) (k : Nat), s.reqOp = some op →
    (op, k) ∈ [(Op.read, 1), (.write, 2), (.modify, 1), (.modify, 4), (.angle, 1), (.angleDeg, 1), (.magnitude, 1),
      (.diag, 1), (.clrerr, 1), (.zposGet, 1), (.zposGet, 3), (.zposSet, 1), (.zposSet, 4), (.zposSet, 6),
      (.zposSet, 9)] → scheduledFrame s k = .ok (.nop, 0x0000#16)) ∧
  (∀ (s : State) (d : Word), s.reqOp = some .write → s.reqWdata = some d →
    scheduledFrame s 1 = .ok (.data, mkData d)) ∧
  (∀ (s : State) (f : Fn) (x : Word) (sub : Sub), s.reqOp = some .modify → s.phase = .run 3 sub → inv s = true →
    s.reqFn = some f → s.acc = some x → scheduledFrame s 3 = .ok (.data, mkData (evalFn f x))) ∧
  (∀ (s : State) (v x : Word) (sub : Sub), s.reqOp = some .zposSet → inv s = true →
    s.reqWdata = some v → s.acc = some x →
    (s.phase = .run 3 sub →
      scheduledFrame s 3 = .ok (.data, mkData (zposmSet x ((v.extractLsb' 6 8).setWidth 16)))) ∧
    (s.phase = .run 8 sub →
      scheduledFrame s 8 = .ok (.data, mkData (zposlSet x ((v.extractLsb' 0 6).setWidth 16))))) ∧
  (∀ (s : State) (m l : Word), s.acc = some m → s.resValue = some l →
    finishValue .zposGet s = .ok (some ((zposCompose m l).setWidth 16))) ∧
  (∀ op, (schedule op).map (fun e => e.handling) = match op with
    | .write => [.ignore, .ignore, .discard]
    | .modify => [.ignore, .keepAcc, .ignore, .ignore, .discard]
    | .zposGet => [.ignore, .keepAcc, .ignore, .keepValue]
    | .zposSet => [.ignore, .keepAcc, .ignore, .ignore, .discard, .ignore, .keepAcc, .ignore, .ignore, .discard]
    | .release => []
    | _ => [.ignore, .keepValue])

/-- R183 issue and R60: each of the four sent frames, where the schedule sends it, goes to TXW and out as its two bytes,
high byte first; the phase becomes RUN(k, WAIT); nothing else changes. A write command goes out once no function is due
before it (D19, log 16). -/
def Obligations.ScheduledFrameIsIssued : Prop :=
  ∀ (s : State) (k : Nat) (p : Bool) (a : Addr) (d : Payload), s.phase = .run k .issue →
    (scheduledFrame s k = .ok (.command, packFrame p true a) →
      exec (.cmdRd p a) s = .next { s with
        phase := .run k .wait, txw := some (packFrame p true a),
        trace := ⟨(packFrame p true a).extractLsb' 8 8, (packFrame p true a).extractLsb' 0 8, none⟩ :: s.trace }) ∧
    (scheduledFrame s k = .ok (.command, packFrame p false a) → dueFn s k = none →
      exec (.cmdWr p a) s = .next { s with
        phase := .run k .wait, txw := some (packFrame p false a),
        trace := ⟨(packFrame p false a).extractLsb' 8 8, (packFrame p false a).extractLsb' 0 8, none⟩ :: s.trace }) ∧
    (scheduledFrame s k = .ok (.data, packFrame p false d) →
      exec (.data p d) s = .next { s with
        phase := .run k .wait, txw := some (packFrame p false d),
        trace := ⟨(packFrame p false d).extractLsb' 8 8, (packFrame p false d).extractLsb' 0 8, none⟩ :: s.trace }) ∧
    (scheduledFrame s k = .ok (.nop, 0x0000#16) →
      exec .nop s = .next { s with
        phase := .run k .wait, txw := some 0x0000#16,
        trace := ⟨0x00#8, 0x00#8, none⟩ :: s.trace })

/-- The model's choice (log 15), from R117: a frame the schedule does not send now is refused, so is the write command of
a MODIFY half before its function is evaluated, and so is a received frame when no transaction is outstanding. -/
def Obligations.UnscheduledFrameRefused : Prop :=
  (∀ (s : State) (i : Instr) (pos : FramePos) (w : Word), encode i = .sent pos w →
    (∀ k, s.phase ≠ .run k .issue) → exec i s = .refused (.notScheduled w)) ∧
  (∀ (s : State) (i : Instr) (pos : FramePos) (w : Word) (k : Nat) (f : FramePos × Word), encode i = .sent pos w →
    s.phase = .run k .issue → scheduledFrame s k = .ok f → f ≠ (pos, w) →
    exec i s = .refused (.notScheduled w)) ∧
  (∀ (s : State) (i : Instr) (pos : FramePos) (w : Word) (k : Nat) (g : ModFn), encode i = .sent pos w →
    s.phase = .run k .issue → dueFn s k = some g → exec i s = .refused (.notScheduled w)) ∧
  (∀ (s : State) (p e : Bool) (d : Payload), (∀ k, s.phase ≠ .run k .wait) →
    exec (.resp p e d) s = .refused .noTransaction)

/-- R163: whatever 16 bits arrive in an ignored transaction, the operation goes on to its next entry; the frame is in RXW
and in the trace, and nothing else changes. -/
def Obligations.IgnoredFrameChangesNothing : Prop :=
  ∀ (s : State) (k : Nat) (e : Entry) (p ef : Bool) (d : Payload) (u : Transaction) (us : List Transaction),
    s.phase = .run k .wait → currentEntry s k = .ok e → e.handling = .ignore → s.trace = u :: us →
    exec (.resp p ef d) s = .next { s with
      phase := .run (k + 1) .issue, rxw := some (packFrame p ef d),
      trace := answered u (packFrame p ef d) :: us }

/-- R313, R314, R316, R317: a validated frame with an odd count of ones raises ParityError, one with an even count and
bit 14 set raises SensorError; the result is delivered, every working register is without a value, the phase is IDLE,
the outcome is in the trace, and nothing else changes. -/
def Obligations.BadValidatedFrameRaises : Prop :=
  ∀ (s : State) (k : Nat) (e : Entry) (p ef : Bool) (d : Payload) (u : Transaction) (us : List Transaction),
    s.phase = .run k .wait → currentEntry s k = .ok e → e.handling ≠ .ignore → s.trace = u :: us →
    ones 16 (packFrame p ef d) % 2 = 1 ∨ ef = true →
    exec (.resp p ef d) s = .next (endedState s s.answers
      (answered u (packFrame p ef d) :: us)
      (.err (if ones 16 (packFrame p ef d) % 2 = 1 then .parityError else .sensorError)))

/-- R181, R183: a validated frame that passes. In an entry that is not the last it is kept in ACC, where the value of a
MODIFY half's function goes with the old payload (that value stands in a field of the model's own: DESIGN CHOICE, log 16),
or dropped, and the operation goes on. In the last entry it is kept in RES.value or dropped, and the operation finishes:
the result is delivered, every working register is without a value and the phase is IDLE. Nothing else changes. -/
def Obligations.GoodValidatedFrameIsKept : Prop :=
  (∀ (s : State) (k : Nat) (op : Op) (e : Entry) (p : Bool) (d : Payload) (u : Transaction) (us : List Transaction),
    s.phase = .run k .wait → s.reqOp = some op → (schedule op)[k]? = some e → e.handling ≠ .ignore →
    k + 1 < (schedule op).length → ones 16 (packFrame p false d) % 2 = 0 → s.trace = u :: us →
    exec (.resp p false d) s = .next { s with
      phase := .run (k + 1) .issue, rxw := some (packFrame p false d),
      acc := if e.handling = .keepAcc then some (d.setWidth 16) else s.acc,
      fnValue := if e.handling = .keepAcc then none else s.fnValue,
      trace := answered u (packFrame p false d) :: us }) ∧
  (∀ (s : State) (k : Nat) (op : Op) (p : Bool) (d : Payload) (m : Word) (u : Transaction) (us : List Transaction),
    s.phase = .run k .wait → s.reqOp = some op → k + 1 = (schedule op).length →
    (op = .zposGet → s.acc = some m) → ones 16 (packFrame p false d) % 2 = 0 → s.trace = u :: us →
    exec (.resp p false d) s = .next (endedState s s.answers
      (answered u (packFrame p false d) :: us) (.ok (lastValue s.cfg op m d))))

/-- R194, R316: a failed transaction, whatever its entry's handling, ends the operation with that error, unchanged. -/
def Obligations.TransportFailureAborts : Prop :=
  ∀ (s : State) (k : Nat) (e : TransportError) (rest : List Answer) (u : Transaction) (us : List Transaction),
    s.turns = [] → s.phase = .run k .wait → s.answers = .fail e :: rest → s.trace = u :: us →
    step s = .next (endedState s rest ({ u with answer := some (.fail e) } :: us) (.err (.communication e)))

/-- R196, R330: with no outcome to come the block stays where it is, for any number of steps. -/
def Obligations.UnansweredTransactionWaitsForEver : Prop :=
  ∀ (s : State) (k n : Nat), s.turns = [] → s.phase = .run k .wait → s.answers = [] → run n s = .next s

/-! ### Whole operations -/

/-- R184, R185: READ is accepted, and its run ends as the table of R185 says, with the transactions it says. -/
def Obligations.ReadOutcomes : Prop :=
  ∀ (s : State) (a : Addr) (r : Register) (b0 b1 c0 c1 : Byte) (e : TransportError) (rest : List Answer),
    s.phase = .idle → s.owned = true → s.turns = [] → regmapOk s.cfg = true → registerAt s.cfg a = some r →
    ∃ s0, exec (.read a) s = .next s0 ∧
      (s.answers = .fail e :: rest →
        run 2 s0 = .next (servedState s rest (transaction (mkCmd a true) (some (.fail e)) :: s.trace)
          (.err (.communication e)))) ∧
      (s.answers = .ok b0 b1 :: .fail e :: rest →
        run 4 s0 = .next (servedState s rest
          (transaction 0x0000#16 (some (.fail e)) :: transaction (mkCmd a true) (some (.ok b0 b1)) :: s.trace)
          (.err (.communication e)))) ∧
      (s.answers = .ok b0 b1 :: .ok c0 c1 :: rest →
        run 4 s0 = .next (servedState s rest (twoAnswered (mkCmd a true) b0 b1 0x0000#16 c0 c1 s.trace)
          (verdictResult (c0 ++ c1) (some ((c0 ++ c1) &&& 0x3FFF#16)))))

/-- R188, R189: WRITE is accepted, and its run ends as the table of R189 says, with the transactions it says. -/
def Obligations.WriteOutcomes : Prop :=
  ∀ (s : State) (a : Addr) (v : Word) (r : Register) (b0 b1 c0 c1 d0 d1 : Byte) (e : TransportError)
    (rest : List Answer),
    s.phase = .idle → s.owned = true → s.turns = [] → regmapOk s.cfg = true → registerAt s.cfg a = some r →
    ∃ s0, exec (.write a v) s = .next s0 ∧
      (s.answers = .fail e :: rest →
        run 2 s0 = .next (servedState s rest (transaction (mkCmd a false) (some (.fail e)) :: s.trace)
          (.err (.communication e)))) ∧
      (s.answers = .ok b0 b1 :: .fail e :: rest →
        run 4 s0 = .next (servedState s rest
          (transaction (mkData v) (some (.fail e)) :: transaction (mkCmd a false) (some (.ok b0 b1)) :: s.trace)
          (.err (.communication e)))) ∧
      (s.answers = .ok b0 b1 :: .ok c0 c1 :: .fail e :: rest →
        run 6 s0 = .next (servedState s rest (transaction 0x0000#16 (some (.fail e)) ::
          twoAnswered (mkCmd a false) b0 b1 (mkData v) c0 c1 s.trace) (.err (.communication e)))) ∧
      (s.answers = .ok b0 b1 :: .ok c0 c1 :: .ok d0 d1 :: rest →
        run 6 s0 = .next (servedState s rest (transaction 0x0000#16 (some (.ok d0 d1)) ::
          twoAnswered (mkCmd a false) b0 b1 (mkData v) c0 c1 s.trace) (verdictResult (d0 ++ d1) none)))

/-- R271 to R275: ANGLE, ANGLE.DEG, MAGNITUDE, DIAG and CLRERR are one READ of their register, with every outcome of
READ, and return of the payload what each rule says. -/
def Obligations.SensorReadOutcomes : Prop :=
  ∀ (s : State) (i : Instr) (a : Addr) (r : Register) (v : Word → Option Word) (b0 b1 c0 c1 : Byte)
    (e : TransportError) (rest : List Answer),
    s.phase = .idle → s.owned = true → s.turns = [] → sensorRead s.cfg i = some (r, v) → addrOf s.cfg r = some a →
    ∃ s0, exec i s = .next s0 ∧
      (s.answers = .fail e :: rest →
        run 2 s0 = .next (servedState s rest (transaction (mkCmd a true) (some (.fail e)) :: s.trace)
          (.err (.communication e)))) ∧
      (s.answers = .ok b0 b1 :: .fail e :: rest →
        run 4 s0 = .next (servedState s rest
          (transaction 0x0000#16 (some (.fail e)) :: transaction (mkCmd a true) (some (.ok b0 b1)) :: s.trace)
          (.err (.communication e)))) ∧
      (s.answers = .ok b0 b1 :: .ok c0 c1 :: rest →
        run 4 s0 = .next (servedState s rest (twoAnswered (mkCmd a true) b0 b1 0x0000#16 c0 c1 s.trace)
          (verdictResult (c0 ++ c1) (v ((c0 ++ c1) &&& 0x3FFF#16)))))

/-- R192: MODIFY, its READ half answered. A bad frame there ends it with no write frame sent; a good one is given to the
function, whose evaluation is a step of its own, and the WRITE half sends the result and ends by its last frame. -/
def Obligations.ModifyOutcomes : Prop :=
  ∀ (s : State) (a : Addr) (f : Fn) (r : Register) (b0 b1 c0 c1 d0 d1 e0 e1 f0 f1 : Byte) (rest : List Answer),
    s.phase = .idle → s.owned = true → s.turns = [] → regmapOk s.cfg = true → registerAt s.cfg a = some r →
    ∃ s0, exec (.modify a f) s = .next s0 ∧
      (s.answers = .ok b0 b1 :: .ok c0 c1 :: rest → ones 16 (c0 ++ c1) % 2 = 1 ∨ (c0 ++ c1).getLsbD 14 = true →
        run 4 s0 = .next (servedState s rest (twoAnswered (mkCmd a true) b0 b1 0x0000#16 c0 c1 s.trace)
          (verdictResult (c0 ++ c1) none))) ∧
      (s.answers = .ok b0 b1 :: .ok c0 c1 :: .ok d0 d1 :: .ok e0 e1 :: .ok f0 f1 :: rest →
        ones 16 (c0 ++ c1) % 2 = 0 → (c0 ++ c1).getLsbD 14 = false →
        run 11 s0 = .next (servedState s rest (transaction 0x0000#16 (some (.ok f0 f1)) ::
          twoAnswered (mkCmd a false) d0 d1 (mkData (evalFn f ((c0 ++ c1) &&& 0x3FFF#16))) e0 e1
            (twoAnswered (mkCmd a true) b0 b1 0x0000#16 c0 c1 s.trace)) (verdictResult (f0 ++ f1) none)))

/-- R276: ZPOS.GET. A bad MSB frame ends it with the LSB register not read; else the two payloads are composed. -/
def Obligations.ZeroPositionGetOutcomes : Prop :=
  ∀ (s : State) (am al : Addr) (b0 b1 c0 c1 d0 d1 e0 e1 : Byte) (rest : List Answer),
    s.phase = .idle → s.owned = true → s.turns = [] →
    addrOf s.cfg .zposm = some am → addrOf s.cfg .zposl = some al →
    ∃ s0, exec .zposGet s = .next s0 ∧
      (s.answers = .ok b0 b1 :: .ok c0 c1 :: rest → ones 16 (c0 ++ c1) % 2 = 1 ∨ (c0 ++ c1).getLsbD 14 = true →
        run 4 s0 = .next (servedState s rest (twoAnswered (mkCmd am true) b0 b1 0x0000#16 c0 c1 s.trace)
          (verdictResult (c0 ++ c1) none))) ∧
      (s.answers = .ok b0 b1 :: .ok c0 c1 :: .ok d0 d1 :: .ok e0 e1 :: rest →
        ones 16 (c0 ++ c1) % 2 = 0 → (c0 ++ c1).getLsbD 14 = false →
        run 8 s0 = .next (servedState s rest (twoAnswered (mkCmd al true) d0 d1 0x0000#16 e0 e1
          (twoAnswered (mkCmd am true) b0 b1 0x0000#16 c0 c1 s.trace))
          (verdictResult (e0 ++ e1) (some (BitVec.ofNat 16 (c1.toNat * 64 + e1.toNat % 64))))))

/-- R277: ZPOS.SET of `v`, its first nine transactions answered and the two READ halves and the first WRITE half good:
the ten frames it sends, and its end by the last frame. -/
def Obligations.ZeroPositionSetFrames : Prop :=
  ∀ (s : State) (v : Word) (am al : Addr) (rest : List Answer)
    (a0 a1 b0 b1 c0 c1 d0 d1 e0 e1 f0 f1 g0 g1 h0 h1 i0 i1 j0 j1 : Byte),
    s.phase = .idle → s.owned = true → s.turns = [] →
    addrOf s.cfg .zposm = some am → addrOf s.cfg .zposl = some al →
    s.answers = .ok a0 a1 :: .ok b0 b1 :: .ok c0 c1 :: .ok d0 d1 :: .ok e0 e1 :: .ok f0 f1 :: .ok g0 g1 ::
      .ok h0 h1 :: .ok i0 i1 :: .ok j0 j1 :: rest →
    (∀ x ∈ [b0 ++ b1, e0 ++ e1, g0 ++ g1], ones 16 x % 2 = 0 ∧ (x : Word).getLsbD 14 = false) →
    ∃ s0, exec (.zposSet v) s = .next s0 ∧
      run 22 s0 = .next (servedState s rest
        (twoAnswered (mkData ((((g0 ++ g1 : Word) &&& 0x3FFF#16) &&& 0xFFC0#16) ||| (v &&& 0x003F#16)))
            i0 i1 0x0000#16 j0 j1
          (twoAnswered 0x0000#16 g0 g1 (mkCmd al false) h0 h1
            (twoAnswered 0x0000#16 e0 e1 (mkCmd al true) f0 f1
              (twoAnswered (mkCmd am false) c0 c1
                  (mkData ((((b0 ++ b1 : Word) &&& 0x3FFF#16) &&& 0xFF00#16) ||| ((v >>> 6) &&& 0x00FF#16))) d0 d1
                (twoAnswered (mkCmd am true) a0 a1 0x0000#16 b0 b1 s.trace)))))
        (verdictResult (j0 ++ j1) none))

/-- R124, R270: from IDLE, every request with a schedule is accepted and runs exactly as its pseudo-code says, whatever
the transport answers: the same transactions, the same result or error, or waiting for ever where the transport does not
answer. -/
def Obligations.RequestsRunTheirPseudocode : Prop :=
  ∀ (s : State) (i : Instr) (P : Proc (Option Word)),
    s.phase = .idle → s.owned = true → s.turns = [] → regmapOk s.cfg = true → pseudoCode s.cfg i = some P →
    ∃ s0, exec i s = .next s0 ∧ ∃ n ≤ 22, ∃ t, run n s0 = .next t ∧
      match P s.answers s.trace with
      | (.value v, ans, tr) => t = servedState s ans tr (.ok v)
      | (.raised e, ans, tr) => t = servedState s ans tr (.err e)
      | (.hangs, ans, tr) => ans = [] ∧ (∃ k, t.phase = .run k .wait) ∧ t.answers = [] ∧ t.trace = tr ∧
          t.results = s.results ∧ step t = .next t

/-- R25, R81: where the transport answers every transaction that is left, a running operation ends, after at most two
steps a transaction and one for each of at most two functions, with one result and the block at IDLE. -/
def Obligations.EveryAnsweredOperationEnds : Prop :=
  ∀ (s : State) (k : Nat) (sub : Sub) (op : Op),
    inv s = true → s.turns = [] → s.phase = .run k sub → s.reqOp = some op →
    EnvTransport ((schedule op).length - k) s →
    ∃ n ≤ 2 * ((schedule op).length - k) + 2, ∃ t r, run n s = .next t ∧ t.phase = .idle ∧ t.owned = true ∧
      t.results = r :: s.results ∧ workingEmpty t = true

/-! ### Whole-machine rules -/

/-- R50, R350: the state after creation. The configuration in it is the model's choice (logs 3, 4, 5) and is not
stated here. -/
def Obligations.ResetLeavesTheCreatedBlock : Prop :=
  State.reset.phase = .idle ∧ State.reset.owned = true ∧ workingEmpty State.reset = true ∧
    State.reset.trace = [] ∧ State.reset.results = []

/-- The invariant holds after reset (R22 to R27, R50). -/
def Obligations.ResetMeetsTheInvariant : Prop := inv State.reset = true ∧ evenTrace State.reset = true

/-- R22 to R27: every step keeps the invariant. -/
def Obligations.StepKeepsTheInvariant : Prop :=
  ∀ s t : State, inv s = true → step s = .next t → inv t = true

/-- R24, R25: how the phase moves: it stays, an operation is accepted or RELEASE taken at IDLE, a transaction is issued,
and at its outcome the next entry follows or the operation is over; never backwards, and never past the schedule. -/
def Obligations.PhaseMovesForward : Prop :=
  ∀ s t : State, inv s = true → step s = .next t →
    t.phase = s.phase ∨
    (s.phase = .idle ∧ (t.phase = .run 0 .issue ∨ t.phase = .released)) ∨
    (∃ k op, s.reqOp = some op ∧ k < (schedule op).length ∧
      ((s.phase = .run k .issue ∧ t.phase = .run k .wait) ∨
       (s.phase = .run k .wait ∧ (t.phase = .idle ∨ (k + 1 < (schedule op).length ∧ t.phase = .run (k + 1) .issue)))))

/-- R22: no rule reads a working register that holds no value: no step from a state of the invariant is a fault. -/
def Obligations.NoStepFaults : Prop :=
  ∀ (s : State) (f : Fault), inv s = true → step s ≠ .fault f

/-- R43: no step changes the configuration. -/
def Obligations.ConfigurationIsFixed : Prop :=
  ∀ s t : State, step s = .next t → t.cfg = s.cfg

/-- R351: after RELEASE the instance is dead: no step brings it back, sends anything or delivers anything, and a
request on the port is refused. -/
def Obligations.ReleasedIsFinal : Prop :=
  ∀ s : State, s.phase = .released → inv s = true →
    (∀ t, step s = .next t → t.phase = .released ∧ t.owned = false ∧ t.trace = s.trace ∧ t.results = s.results) ∧
    (∀ r rest, s.turns = [] → s.reqPort = r :: rest → ∃ q, step s = .refused q)

/-- R26, R78: a step leaves the trace alone, or starts one transaction, at an ISSUE and with none outstanding, or
records the outcome of the newest one, at a WAIT. -/
def Obligations.OneTransactionAtATime : Prop :=
  ∀ s t : State, inv s = true → step s = .next t →
    t.trace = s.trace ∨
    (∃ k b0 b1, s.phase = .run k .issue ∧ t.phase = .run k .wait ∧ t.trace = ⟨b0, b1, none⟩ :: s.trace ∧
      ∀ u ∈ s.trace, u.answer ≠ none) ∨
    (∃ k a u us, s.phase = .run k .wait ∧ s.trace = u :: us ∧ u.answer = none ∧
      t.trace = { u with answer := some a } :: us)

/-- R23, R28: a result is delivered one at a time, at the end of an operation, when the block is idle or released and no
working register holds a value. -/
def Obligations.ResultEndsTheOperation : Prop :=
  ∀ s t : State, step s = .next t →
    t.results = s.results ∨
    (∃ r, t.results = r :: s.results ∧ workingEmpty t = true ∧ (t.phase = .idle ∨ t.phase = .released))

/-- R28, R358: evaluating a combinational function, at any phase, leaves everything of the block as it is. -/
def Obligations.EvaluationLeavesTheBlock : Prop :=
  ∀ (s t : State) (port : CombPort) (w : Word) (side : List Word) (rest : List Turn),
    s.turns = .evaluate port w side :: rest → step s = .next t →
    ∃ v, t = { s with turns := rest, outs := ⟨port, v⟩ :: s.outs }

/-- R199, R23: what lies behind a state has no influence: two states that differ at most in it take the same step, send
the same frame and deliver the same result. -/
def Obligations.HistoryHasNoInfluence : Prop :=
  ∀ s1 s2 t1 : State, sameButHistory s1 s2 → step s1 = .next t1 →
    ∃ t2, step s2 = .next t2 ∧ sameButHistory t1 t2 ∧
      ((t1.results = s1.results ∧ t2.results = s2.results) ∨
        ∃ r, t1.results = r :: s1.results ∧ t2.results = r :: s2.results) ∧
      (newestSent s1 = newestSent s2 → newestSent t1 = newestSent t2)

/-- R163, R199: two frames received in the same ignored transaction lead to states that differ at most in the trace and
in RXW; no result is delivered, and no value. -/
def Obligations.IgnoredFramesHaveNoInfluence : Prop :=
  ∀ (s : State) (k : Nat) (e : Entry) (b0 b1 c0 c1 : Byte) (rest : List Answer),
    s.turns = [] → s.phase = .run k .wait → currentEntry s k = .ok e → e.handling = .ignore →
    ∃ t1 t2, step { s with answers := .ok b0 b1 :: rest } = .next t1 ∧
      step { s with answers := .ok c0 c1 :: rest } = .next t2 ∧ sameButHistory t1 t2 ∧
      t1.results = s.results ∧ t2.results = s.results ∧ t1.outs = s.outs ∧ t2.outs = s.outs ∧
      t1.phase = .run (k + 1) .issue

/-- R72, as a premise about the operations performed so far and this READ: where the last of them did not end with
Communication (U2; that a first operation is trusted is the model's choice, log 29) and the transport answers both transactions, READ returns the content of its register at the time of
its second transaction, or SensorError where the sensor's error flag is then set. -/
def Obligations.ReadReturnsTheContent : Prop :=
  ∀ (s s0 t : State) (a : Addr) (r : Register) (content : Nat → Addr → Payload) (flag : Nat → Bool)
    (past : List Performed) (b0 b1 c0 c1 : Byte) (rest : List Answer),
    s.phase = .idle → s.owned = true → s.turns = [] → regmapOk s.cfg = true → registerAt s.cfg a = some r →
    s.answers = .ok b0 b1 :: .ok c0 c1 :: rest → exec (.read a) s = .next s0 → run 4 s0 = .next t →
    History past s → settledAfter past = true →
    EnvRead content flag (past ++ [⟨.read, t.log.drop s.log.length⟩]) →
    History (past ++ [⟨.read, t.log.drop s.log.length⟩]) t ∧
    t.results = (if flag (s.log.length + 1) then .err .sensorError
      else .ok (some ((content (s.log.length + 1) a).setWidth 16))) :: s.results

/-! ### Encoding, fetch and the host's operands -/

/-- R60: a frame goes out as its high byte then its low byte, and two received bytes are a frame in the same order. -/
def Obligations.FramesAreBigEndian : Prop :=
  (∀ w : Word, (toWire w).1.toNat = w.toNat / 256 ∧ (toWire w).2.toNat = w.toNat % 256) ∧
  (∀ b0 b1 : Byte, (ofWire b0 b1).toNat = b0.toNat * 256 + b1.toNat) ∧
  (∀ (s : State) (k : Nat) (b0 b1 : Byte) (rest : List Answer) (t : State), s.turns = [] → s.phase = .run k .wait →
    s.answers = .ok b0 b1 :: rest → step s = .next t → t.phase ≠ .idle → t.rxw = some (b0 ++ b1))

/-- R100 to R107, R116: the decoder reads every well-formed instruction back from the words the encoder gives it. -/
def Obligations.DecodeEncodeRoundTrip : Prop :=
  ∀ i : Instr, i.wellFormed = true → decode (encode i) = .ok i

/-- Words written out from the spec decode to what they stand for (R101 to R107, R114). -/
def Obligations.SpecWordsDecode : Prop :=
  decode (.sent .command 0xFFFF#16) = .ok (.cmdRd true 0x3FFF#14) ∧
  decode (.sent .command 0x8016#16) = .ok (.cmdWr true 0x0016#14) ∧
  decode (.sent .data 0x8004#16) = .ok (.data true 0x0004#14) ∧
  decode (.sent .nop 0x0000#16) = .ok .nop ∧
  decode (.received 0xC001#16) = .ok (.resp true true 0x0001#14) ∧
  decode (.request 0x03FFD0000#34 .arg) = .ok (.read 0x3FFD#14) ∧
  decode (.request 0x040180004#34 .arg) = .ok (.write 0x0018#14 0x0004#16) ∧
  decode (.request 0x0C0000000#34 .arg) = .ok .angle ∧
  decode (.request 0x240002ABC#34 .arg) = .ok (.zposSet 0x2ABC#16) ∧
  decode (.request 0x2C0000000#34 .arg) = .ok .reservedB ∧
  decode (.comb .fldGet 0x0480#16 [7#16, 0#16]) = .ok (.fldGet 0x0480#16 7 0)

/-- R14, R82, R183: a step runs exec of what it fetched and decoded. What is next is the host's evaluation in its turn,
else the request on the port at IDLE or RELEASED, the scheduled frame at ISSUE, the received frame at WAIT. Around exec
the step has one move more: the function of a MODIFY half is evaluated in a step of its own before the write command of
its WRITE half (R14, D19). -/
def Obligations.StepRunsTheDecodedInstruction : Prop :=
  (∀ (s t : State) (p : Presented) (i : Instr), fetch s = .instr p t → decode p = .ok i → step s = exec i t) ∧
  (∀ (s : State) (port : CombPort) (w : Word) (side : List Word) (rest : List Turn),
    s.turns = .evaluate port w side :: rest → fetch s = .instr (.comb port w side) { s with turns := rest }) ∧
  (∀ (s : State) (r : Request) (rest : List Request), s.turns = [] → s.phase = .idle ∨ s.phase = .released →
    s.reqPort = r :: rest → fetch s = .instr (.request r.word r.fn) s) ∧
  (∀ (s : State) (k : Nat) (pos : FramePos) (w : Word), s.turns = [] → s.phase = .run k .issue →
    dueFn s k = none → scheduledFrame s k = .ok (pos, w) → fetch s = .instr (.sent pos w) s) ∧
  (∀ (s : State) (k : Nat) (g : ModFn) (u : Word), s.turns = [] → s.phase = .run k .issue →
    dueFn s k = some g → modFnValue s g = .ok u → step s = .next { s with fnValue := some u }) ∧
  (∀ (s : State) (k : Nat) (g : ModFn), dueFn s k = some g ↔ s.fnValue = none ∧
    ((s.reqOp = some .modify ∧ k = 2 ∧ g = .reqFn) ∨ (s.reqOp = some .zposSet ∧ k = 2 ∧ g = .zposm) ∨
     (s.reqOp = some .zposSet ∧ k = 7 ∧ g = .zposl))) ∧
  (∀ (s : State) (k : Nat) (b0 b1 : Byte) (rest : List Answer), s.turns = [] → s.phase = .run k .wait →
    s.answers = .ok b0 b1 :: rest → fetch s = .instr (.received (b0 ++ b1)) { s with answers := rest }) ∧
  (∀ (s : State) (rest : List Turn), s.turns = .block :: rest → fetch s = fetchBlock { s with turns := rest })

/-- R106, R354: every function of 16 bits to 16 bits can be the function operand of a MODIFY. -/
def Obligations.EveryFunctionIsAnOperand : Prop :=
  ∀ f : Word → Word, ∃ e : Fn, ∀ x, evalFn e x = f x
end

