-- ==== Sys2Proof/Laws/State.lean ====
section
/-! SUPPORT. One lemma per field per update of State, so that no proof unfolds a record update. -/

namespace Sys2Proof.Machine

/-! ### `clearWorking` -/

@[simp] theorem clearWorking_cfg (s : State) :
    (clearWorking s).cfg = s.cfg := rfl

@[simp] theorem clearWorking_phase (s : State) :
    (clearWorking s).phase = s.phase := rfl

@[simp] theorem clearWorking_owned (s : State) :
    (clearWorking s).owned = s.owned := rfl

@[simp] theorem clearWorking_reqOp (s : State) :
    (clearWorking s).reqOp = none := rfl

@[simp] theorem clearWorking_reqReg (s : State) :
    (clearWorking s).reqReg = none := rfl

@[simp] theorem clearWorking_reqWdata (s : State) :
    (clearWorking s).reqWdata = none := rfl

@[simp] theorem clearWorking_reqFn (s : State) :
    (clearWorking s).reqFn = none := rfl

@[simp] theorem clearWorking_txw (s : State) :
    (clearWorking s).txw = none := rfl

@[simp] theorem clearWorking_rxw (s : State) :
    (clearWorking s).rxw = none := rfl

@[simp] theorem clearWorking_acc (s : State) :
    (clearWorking s).acc = none := rfl

@[simp] theorem clearWorking_fnValue (s : State) :
    (clearWorking s).fnValue = none := rfl

@[simp] theorem clearWorking_resStatus (s : State) :
    (clearWorking s).resStatus = none := rfl

@[simp] theorem clearWorking_resHasValue (s : State) :
    (clearWorking s).resHasValue = none := rfl

@[simp] theorem clearWorking_resValue (s : State) :
    (clearWorking s).resValue = none := rfl

@[simp] theorem clearWorking_resErr (s : State) :
    (clearWorking s).resErr = none := rfl

@[simp] theorem clearWorking_reqPort (s : State) :
    (clearWorking s).reqPort = s.reqPort := rfl

@[simp] theorem clearWorking_turns (s : State) :
    (clearWorking s).turns = s.turns := rfl

@[simp] theorem clearWorking_answers (s : State) :
    (clearWorking s).answers = s.answers := rfl

@[simp] theorem clearWorking_trace (s : State) :
    (clearWorking s).trace = s.trace := rfl

@[simp] theorem clearWorking_results (s : State) :
    (clearWorking s).results = s.results := rfl

@[simp] theorem clearWorking_outs (s : State) :
    (clearWorking s).outs = s.outs := rfl

/-! ### `latch` -/

@[simp] theorem latch_cfg (op : Op) (reg : Option Register) (wdata : Option Word) (fn : Option Fn) (s : State) :
    (latch op reg wdata fn s).cfg = s.cfg := rfl

@[simp] theorem latch_phase (op : Op) (reg : Option Register) (wdata : Option Word) (fn : Option Fn) (s : State) :
    (latch op reg wdata fn s).phase = .run 0 .issue := rfl

@[simp] theorem latch_owned (op : Op) (reg : Option Register) (wdata : Option Word) (fn : Option Fn) (s : State) :
    (latch op reg wdata fn s).owned = s.owned := rfl

@[simp] theorem latch_reqOp (op : Op) (reg : Option Register) (wdata : Option Word) (fn : Option Fn) (s : State) :
    (latch op reg wdata fn s).reqOp = some op := rfl

@[simp] theorem latch_reqReg (op : Op) (reg : Option Register) (wdata : Option Word) (fn : Option Fn) (s : State) :
    (latch op reg wdata fn s).reqReg = reg := rfl

@[simp] theorem latch_reqWdata (op : Op) (reg : Option Register) (wdata : Option Word) (fn : Option Fn) (s : State) :
    (latch op reg wdata fn s).reqWdata = wdata := rfl

@[simp] theorem latch_reqFn (op : Op) (reg : Option Register) (wdata : Option Word) (fn : Option Fn) (s : State) :
    (latch op reg wdata fn s).reqFn = fn := rfl

@[simp] theorem latch_txw (op : Op) (reg : Option Register) (wdata : Option Word) (fn : Option Fn) (s : State) :
    (latch op reg wdata fn s).txw = s.txw := rfl

@[simp] theorem latch_rxw (op : Op) (reg : Option Register) (wdata : Option Word) (fn : Option Fn) (s : State) :
    (latch op reg wdata fn s).rxw = s.rxw := rfl

@[simp] theorem latch_acc (op : Op) (reg : Option Register) (wdata : Option Word) (fn : Option Fn) (s : State) :
    (latch op reg wdata fn s).acc = s.acc := rfl

@[simp] theorem latch_fnValue (op : Op) (reg : Option Register) (wdata : Option Word) (fn : Option Fn) (s : State) :
    (latch op reg wdata fn s).fnValue = s.fnValue := rfl

@[simp] theorem latch_resStatus (op : Op) (reg : Option Register) (wdata : Option Word) (fn : Option Fn) (s : State) :
    (latch op reg wdata fn s).resStatus = s.resStatus := rfl

@[simp] theorem latch_resHasValue (op : Op) (reg : Option Register) (wdata : Option Word) (fn : Option Fn) (s : State) :
    (latch op reg wdata fn s).resHasValue = s.resHasValue := rfl

@[simp] theorem latch_resValue (op : Op) (reg : Option Register) (wdata : Option Word) (fn : Option Fn) (s : State) :
    (latch op reg wdata fn s).resValue = s.resValue := rfl

@[simp] theorem latch_resErr (op : Op) (reg : Option Register) (wdata : Option Word) (fn : Option Fn) (s : State) :
    (latch op reg wdata fn s).resErr = s.resErr := rfl

@[simp] theorem latch_reqPort (op : Op) (reg : Option Register) (wdata : Option Word) (fn : Option Fn) (s : State) :
    (latch op reg wdata fn s).reqPort = s.reqPort.tail := rfl

@[simp] theorem latch_turns (op : Op) (reg : Option Register) (wdata : Option Word) (fn : Option Fn) (s : State) :
    (latch op reg wdata fn s).turns = s.turns := rfl

@[simp] theorem latch_answers (op : Op) (reg : Option Register) (wdata : Option Word) (fn : Option Fn) (s : State) :
    (latch op reg wdata fn s).answers = s.answers := rfl

@[simp] theorem latch_trace (op : Op) (reg : Option Register) (wdata : Option Word) (fn : Option Fn) (s : State) :
    (latch op reg wdata fn s).trace = s.trace := rfl

@[simp] theorem latch_results (op : Op) (reg : Option Register) (wdata : Option Word) (fn : Option Fn) (s : State) :
    (latch op reg wdata fn s).results = s.results := rfl

@[simp] theorem latch_outs (op : Op) (reg : Option Register) (wdata : Option Word) (fn : Option Fn) (s : State) :
    (latch op reg wdata fn s).outs = s.outs := rfl

/-! ### `startXfer` -/

@[simp] theorem startXfer_cfg (w : Word) (s : State) :
    (startXfer w s).cfg = s.cfg := rfl

@[simp] theorem startXfer_phase (w : Word) (s : State) :
    (startXfer w s).phase = s.phase := rfl

@[simp] theorem startXfer_owned (w : Word) (s : State) :
    (startXfer w s).owned = s.owned := rfl

@[simp] theorem startXfer_reqOp (w : Word) (s : State) :
    (startXfer w s).reqOp = s.reqOp := rfl

@[simp] theorem startXfer_reqReg (w : Word) (s : State) :
    (startXfer w s).reqReg = s.reqReg := rfl

@[simp] theorem startXfer_reqWdata (w : Word) (s : State) :
    (startXfer w s).reqWdata = s.reqWdata := rfl

@[simp] theorem startXfer_reqFn (w : Word) (s : State) :
    (startXfer w s).reqFn = s.reqFn := rfl

@[simp] theorem startXfer_txw (w : Word) (s : State) :
    (startXfer w s).txw = some w := rfl

@[simp] theorem startXfer_rxw (w : Word) (s : State) :
    (startXfer w s).rxw = s.rxw := rfl

@[simp] theorem startXfer_acc (w : Word) (s : State) :
    (startXfer w s).acc = s.acc := rfl

@[simp] theorem startXfer_fnValue (w : Word) (s : State) :
    (startXfer w s).fnValue = s.fnValue := rfl

@[simp] theorem startXfer_resStatus (w : Word) (s : State) :
    (startXfer w s).resStatus = s.resStatus := rfl

@[simp] theorem startXfer_resHasValue (w : Word) (s : State) :
    (startXfer w s).resHasValue = s.resHasValue := rfl

@[simp] theorem startXfer_resValue (w : Word) (s : State) :
    (startXfer w s).resValue = s.resValue := rfl

@[simp] theorem startXfer_resErr (w : Word) (s : State) :
    (startXfer w s).resErr = s.resErr := rfl

@[simp] theorem startXfer_reqPort (w : Word) (s : State) :
    (startXfer w s).reqPort = s.reqPort := rfl

@[simp] theorem startXfer_turns (w : Word) (s : State) :
    (startXfer w s).turns = s.turns := rfl

@[simp] theorem startXfer_answers (w : Word) (s : State) :
    (startXfer w s).answers = s.answers := rfl

@[simp] theorem startXfer_trace (w : Word) (s : State) :
    (startXfer w s).trace = ⟨(toWire w).1, (toWire w).2, none⟩ :: s.trace := rfl

@[simp] theorem startXfer_results (w : Word) (s : State) :
    (startXfer w s).results = s.results := rfl

@[simp] theorem startXfer_outs (w : Word) (s : State) :
    (startXfer w s).outs = s.outs := rfl

/-! ### `receiveFrame` -/

@[simp] theorem receiveFrame_cfg (r : Word) (s : State) :
    (receiveFrame r s).cfg = s.cfg := rfl

@[simp] theorem receiveFrame_phase (r : Word) (s : State) :
    (receiveFrame r s).phase = s.phase := rfl

@[simp] theorem receiveFrame_owned (r : Word) (s : State) :
    (receiveFrame r s).owned = s.owned := rfl

@[simp] theorem receiveFrame_reqOp (r : Word) (s : State) :
    (receiveFrame r s).reqOp = s.reqOp := rfl

@[simp] theorem receiveFrame_reqReg (r : Word) (s : State) :
    (receiveFrame r s).reqReg = s.reqReg := rfl

@[simp] theorem receiveFrame_reqWdata (r : Word) (s : State) :
    (receiveFrame r s).reqWdata = s.reqWdata := rfl

@[simp] theorem receiveFrame_reqFn (r : Word) (s : State) :
    (receiveFrame r s).reqFn = s.reqFn := rfl

@[simp] theorem receiveFrame_txw (r : Word) (s : State) :
    (receiveFrame r s).txw = s.txw := rfl

@[simp] theorem receiveFrame_rxw (r : Word) (s : State) :
    (receiveFrame r s).rxw = some r := rfl

@[simp] theorem receiveFrame_acc (r : Word) (s : State) :
    (receiveFrame r s).acc = s.acc := rfl

@[simp] theorem receiveFrame_fnValue (r : Word) (s : State) :
    (receiveFrame r s).fnValue = s.fnValue := rfl

@[simp] theorem receiveFrame_resStatus (r : Word) (s : State) :
    (receiveFrame r s).resStatus = s.resStatus := rfl

@[simp] theorem receiveFrame_resHasValue (r : Word) (s : State) :
    (receiveFrame r s).resHasValue = s.resHasValue := rfl

@[simp] theorem receiveFrame_resValue (r : Word) (s : State) :
    (receiveFrame r s).resValue = s.resValue := rfl

@[simp] theorem receiveFrame_resErr (r : Word) (s : State) :
    (receiveFrame r s).resErr = s.resErr := rfl

@[simp] theorem receiveFrame_reqPort (r : Word) (s : State) :
    (receiveFrame r s).reqPort = s.reqPort := rfl

@[simp] theorem receiveFrame_turns (r : Word) (s : State) :
    (receiveFrame r s).turns = s.turns := rfl

@[simp] theorem receiveFrame_answers (r : Word) (s : State) :
    (receiveFrame r s).answers = s.answers := rfl

@[simp] theorem receiveFrame_trace (r : Word) (s : State) :
    (receiveFrame r s).trace = recordAnswer (.ok (toWire r).1 (toWire r).2) s.trace := rfl

@[simp] theorem receiveFrame_results (r : Word) (s : State) :
    (receiveFrame r s).results = s.results := rfl

@[simp] theorem receiveFrame_outs (r : Word) (s : State) :
    (receiveFrame r s).outs = s.outs := rfl

/-! ### `writeOk` -/

@[simp] theorem writeOk_cfg (v : Option Word) (s : State) :
    (writeOk v s).cfg = s.cfg := by cases v <;> rfl

@[simp] theorem writeOk_phase (v : Option Word) (s : State) :
    (writeOk v s).phase = s.phase := by cases v <;> rfl

@[simp] theorem writeOk_owned (v : Option Word) (s : State) :
    (writeOk v s).owned = s.owned := by cases v <;> rfl

@[simp] theorem writeOk_reqOp (v : Option Word) (s : State) :
    (writeOk v s).reqOp = s.reqOp := by cases v <;> rfl

@[simp] theorem writeOk_reqReg (v : Option Word) (s : State) :
    (writeOk v s).reqReg = s.reqReg := by cases v <;> rfl

@[simp] theorem writeOk_reqWdata (v : Option Word) (s : State) :
    (writeOk v s).reqWdata = s.reqWdata := by cases v <;> rfl

@[simp] theorem writeOk_reqFn (v : Option Word) (s : State) :
    (writeOk v s).reqFn = s.reqFn := by cases v <;> rfl

@[simp] theorem writeOk_txw (v : Option Word) (s : State) :
    (writeOk v s).txw = s.txw := by cases v <;> rfl

@[simp] theorem writeOk_rxw (v : Option Word) (s : State) :
    (writeOk v s).rxw = s.rxw := by cases v <;> rfl

@[simp] theorem writeOk_acc (v : Option Word) (s : State) :
    (writeOk v s).acc = s.acc := by cases v <;> rfl

@[simp] theorem writeOk_fnValue (v : Option Word) (s : State) :
    (writeOk v s).fnValue = s.fnValue := by cases v <;> rfl

@[simp] theorem writeOk_resStatus (v : Option Word) (s : State) :
    (writeOk v s).resStatus = some .ok := by cases v <;> rfl

@[simp] theorem writeOk_resHasValue (v : Option Word) (s : State) :
    (writeOk v s).resHasValue = some v.isSome := by cases v <;> rfl

@[simp] theorem writeOk_resValue (v : Option Word) (s : State) :
    (writeOk v s).resValue = v.or s.resValue := by cases v <;> rfl

@[simp] theorem writeOk_resErr (v : Option Word) (s : State) :
    (writeOk v s).resErr = s.resErr := by cases v <;> rfl

@[simp] theorem writeOk_reqPort (v : Option Word) (s : State) :
    (writeOk v s).reqPort = s.reqPort := by cases v <;> rfl

@[simp] theorem writeOk_turns (v : Option Word) (s : State) :
    (writeOk v s).turns = s.turns := by cases v <;> rfl

@[simp] theorem writeOk_answers (v : Option Word) (s : State) :
    (writeOk v s).answers = s.answers := by cases v <;> rfl

@[simp] theorem writeOk_trace (v : Option Word) (s : State) :
    (writeOk v s).trace = s.trace := by cases v <;> rfl

@[simp] theorem writeOk_results (v : Option Word) (s : State) :
    (writeOk v s).results = s.results := by cases v <;> rfl

@[simp] theorem writeOk_outs (v : Option Word) (s : State) :
    (writeOk v s).outs = s.outs := by cases v <;> rfl

/-! ### `writeError` -/

@[simp] theorem writeError_cfg (e : DriverError) (s : State) :
    (writeError e s).cfg = s.cfg := by cases e <;> rfl

@[simp] theorem writeError_phase (e : DriverError) (s : State) :
    (writeError e s).phase = s.phase := by cases e <;> rfl

@[simp] theorem writeError_owned (e : DriverError) (s : State) :
    (writeError e s).owned = s.owned := by cases e <;> rfl

@[simp] theorem writeError_reqOp (e : DriverError) (s : State) :
    (writeError e s).reqOp = s.reqOp := by cases e <;> rfl

@[simp] theorem writeError_reqReg (e : DriverError) (s : State) :
    (writeError e s).reqReg = s.reqReg := by cases e <;> rfl

@[simp] theorem writeError_reqWdata (e : DriverError) (s : State) :
    (writeError e s).reqWdata = s.reqWdata := by cases e <;> rfl

@[simp] theorem writeError_reqFn (e : DriverError) (s : State) :
    (writeError e s).reqFn = s.reqFn := by cases e <;> rfl

@[simp] theorem writeError_txw (e : DriverError) (s : State) :
    (writeError e s).txw = s.txw := by cases e <;> rfl

@[simp] theorem writeError_rxw (e : DriverError) (s : State) :
    (writeError e s).rxw = s.rxw := by cases e <;> rfl

@[simp] theorem writeError_acc (e : DriverError) (s : State) :
    (writeError e s).acc = s.acc := by cases e <;> rfl

@[simp] theorem writeError_fnValue (e : DriverError) (s : State) :
    (writeError e s).fnValue = s.fnValue := by cases e <;> rfl

@[simp] theorem writeError_resHasValue (e : DriverError) (s : State) :
    (writeError e s).resHasValue = some false := by cases e <;> rfl

@[simp] theorem writeError_resValue (e : DriverError) (s : State) :
    (writeError e s).resValue = s.resValue := by cases e <;> rfl

@[simp] theorem writeError_reqPort (e : DriverError) (s : State) :
    (writeError e s).reqPort = s.reqPort := by cases e <;> rfl

@[simp] theorem writeError_turns (e : DriverError) (s : State) :
    (writeError e s).turns = s.turns := by cases e <;> rfl

@[simp] theorem writeError_answers (e : DriverError) (s : State) :
    (writeError e s).answers = s.answers := by cases e <;> rfl

@[simp] theorem writeError_trace (e : DriverError) (s : State) :
    (writeError e s).trace = s.trace := by cases e <;> rfl

@[simp] theorem writeError_results (e : DriverError) (s : State) :
    (writeError e s).results = s.results := by cases e <;> rfl

@[simp] theorem writeError_outs (e : DriverError) (s : State) :
    (writeError e s).outs = s.outs := by cases e <;> rfl

/-! ### `endedState` -/

@[simp] theorem endedState_cfg (s : State) (ans : List Answer) (tr : List Transaction) (r : Result) :
    (endedState s ans tr r).cfg = s.cfg := rfl

@[simp] theorem endedState_phase (s : State) (ans : List Answer) (tr : List Transaction) (r : Result) :
    (endedState s ans tr r).phase = .idle := rfl

@[simp] theorem endedState_owned (s : State) (ans : List Answer) (tr : List Transaction) (r : Result) :
    (endedState s ans tr r).owned = s.owned := rfl

@[simp] theorem endedState_reqOp (s : State) (ans : List Answer) (tr : List Transaction) (r : Result) :
    (endedState s ans tr r).reqOp = none := rfl

@[simp] theorem endedState_reqReg (s : State) (ans : List Answer) (tr : List Transaction) (r : Result) :
    (endedState s ans tr r).reqReg = none := rfl

@[simp] theorem endedState_reqWdata (s : State) (ans : List Answer) (tr : List Transaction) (r : Result) :
    (endedState s ans tr r).reqWdata = none := rfl

@[simp] theorem endedState_reqFn (s : State) (ans : List Answer) (tr : List Transaction) (r : Result) :
    (endedState s ans tr r).reqFn = none := rfl

@[simp] theorem endedState_txw (s : State) (ans : List Answer) (tr : List Transaction) (r : Result) :
    (endedState s ans tr r).txw = none := rfl

@[simp] theorem endedState_rxw (s : State) (ans : List Answer) (tr : List Transaction) (r : Result) :
    (endedState s ans tr r).rxw = none := rfl

@[simp] theorem endedState_acc (s : State) (ans : List Answer) (tr : List Transaction) (r : Result) :
    (endedState s ans tr r).acc = none := rfl

@[simp] theorem endedState_fnValue (s : State) (ans : List Answer) (tr : List Transaction) (r : Result) :
    (endedState s ans tr r).fnValue = none := rfl

@[simp] theorem endedState_resStatus (s : State) (ans : List Answer) (tr : List Transaction) (r : Result) :
    (endedState s ans tr r).resStatus = none := rfl

@[simp] theorem endedState_resHasValue (s : State) (ans : List Answer) (tr : List Transaction) (r : Result) :
    (endedState s ans tr r).resHasValue = none := rfl

@[simp] theorem endedState_resValue (s : State) (ans : List Answer) (tr : List Transaction) (r : Result) :
    (endedState s ans tr r).resValue = none := rfl

@[simp] theorem endedState_resErr (s : State) (ans : List Answer) (tr : List Transaction) (r : Result) :
    (endedState s ans tr r).resErr = none := rfl

@[simp] theorem endedState_reqPort (s : State) (ans : List Answer) (tr : List Transaction) (r : Result) :
    (endedState s ans tr r).reqPort = s.reqPort := rfl

@[simp] theorem endedState_turns (s : State) (ans : List Answer) (tr : List Transaction) (r : Result) :
    (endedState s ans tr r).turns = s.turns := rfl

@[simp] theorem endedState_answers (s : State) (ans : List Answer) (tr : List Transaction) (r : Result) :
    (endedState s ans tr r).answers = ans := rfl

@[simp] theorem endedState_trace (s : State) (ans : List Answer) (tr : List Transaction) (r : Result) :
    (endedState s ans tr r).trace = tr := rfl

@[simp] theorem endedState_results (s : State) (ans : List Answer) (tr : List Transaction) (r : Result) :
    (endedState s ans tr r).results = r :: s.results := rfl

@[simp] theorem endedState_outs (s : State) (ans : List Answer) (tr : List Transaction) (r : Result) :
    (endedState s ans tr r).outs = s.outs := rfl

end Sys2Proof.Machine
end

