-- ==== Sys2Proof/Laws/Ops.lean ====
section
/-! SUPPORT. For each shared operation, what it can answer: cited by later proofs in place of its definition. -/

namespace Sys2Proof.Machine

/-! ### Readers -/

@[simp] theorem need_some {α : Type} (r : WorkReg) (x : α) : need r (some x) = .ok x := rfl

@[simp] theorem need_none {α : Type} (r : WorkReg) : need r (none : Option α) = .error (.absentRegister r) := rfl

theorem need_eq_ok {α : Type} {r : WorkReg} {v : Option α} {x : α} : need r v = .ok x ↔ v = some x := by
  cases v <;> simp

/-! ### Ending an operation -/

/-- What an operation leaves when it ends in phase `ph` with result `r`. -/
theorem endOperation_next {ph : Phase} {s t : State} (h : endOperation ph s = .next t) :
    ∃ r, resultOf s = .ok r ∧ t = { clearWorking s with results := r :: s.results, phase := ph } := by
  unfold endOperation at h
  split at h
  · next r hr => exact ⟨r, hr, by cases h; rfl⟩
  · cases h

theorem resultOf_writeError (e : DriverError) (s : State) : resultOf (writeError e s) = .ok (.err e) := by
  cases e <;> rfl

theorem resultOf_writeOk (v : Option Word) (s : State) : resultOf (writeOk v s) = .ok (.ok v) := by
  cases v <;> rfl

theorem clearWorking_writeError (e : DriverError) (s : State) : clearWorking (writeError e s) = clearWorking s := by
  cases e <;> rfl

theorem clearWorking_writeOk (v : Option Word) (s : State) : clearWorking (writeOk v s) = clearWorking s := rfl

theorem endOperation_writeOk (ph : Phase) (v : Option Word) (s : State) :
    endOperation ph (writeOk v s) =
      .next { clearWorking s with results := .ok v :: s.results, phase := ph } := by
  cases v <;> rfl

/-- `raise E` (R316) always answers, and says what it leaves. -/
theorem raiseErr_eq (e : DriverError) (s : State) :
    raiseErr e s = .next { clearWorking s with results := .err e :: s.results, phase := .idle } := by
  cases e <;> rfl

/-- `finish` (R183) answers once the operation's value is there. -/
theorem finish_eq {op : Op} {s : State} {v : Option Word} (h : finishValue op s = .ok v) :
    finish op s = .next { clearWorking s with results := .ok v :: s.results, phase := .idle } := by
  simp [finish, h, endOperation_writeOk]

/-! ### The steps of R183 -/

/-- Everything `advance` can do: the next entry, or the end with a result. -/
theorem advance_next {k : Nat} {s t : State} (h : advance k s = .next t) :
    ∃ op, s.reqOp = some op ∧
      ((k + 1 < (schedule op).length ∧ t = { s with phase := .run (k + 1) .issue }) ∨
       (¬ k + 1 < (schedule op).length ∧ ∃ v, finishValue op s = .ok v ∧
          t = { clearWorking s with results := .ok v :: s.results, phase := .idle })) := by
  unfold advance at h
  split at h
  · cases h
  · next op hop =>
    refine ⟨op, need_eq_ok.mp hop, ?_⟩
    split at h
    · next hk => exact .inl ⟨hk, by cases h; rfl⟩
    · next hk =>
      right
      unfold finish at h
      split at h
      · next v hv =>
        rw [endOperation_writeOk] at h
        exact ⟨hk, v, hv, by cases h; rfl⟩
      · cases h

theorem advance_goesOn {k : Nat} {op : Op} {s : State} (hop : s.reqOp = some op)
    (hk : k + 1 < (schedule op).length) : advance k s = .next { s with phase := .run (k + 1) .issue } := by
  simp [advance, hop, hk]

theorem advance_finishes {k : Nat} {op : Op} {s : State} (hop : s.reqOp = some op)
    (hk : k + 1 = (schedule op).length) : advance k s = finish op s := by
  simp [advance, hop, hk]

/-- Everything `issueFrame` can do. -/
theorem issueFrame_next {pos : FramePos} {w : Word} {s t : State} (h : issueFrame pos w s = .next t) :
    ∃ k, s.phase = .run k .issue ∧ dueFn s k = none ∧ scheduledFrame s k = .ok (pos, w) ∧
      t = { startXfer w s with phase := .run k .wait } := by
  unfold issueFrame at h
  split at h
  · next k hk =>
    split at h
    · cases h
    · next hd =>
      split at h
      · next f hf =>
        split at h
        · next he => exact ⟨k, hk, hd, by rw [hf, he], by cases h; rfl⟩
        · cases h
      · cases h
  · cases h

theorem issueFrame_eq {k : Nat} {pos : FramePos} {w : Word} {s : State} (hp : s.phase = .run k .issue)
    (hd : dueFn s k = none) (hf : scheduledFrame s k = .ok (pos, w)) :
    issueFrame pos w s = .next { startXfer w s with phase := .run k .wait } := by
  simp [issueFrame, hp, hd, hf]

/-- The evaluation of a MODIFY half's function (00_scope R14, D19) writes its value and nothing else. -/
theorem evaluateFn_next {g : ModFn} {s t : State} (h : evaluateFn g s = .next t) :
    ∃ u, modFnValue s g = .ok u ∧ t = { s with fnValue := some u } := by
  unfold evaluateFn at h
  split at h
  · next u hu => exact ⟨u, hu, by cases h; rfl⟩
  · cases h

theorem evaluateFn_eq {g : ModFn} {s : State} {u : Word} (h : modFnValue s g = .ok u) :
    evaluateFn g s = .next { s with fnValue := some u } := by
  simp [evaluateFn, h]

/-- A function is due where the entry that begins the WRITE half names it and its value is not there. -/
theorem dueFn_eq_some {s : State} {k : Nat} {g : ModFn} :
    dueFn s k = some g ↔ ∃ e, currentEntry s k = .ok e ∧ e.evaluates = some g ∧ s.fnValue = none := by
  unfold dueFn
  cases currentEntry s k with
  | error f => simp
  | ok e => cases hv : s.fnValue <;> simp

/-- No function is due once its value is there. -/
theorem dueFn_of_isSome {s : State} {k : Nat} (h : s.fnValue.isSome) : dueFn s k = none := by
  unfold dueFn
  obtain ⟨u, hu⟩ := Option.isSome_iff_exists.mp h
  cases currentEntry s k <;> simp [hu]

/-- No function is due at an entry that names none. -/
theorem dueFn_of_evaluates {s : State} {k : Nat} {e : Entry} (he : currentEntry s k = .ok e)
    (h : e.evaluates = none) : dueFn s k = none := by
  simp [dueFn, he, h]

/-- The payload a validated transaction keeps (R181). -/
def keepPayload (h : Handling) (p : Payload) (s : State) : State :=
  match h with
  | .keepAcc => { s with acc := some (zext p), fnValue := none }
  | .keepValue => { s with resValue := some (zext p) }
  | _ => s

@[simp] theorem keepPayload_reqOp (h : Handling) (p : Payload) (s : State) : (keepPayload h p s).reqOp = s.reqOp := by
  cases h <;> rfl

/-- `completeFrame` on an ignored frame (R163): only the outcome is recorded. -/
theorem completeFrame_ignore {k : Nat} {e : Entry} {r : Word} {s : State} (hp : s.phase = .run k .wait)
    (he : currentEntry s k = .ok e) (hh : e.handling = .ignore) :
    completeFrame r s = advance k (receiveFrame r s) := by
  simp [completeFrame, hp, he, hh]

/-- `completeFrame` on a validated frame (R161, R183). -/
theorem completeFrame_validated {k : Nat} {e : Entry} {r : Word} {s : State} (hp : s.phase = .run k .wait)
    (he : currentEntry s k = .ok e) (hh : e.handling ≠ .ignore) :
    completeFrame r s =
      match respValidate r with
      | .parityBad => raiseErr .parityError (receiveFrame r s)
      | .sensorFlag => raiseErr .sensorError (receiveFrame r s)
      | .good p => advance k (keepPayload e.handling p (receiveFrame r s)) := by
  cases hd : e.handling with
  | ignore => exact absurd hd hh
  | keepAcc =>
    simp only [completeFrame, hp, he, hd, validated, receiveFrame_rxw, need_some]
    cases respValidate r <;> rfl
  | keepValue =>
    simp only [completeFrame, hp, he, hd, validated, receiveFrame_rxw, need_some]
    cases respValidate r <;> rfl
  | discard =>
    simp only [completeFrame, hp, he, hd, validated, receiveFrame_rxw, need_some]
    cases respValidate r <;> rfl

/-- Everything `completeFrame` can do: go on, or raise. -/
theorem completeFrame_next {r : Word} {s t : State} (h : completeFrame r s = .next t) :
    ∃ k e, s.phase = .run k .wait ∧ currentEntry s k = .ok e ∧
      ((∃ p, advance k (keepPayload e.handling p (receiveFrame r s)) = .next t) ∨
       (∃ d, t = { clearWorking (receiveFrame r s) with results := .err d :: s.results, phase := .idle })) := by
  have hp : ∃ k, s.phase = .run k .wait := by
    unfold completeFrame at h
    split at h
    · next k hk => exact ⟨k, hk⟩
    · cases h
  obtain ⟨k, hp⟩ := hp
  have he : ∃ e, currentEntry s k = .ok e := by
    simp only [completeFrame, hp] at h
    split at h
    · cases h
    · next e he => exact ⟨e, he⟩
  obtain ⟨e, he⟩ := he
  refine ⟨k, e, hp, he, ?_⟩
  by_cases hh : e.handling = .ignore
  · rw [completeFrame_ignore hp he hh] at h
    exact .inl ⟨0, by simpa [keepPayload, hh] using h⟩
  · rw [completeFrame_validated hp he hh] at h
    split at h
    · rw [raiseErr_eq] at h
      exact .inr ⟨.parityError, by cases h; rfl⟩
    · rw [raiseErr_eq] at h
      exact .inr ⟨.sensorError, by cases h; rfl⟩
    · next p _ => exact .inl ⟨p, h⟩

/-- A failed transaction ends its operation (R194, R316). -/
theorem failTransaction_eq (e : TransportError) (s : State) :
    failTransaction e s = .next { clearWorking s with
      trace := recordAnswer (.fail e) s.trace, results := .err (.communication e) :: s.results, phase := .idle } := by
  simp [failTransaction, raiseErr_eq, clearWorking]

/-- Everything a request can do besides what it does at IDLE: be refused, or stay pending on its port (R353). -/
theorem whenIdle_next {s t : State} {a : Out} (h : whenIdle s a = .next t) :
    s.owned = true ∧ ((s.phase = .idle ∧ a = .next t) ∨ (∃ k sub, s.phase = .run k sub ∧ t = s)) := by
  unfold whenIdle at h
  split at h
  · cases h
  · next ho =>
    refine ⟨by simpa using ho, ?_⟩
    split at h
    · next hp => exact .inl ⟨hp, h⟩
    · cases h
    · next k sub hp => exact .inr ⟨k, sub, hp, by cases h; rfl⟩

theorem whenIdle_idle {s : State} {a : Out} (ho : s.owned = true) (hp : s.phase = .idle) :
    whenIdle s a = a := by
  simp [whenIdle, ho, hp]

/-- `accept` at an address (R118 (b), R183). -/
theorem acceptAt_next {op : Op} {a : Addr} {d : Option Word} {f : Option Fn} {s t : State}
    (h : acceptAt op a d f s = .next t) : ∃ r, registerAt s.cfg a = some r ∧ t = latch op (some r) d f s := by
  unfold acceptAt at h
  split at h
  · next r hr => exact ⟨r, hr, by cases h; rfl⟩
  · cases h

theorem acceptAt_eq {op : Op} {a : Addr} {d : Option Word} {f : Option Fn} {s : State} {r : Register}
    (h : registerAt s.cfg a = some r) : acceptAt op a d f s = .next (latch op (some r) d f s) := by
  simp [acceptAt, h]

/-- `accept` of a sensor operation (R118 (d), R183). -/
theorem acceptSensor_next {op : Op} {d : Option Word} {s t : State} (h : acceptSensor op d s = .next t) :
    (∀ r ∈ neededRegisters s.cfg op, (addrOf s.cfg r).isSome) ∧ t = latch op (portReg s) d (portFn s) s := by
  unfold acceptSensor at h
  split at h
  · cases h
  · next hn =>
    refine ⟨fun r hr => ?_, by cases h; rfl⟩
    have := List.find?_eq_none.mp hn r hr
    simpa [Option.isNone_iff_eq_none, Option.isSome_iff_ne_none] using this

theorem acceptSensor_eq {op : Op} {d : Option Word} {s : State}
    (h : ∀ r ∈ neededRegisters s.cfg op, (addrOf s.cfg r).isSome) :
    acceptSensor op d s = .next (latch op (portReg s) d (portFn s) s) := by
  have : (neededRegisters s.cfg op).find? (fun r => (addrOf s.cfg r).isNone) = none := by
    rw [List.find?_eq_none]
    intro r hr
    simpa [Option.isNone_iff_eq_none, Option.isSome_iff_ne_none] using h r hr
  simp [acceptSensor, this]

end Sys2Proof.Machine
end

