-- ==== Sys2Proof/Laws/Frames.lean ====
section
/-! SUPPORT. Frames bit by bit: packing and unpacking, the constructors, and parity as an exclusive or of bits. -/

namespace Sys2Proof.Machine

/-- `popcount` written out as a sum over the 16 bits. -/
theorem popcount_eq_sum (w : Word) :
    popcount w = (w.getLsbD 0).toNat + (w.getLsbD 1).toNat + (w.getLsbD 2).toNat + (w.getLsbD 3).toNat
      + (w.getLsbD 4).toNat + (w.getLsbD 5).toNat + (w.getLsbD 6).toNat + (w.getLsbD 7).toNat
      + (w.getLsbD 8).toNat + (w.getLsbD 9).toNat + (w.getLsbD 10).toNat + (w.getLsbD 11).toNat
      + (w.getLsbD 12).toNat + (w.getLsbD 13).toNat + (w.getLsbD 14).toNat + (w.getLsbD 15).toNat := by
  have h : List.range 16 = [0, 1, 2, 3, 4, 5, 6, 7, 8, 9, 10, 11, 12, 13, 14, 15] := by decide
  have c : ∀ (p : Nat → Bool) (i : Nat) (l : List Nat),
      ((i :: l).filter p).length = (p i).toNat + (l.filter p).length := by
    intro p i l
    cases hp : p i <;> simp [hp]; omega
  unfold popcount
  rw [h]
  simp only [c, List.filter_nil, List.length_nil]
  omega

/-- Bit 15 does not count in `popcount15`. -/
theorem popcount_eq_popcount15 (w : Word) : popcount w = popcount15 w + (w.getLsbD 15).toNat := by
  have b : ∀ i, i < 16 → (w &&& 0x7FFF#16).getLsbD i = (w.getLsbD i && decide (i ≠ 15)) := by
    intro i hi
    rw [BitVec.getLsbD_and]
    congr 1
    interval_cases i <;> decide
  unfold popcount15
  rw [popcount_eq_sum, popcount_eq_sum]
  simp only [b, Nat.reduceLT]
  simp

/-- `popcount15` depends on bits 14 to 0 only. -/
theorem popcount15_congr {v w : Word} (h : ∀ i, i < 15 → v.getLsbD i = w.getLsbD i) : popcount15 v = popcount15 w := by
  have : v &&& 0x7FFF#16 = w &&& 0x7FFF#16 := by
    apply BitVec.eq_of_getLsbD_eq
    intro i hi
    rw [BitVec.getLsbD_and, BitVec.getLsbD_and]
    by_cases h15 : i < 15
    · rw [h i h15]
    · have : i = 15 := by omega
      subst this
      simp
  unfold popcount15
  rw [this]

/-- The bits of a frame built by `withParity`. -/
theorem withParity_bit (body : Word) (i : Nat) :
    (withParity body).getLsbD i = (body.getLsbD i || (decide (i = 15) && parCompute body)) := by
  unfold withParity
  rw [BitVec.getLsbD_or, BitVec.getLsbD_shiftLeft, BitVec.getLsbD_setWidth, BitVec.getLsbD_ofBool]
  by_cases h : i = 15
  · subst h; simp
  · by_cases h16 : i < 16
    · have : i < 15 := by omega
      simp [h, this]
    · simp [h, h16]

/-- Bits 14 to 0 of a frame built by `withParity` are its body's. -/
theorem withParity_low {body : Word} {i : Nat} (hi : i < 15) : (withParity body).getLsbD i = body.getLsbD i := by
  rw [withParity_bit]
  have : i ≠ 15 := by omega
  simp [this]

/-- Bit 15 of a frame built by `withParity` is the parity of a body that leaves it clear. -/
theorem withParity_top {body : Word} (h : body.getLsbD 15 = false) :
    (withParity body).getLsbD 15 = parCompute body := by
  rw [withParity_bit, h]
  simp

/-- The bits of a packed frame. -/
theorem packFrame_bit (p e : Bool) (d : Payload) (i : Nat) :
    (packFrame p e d).getLsbD i =
      if i < 14 then d.getLsbD i else if i < 15 then (decide (i = 14) && e) else (decide (i = 15) && p) := by
  have h1 : (packFrame p e d).getLsbD i = if i < 14 then d.getLsbD i
      else (BitVec.ofBool p ++ BitVec.ofBool e).getLsbD (i - 14) :=
    BitVec.getLsbD_append (x := BitVec.ofBool p ++ BitVec.ofBool e) (y := d)
  rw [h1]
  split
  · rfl
  · have h2 : (BitVec.ofBool p ++ BitVec.ofBool e).getLsbD (i - 14) = if i - 14 < 1 then
        (BitVec.ofBool e).getLsbD (i - 14) else (BitVec.ofBool p).getLsbD (i - 14 - 1) :=
      BitVec.getLsbD_append (x := BitVec.ofBool p) (y := BitVec.ofBool e)
    rw [h2, BitVec.getLsbD_ofBool, BitVec.getLsbD_ofBool]
    by_cases h14 : i = 14
    · subst h14; simp
    · have ha : ¬ i - 14 < 1 := by omega
      have hb : ¬ i < 15 := by omega
      have hc : (i - 14 - 1 = 0) ↔ i = 15 := by omega
      simp [ha, hb, hc]

theorem packFrame_15 (p e : Bool) (d : Payload) : (packFrame p e d).getLsbD 15 = p := by
  rw [packFrame_bit]; simp

theorem packFrame_14 (p e : Bool) (d : Payload) : (packFrame p e d).getLsbD 14 = e := by
  rw [packFrame_bit]; simp

theorem packFrame_low {p e : Bool} {d : Payload} {i : Nat} (hi : i < 14) :
    (packFrame p e d).getLsbD i = d.getLsbD i := by
  rw [packFrame_bit, if_pos hi]

theorem payloadOf_bit {f : Word} {i : Nat} (hi : i < 14) : (payloadOf f).getLsbD i = f.getLsbD i := by
  unfold payloadOf
  rw [BitVec.getLsbD_extractLsb']
  simp [hi]

theorem payloadOf_packFrame (p e : Bool) (d : Payload) : payloadOf (packFrame p e d) = d := by
  apply BitVec.eq_of_getLsbD_eq
  intro i hi
  rw [payloadOf_bit hi, packFrame_low hi]

/-- A frame is its fields. -/
theorem packFrame_fields (f : Word) : packFrame (f.getLsbD 15) (f.getLsbD 14) (payloadOf f) = f := by
  apply BitVec.eq_of_getLsbD_eq
  intro i hi
  by_cases h : i < 14
  · rw [packFrame_low h, payloadOf_bit h]
  · have : i = 14 ∨ i = 15 := by omega
    rcases this with rfl | rfl
    · rw [packFrame_14]
    · rw [packFrame_15]

/-- The bits of a frame of two bytes (R60). -/
theorem ofWire_bit (b0 b1 : Byte) (i : Nat) :
    (ofWire b0 b1).getLsbD i = if i < 8 then b1.getLsbD i else b0.getLsbD (i - 8) :=
  BitVec.getLsbD_append (x := b0) (y := b1)

/-- The bytes on the wire are the frame (R60). -/
theorem ofWire_toWire (w : Word) : ofWire (toWire w).1 (toWire w).2 = w := by
  apply BitVec.eq_of_getLsbD_eq
  intro i hi
  rw [ofWire_bit]
  unfold toWire
  rw [BitVec.getLsbD_extractLsb', BitVec.getLsbD_extractLsb']
  split
  · next h => simp [h]
  · next h =>
    have h1 : i - 8 < 8 := by omega
    have h2 : 8 + (i - 8) = i := by omega
    simp only [h1, h2, decide_true, Bool.true_and]

theorem toWire_ofWire (b0 b1 : Byte) : toWire (ofWire b0 b1) = (b0, b1) := by
  unfold toWire
  congr 1
  · apply BitVec.eq_of_getLsbD_eq
    intro i hi
    rw [BitVec.getLsbD_extractLsb', ofWire_bit]
    have h1 : ¬ 8 + i < 8 := by omega
    have h2 : 8 + i - 8 = i := by omega
    simp only [hi, h1, h2, decide_true, Bool.true_and, if_false]
  · apply BitVec.eq_of_getLsbD_eq
    intro i hi
    rw [BitVec.getLsbD_extractLsb', ofWire_bit]
    simp [hi]

/-- The bits of a command frame's body (R144). -/
theorem commandBody_bit (a : Addr) (rd : Bool) (i : Nat) :
    (a.setWidth 16 ||| ((BitVec.ofBool rd).setWidth 16 <<< 14) : Word).getLsbD i =
      if i < 14 then a.getLsbD i else (decide (i = 14) && rd) := by
  rw [BitVec.getLsbD_or, BitVec.getLsbD_shiftLeft, BitVec.getLsbD_setWidth, BitVec.getLsbD_setWidth,
    BitVec.getLsbD_ofBool]
  by_cases h : i < 14
  · have : i < 16 := by omega
    simp [h, this]
  · have ha : a.getLsbD i = false := BitVec.getLsbD_of_ge a i (by omega)
    have hc : (i - 14 = 0) ↔ i = 14 := by omega
    by_cases h14 : i = 14
    · subst h14; simp
    · simp [h, ha, hc, h14]

/-- The bits of a command frame (R101, R144). -/
theorem mkCmd_bit {a : Addr} {rd : Bool} {i : Nat} (hi : i < 15) :
    (mkCmd a rd).getLsbD i = if i < 14 then a.getLsbD i else rd := by
  unfold mkCmd
  rw [withParity_low hi, commandBody_bit]
  by_cases h : i < 14
  · simp [h]
  · have : i = 14 := by omega
    simp [this]

theorem mkCmd_14 (a : Addr) (rd : Bool) : (mkCmd a rd).getLsbD 14 = rd := by
  rw [mkCmd_bit (by omega)]; simp

theorem payloadOf_mkCmd (a : Addr) (rd : Bool) : payloadOf (mkCmd a rd) = a := by
  apply BitVec.eq_of_getLsbD_eq
  intro i hi
  rw [payloadOf_bit hi, mkCmd_bit (by omega), if_pos hi]

/-- The bits of a data frame (R102, R145). -/
theorem mkData_bit {d : Word} {i : Nat} (hi : i < 15) :
    (mkData d).getLsbD i = (decide (i < 14) && d.getLsbD i) := by
  unfold mkData
  rw [withParity_low hi, BitVec.getLsbD_and]
  have hm : (0x3FFF#16).getLsbD i = decide (i < 14) := by interval_cases i <;> decide
  rw [hm, Bool.and_comm]

theorem mkData_14 (d : Word) : (mkData d).getLsbD 14 = false := by
  rw [mkData_bit (by omega)]; simp

end Sys2Proof.Machine
end

