-- ==== Sys2Proof/Laws/Step.lean ====
section
/-! SUPPORT. What one step does in each phase (spec 42_frame_sequencer R183), so that no proof unfolds fetch, decode and
dispatch again. -/

namespace Sys2Proof.Machine

/-! ### Decoding what the schedule sends -/

/-- The frame an entry sends: a command, or a data frame with bit 14 clear, or the NOP (R182). -/
theorem buildFrame_shape {s : State} {spec : FrameSpec} {pos : FramePos} {w : Word}
    (h : buildFrame s spec = .ok (pos, w)) :
    (pos = .command ∧ ∃ a rd, w = mkCmd a rd) ∨ (pos = .data ∧ ∃ d, w = mkData d) ∨ (pos = .nop ∧ w = mkNop) := by
  cases spec with
  | readCmd r =>
    cases ha : refAddr s r with
    | error f => simp [buildFrame, ha, bind, Except.bind] at h
    | ok a =>
      simp only [buildFrame, ha, bind, Except.bind, pure, Except.pure, Except.ok.injEq, Prod.mk.injEq] at h
      exact .inl ⟨h.1.symm, a, true, h.2.symm⟩
  | writeCmd r =>
    cases ha : refAddr s r with
    | error f => simp [buildFrame, ha, bind, Except.bind] at h
    | ok a =>
      simp only [buildFrame, ha, bind, Except.bind, pure, Except.pure, Except.ok.injEq, Prod.mk.injEq] at h
      exact .inl ⟨h.1.symm, a, false, h.2.symm⟩
  | data d =>
    cases hv : dataValue s d with
    | error f => simp [buildFrame, hv, bind, Except.bind] at h
    | ok v =>
      simp only [buildFrame, hv, bind, Except.bind, pure, Except.pure, Except.ok.injEq, Prod.mk.injEq] at h
      exact .inr (.inl ⟨h.1.symm, v, h.2.symm⟩)
  | nop =>
    simp only [buildFrame, Except.ok.injEq, Prod.mk.injEq] at h
    exact .inr (.inr ⟨h.1.symm, h.2.symm⟩)

theorem scheduledFrame_entry {s : State} {k : Nat} {f : FramePos × Word} (h : scheduledFrame s k = .ok f) :
    ∃ e, currentEntry s k = .ok e ∧ buildFrame s e.sends = .ok f := by
  unfold scheduledFrame at h
  split at h
  · next e he => exact ⟨e, he, h⟩
  · cases h

theorem scheduledFrame_shape {s : State} {k : Nat} {pos : FramePos} {w : Word}
    (h : scheduledFrame s k = .ok (pos, w)) :
    (pos = .command ∧ ∃ a rd, w = mkCmd a rd) ∨ (pos = .data ∧ ∃ d, w = mkData d) ∨ (pos = .nop ∧ w = mkNop) := by
  obtain ⟨e, -, he⟩ := scheduledFrame_entry h
  exact buildFrame_shape he

/-- A scheduled frame decodes by its place to a frame instruction that issues it (R114). -/
theorem exec_sent {s : State} {k : Nat} {pos : FramePos} {w : Word} (h : scheduledFrame s k = .ok (pos, w)) :
    ∃ i, decode (.sent pos w) = .ok i ∧ ∀ t, exec i t = issueFrame pos w t := by
  rcases scheduledFrame_shape h with ⟨rfl, -⟩ | ⟨rfl, d, rfl⟩ | ⟨rfl, rfl⟩
  · cases hb : w.getLsbD 14 with
    | true =>
      refine ⟨.cmdRd (w.getLsbD 15) (payloadOf w), by simp only [decode, decodeSent, hb, if_true], fun t => ?_⟩
      show issueFrame .command (packFrame (w.getLsbD 15) true (payloadOf w)) t = _
      rw [← hb, packFrame_fields]
    | false =>
      refine ⟨.cmdWr (w.getLsbD 15) (payloadOf w), by simp only [decode, decodeSent, hb]; rfl, fun t => ?_⟩
      show issueFrame .command (packFrame (w.getLsbD 15) false (payloadOf w)) t = _
      rw [← hb, packFrame_fields]
  · have hb := mkData_14 d
    refine ⟨.data ((mkData d).getLsbD 15) (payloadOf (mkData d)), ?_, fun t => ?_⟩
    · simp only [decode, decodeSent, hb]; rfl
    · show issueFrame .data (packFrame ((mkData d).getLsbD 15) false (payloadOf (mkData d))) t = _
      rw [← hb, packFrame_fields]
  · exact ⟨.nop, rfl, fun t => rfl⟩

/-- A received frame decodes to the RESP instruction that completes with it (R103, R119). -/
theorem exec_received (r : Word) :
    ∃ i, decode (.received r) = .ok i ∧ ∀ t, exec i t = completeFrame r t := by
  refine ⟨_, rfl, fun t => ?_⟩
  show completeFrame (packFrame (r.getLsbD 15) (r.getLsbD 14) (payloadOf r)) t = _
  rw [packFrame_fields]

/-! ### One step, by what is fetched -/

theorem step_instr {s t : State} {p : Presented} {i : Instr} (hf : fetch s = .instr p t) (hd : decode p = .ok i) :
    step s = exec i t := by
  simp [step, hf, hd]

theorem step_waiting {s t : State} (hf : fetch s = .waiting t) : step s = .next t := by
  simp [step, hf]

/-- The block's own step: what `step` does where the turn is the block's. -/
def blockStep (s : State) : Out :=
  match fetchBlock s with
  | .instr p t =>
    match decode p with
    | .ok i => exec i t
    | .error _ => .refused .undecodable
  | .transportFail e t => failTransaction e t
  | .evaluation g t => evaluateFn g t
  | .waiting t => .next t
  | .fault f => .fault f

theorem step_block {s : State} (h : s.turns = []) : step s = blockStep s := by
  simp only [step, fetch, h]
  rfl

theorem step_turn {s : State} {rest : List Turn} (h : s.turns = .block :: rest) :
    step s = blockStep { s with turns := rest } := by
  simp only [step, fetch, h]
  rfl

/-- The host's evaluation in its turn (R28, R358). -/
theorem step_evaluate {s : State} {port : CombPort} {w : Word} {side : List Word} {rest : List Turn} {i : Instr}
    (h : s.turns = .evaluate port w side :: rest) (hd : decode (.comb port w side) = .ok i) :
    step s = exec i { s with turns := rest } := by
  simp only [step, fetch, h, hd]

/-- `issue` (R183). -/
theorem blockStep_issue {s : State} {k : Nat} {pos : FramePos} {w : Word}
    (hp : s.phase = .run k .issue) (hdue : dueFn s k = none) (hf : scheduledFrame s k = .ok (pos, w)) :
    blockStep s = .next { startXfer w s with phase := .run k .wait } := by
  obtain ⟨i, hd, he⟩ := exec_sent hf
  have : fetchBlock s = .instr (.sent pos w) s := by simp [fetchBlock, hp, hdue, hf]
  simp only [blockStep, this, hd, he, issueFrame_eq hp hdue hf]

theorem step_issue {s : State} {k : Nat} {pos : FramePos} {w : Word} (ht : s.turns = [])
    (hp : s.phase = .run k .issue) (hdue : dueFn s k = none) (hf : scheduledFrame s k = .ok (pos, w)) :
    step s = .next { startXfer w s with phase := .run k .wait } := by
  rw [step_block ht, blockStep_issue hp hdue hf]

/-- The evaluation of a MODIFY half's function (00_scope R14, D19). -/
theorem blockStep_evaluation {s : State} {k : Nat} {g : ModFn} (hp : s.phase = .run k .issue)
    (hd : dueFn s k = some g) : blockStep s = evaluateFn g s := by
  have : fetchBlock s = .evaluation g s := by simp [fetchBlock, hp, hd]
  simp only [blockStep, this]

theorem step_evaluation {s : State} {k : Nat} {g : ModFn} (ht : s.turns = []) (hp : s.phase = .run k .issue)
    (hd : dueFn s k = some g) : step s = evaluateFn g s := by
  rw [step_block ht, blockStep_evaluation hp hd]

/-- `complete` with outcome Ok (R183). -/
theorem blockStep_received {s : State} {k : Nat} {b0 b1 : Byte} {rest : List Answer}
    (hp : s.phase = .run k .wait) (ha : s.answers = .ok b0 b1 :: rest) :
    blockStep s = completeFrame (ofWire b0 b1) { s with answers := rest } := by
  obtain ⟨i, hd, he⟩ := exec_received (ofWire b0 b1)
  have : fetchBlock s = .instr (.received (ofWire b0 b1)) { s with answers := rest } := by simp [fetchBlock, hp, ha]
  simp only [blockStep, this, hd, he]

theorem step_received {s : State} {k : Nat} {b0 b1 : Byte} {rest : List Answer} (ht : s.turns = [])
    (hp : s.phase = .run k .wait) (ha : s.answers = .ok b0 b1 :: rest) :
    step s = completeFrame (ofWire b0 b1) { s with answers := rest } := by
  rw [step_block ht, blockStep_received hp ha]

/-- `complete` with outcome Fail (R183, R194). -/
theorem blockStep_failed {s : State} {k : Nat} {e : TransportError} {rest : List Answer}
    (hp : s.phase = .run k .wait) (ha : s.answers = .fail e :: rest) :
    blockStep s = failTransaction e { s with answers := rest } := by
  have : fetchBlock s = .transportFail e { s with answers := rest } := by simp [fetchBlock, hp, ha]
  simp only [blockStep, this]

theorem step_failed {s : State} {k : Nat} {e : TransportError} {rest : List Answer} (ht : s.turns = [])
    (hp : s.phase = .run k .wait) (ha : s.answers = .fail e :: rest) :
    step s = failTransaction e { s with answers := rest } := by
  rw [step_block ht, blockStep_failed hp ha]

/-- No outcome: the state stays (R196, R330). -/
theorem blockStep_unanswered {s : State} {k : Nat}
    (hp : s.phase = .run k .wait) (ha : s.answers = []) :
    blockStep s = .next s := by
  have : fetchBlock s = .waiting s := by simp [fetchBlock, hp, ha]
  simp only [blockStep, this]

theorem step_unanswered {s : State} {k : Nat} (ht : s.turns = [])
    (hp : s.phase = .run k .wait) (ha : s.answers = []) :
    step s = .next s := by
  rw [step_block ht, blockStep_unanswered hp ha]

/-- `accept`, or a refusal (R183): the request at the head of the port. -/
theorem blockStep_request {s : State} {r : Request} {rest : List Request}
    (hp : s.phase = .idle ∨ s.phase = .released) (hr : s.reqPort = r :: rest) :
    blockStep s = exec (decodeRequest r.word r.fn) s := by
  have : fetchBlock s = .instr (.request r.word r.fn) s := by
    rcases hp with hp | hp <;> simp [fetchBlock, hp, hr]
  simp only [blockStep, this, decode]

theorem step_request {s : State} {r : Request} {rest : List Request} (ht : s.turns = [])
    (hp : s.phase = .idle ∨ s.phase = .released) (hr : s.reqPort = r :: rest) :
    step s = exec (decodeRequest r.word r.fn) s := by
  rw [step_block ht, blockStep_request hp hr]

/-- Nothing presented: the state stays (R51). -/
theorem blockStep_no_request {s : State}
    (hp : s.phase = .idle ∨ s.phase = .released) (hr : s.reqPort = []) :
    blockStep s = .next s := by
  have : fetchBlock s = .waiting s := by rcases hp with hp | hp <;> simp [fetchBlock, hp, hr]
  simp only [blockStep, this]

theorem step_no_request {s : State} (ht : s.turns = [])
    (hp : s.phase = .idle ∨ s.phase = .released) (hr : s.reqPort = []) :
    step s = .next s := by
  rw [step_block ht, blockStep_no_request hp hr]

/-! ### What is placed is what is fetched -/

/-- A request, a received frame or a function's words, once placed, are the next step's. -/
theorem fetch_place_request (w : BitVec 34) (fn : Fn) (s : State) :
    ∃ t, fetch (place (.request w fn) s) = .instr (.request w fn) t := ⟨_, rfl⟩

theorem fetch_place_received (f : Word) (s : State) :
    ∃ t, fetch (place (.received f) s) = .instr (.received f) t := by
  refine ⟨{ place (.received f) s with answers := s.answers }, ?_⟩
  show Fetched.instr (.received (ofWire (toWire f).1 (toWire f).2)) _ = _
  rw [ofWire_toWire]

theorem fetch_place_comb (port : CombPort) (w : Word) (side : List Word) (s : State) :
    fetch (place (.comb port w side) s) = .instr (.comb port w side) s := rfl

/-! ### Runs -/

@[simp] theorem run_zero (s : State) : run 0 s = .next s := rfl

theorem run_succ {n : Nat} {s t : State} (h : step s = .next t) : run (n + 1) s = run n t := by
  simp [run, h]

theorem run_add {m n : Nat} {s t : State} (h : run m s = .next t) : run (m + n) s = run n t := by
  induction m generalizing s with
  | zero => simp only [run_zero] at h; cases h; simp
  | succ m ih =>
    have : m + 1 + n = (m + n) + 1 := by omega
    rw [this]
    simp only [run] at h ⊢
    split at h
    · next u hu => exact ih h
    · cases h
    · cases h

end Sys2Proof.Machine
end

