-- ==== Sys2Proof/Laws/Operations.lean ====
section
/-! SUPPORT. How a run follows pseudo-code (spec 42_frame_sequencer R184 to R192): one lemma per kind of schedule entry,
from which a whole operation is put together entry by entry. -/

namespace Sys2Proof.Machine

/-! ### The address map -/

/-- The register at an address has that address: names in `REGMAP` do not repeat (R8). -/
theorem addrOf_registerAt {c : Config} {a : Addr} {r : Register} (hc : regmapOk c = true)
    (h : registerAt c a = some r) : addrOf c r = some a := by
  have hn : (c.regmap.map fun e => e.1).Nodup := by
    simp only [regmapOk, Bool.and_eq_true, decide_eq_true_eq] at hc
    exact hc.1.1
  have hn' : ((regmapOf c).map fun e => e.1).Nodup := by
    unfold regmapOf
    exact hn.sublist (List.Sublist.map _ List.filter_sublist)
  unfold registerAt at h
  unfold addrOf
  rw [Option.map_eq_some_iff] at h
  obtain ⟨⟨r', a'⟩, hf, rfl⟩ := h
  have hmem := List.mem_of_find?_eq_some hf
  have ha := List.find?_some hf
  simp only [decide_eq_true_eq] at ha
  subst ha
  have key : ∀ l : List (Register × Addr), (l.map fun e => e.1).Nodup → (r', a') ∈ l →
      l.find? (fun e => e.1 = r') = some (r', a') := by
    intro l
    induction l with
    | nil => intro _ h; cases h
    | cons x xs ih =>
      intro hnd hm
      rw [List.map_cons, List.nodup_cons] at hnd
      rcases List.mem_cons.mp hm with rfl | hm
      · simp
      · have : x.1 ≠ r' := fun he => hnd.1 (he ▸ List.mem_map_of_mem (f := fun e => e.1) hm)
        rw [List.find?_cons_of_neg (by simpa using this)]
        exact ih hnd.2 hm
  rw [key _ hn' hmem]
  rfl

/-! ### Pseudo-code -/

theorem thenP_assoc {α β γ : Type} (p : Proc α) (f : α → Proc β) (g : β → Proc γ) :
    thenP (thenP p f) g = thenP p fun a => thenP (f a) g := by
  funext ans tr
  simp only [thenP]
  rcases p ans tr with ⟨_ | _ | _, _, _⟩ <;> rfl

theorem thenP_return {α β : Type} (a : α) (f : α → Proc β) : thenP (returnP a) f = f a := rfl

/-- The tests of the pseudo-code are RESP.VALIDATE (R161, R184). -/
theorem validateP_eq (r : Word) (ans : List Answer) (tr : List Transaction) :
    validateP r ans tr = match respValidate r with
      | .parityBad => (.raised .parityError, ans, tr)
      | .sensorFlag => (.raised .sensorError, ans, tr)
      | .good p => (.value (zext p), ans, tr) := by
  have hz : r &&& 0x3FFF#16 = zext (payloadOf r) := by
    apply BitVec.eq_of_getLsbD_eq
    intro i hi
    have hm : (0x3FFF#16).getLsbD i = decide (i < 14) := by interval_cases i <;> decide
    rw [BitVec.getLsbD_and, hm]
    unfold zext
    rw [BitVec.getLsbD_setWidth]
    by_cases h : i < 14
    · rw [payloadOf_bit h]; simp [h, hi]
    · rw [BitVec.getLsbD_of_ge (payloadOf r) i (by omega)]; simp [h]
  unfold validateP respValidate parVerify errorFlag
  rcases Nat.mod_two_eq_zero_or_one (popcount r) with h | h
  · cases hb : r.getLsbD 14 <;> simp [h, hz]
  · simp [h]

/-! ### Runs that follow pseudo-code -/

/-- From `s`, within `n` steps, the machine ends as the pseudo-code `P` does, or waits for ever where `P` hangs. -/
def Follows (n : Nat) (s : State) (P : Proc (Option Word)) : Prop :=
  ∃ m ≤ n, ∃ t, run m s = .next t ∧
    match P s.answers s.trace with
    | (.value v, ans, tr) => t = endedState s ans tr (.ok v)
    | (.raised e, ans, tr) => t = endedState s ans tr (.err e)
    | (.hangs, ans, tr) => ans = [] ∧ (∃ k, t.phase = .run k .wait) ∧ t.answers = [] ∧ t.trace = tr ∧
        t.results = s.results ∧ step t = .next t

/-- The state after transaction `k` with an ignored or kept frame `r` (R183): the next entry. -/
def nextEntry (s : State) (k : Nat) (w r : Word) (b0 b1 : Byte) (rest : List Answer) : State :=
  { s with
    phase := .run (k + 1) .issue, txw := some w, rxw := some r, answers := rest,
    trace := transaction w (some (.ok b0 b1)) :: s.trace }

theorem issued_received (s : State) (w : Word) (k : Nat) (b0 b1 : Byte) (rest : List Answer) :
    receiveFrame (ofWire b0 b1) { startXfer w s with phase := .run k .wait, answers := rest } =
      { s with
        phase := .run k .wait, txw := some w, rxw := some (ofWire b0 b1), answers := rest,
        trace := transaction w (some (.ok b0 b1)) :: s.trace } := by
  simp only [receiveFrame, startXfer, toWire_ofWire, recordAnswer, transaction]

/-- Both steps of a transaction the transport answers with `Ok` (R183). -/
theorem run_answered {s : State} {k : Nat} {pos : FramePos} {w : Word} {b0 b1 : Byte} {rest : List Answer}
    (ht : s.turns = []) (hp : s.phase = .run k .issue) (hdue : dueFn s k = none)
    (hf : scheduledFrame s k = .ok (pos, w))
    (ha : s.answers = .ok b0 b1 :: rest) :
    run 2 s = completeFrame (ofWire b0 b1) { startXfer w s with phase := .run k .wait, answers := rest } := by
  rw [run_succ (step_issue ht hp hdue hf)]
  have h := step_received (s := { startXfer w s with phase := .run k .wait }) (rest := rest) ht rfl ha
  simp only [run]
  rw [h]
  cases completeFrame (ofWire b0 b1) { startXfer w s with phase := .run k .wait, answers := rest } <;> rfl

/-- Both steps of a transaction that fails (R194, R316). -/
theorem run_failed {s : State} {k : Nat} {pos : FramePos} {w : Word} {e : TransportError} {rest : List Answer}
    (ht : s.turns = []) (hp : s.phase = .run k .issue) (hdue : dueFn s k = none)
    (hf : scheduledFrame s k = .ok (pos, w))
    (ha : s.answers = .fail e :: rest) :
    run 2 s = .next (endedState s rest (transaction w (some (.fail e)) :: s.trace) (.err (.communication e))) := by
  rw [run_succ (step_issue ht hp hdue hf)]
  have h := step_failed (s := { startXfer w s with phase := .run k .wait }) (rest := rest) ht rfl ha
  simp only [run]
  rw [h, failTransaction_eq]
  rfl

/-- What an entry's transaction does to pseudo-code: fail, hang, or go on with the frame received. -/
theorem follows_xfer {n : Nat} {s : State} {k : Nat} {pos : FramePos} {w : Word} {f : Word → Proc (Option Word)}
    (ht : s.turns = []) (hp : s.phase = .run k .issue) (hdue : dueFn s k = none)
    (hf : scheduledFrame s k = .ok (pos, w))
    (h : ∀ b0 b1 rest, s.answers = .ok b0 b1 :: rest → ∃ m ≤ n, ∃ t, run (2 + m) s = .next t ∧
      match f (ofWire b0 b1) rest (transaction w (some (.ok b0 b1)) :: s.trace) with
      | (.value v, ans, tr) => t = endedState s ans tr (.ok v)
      | (.raised e, ans, tr) => t = endedState s ans tr (.err e)
      | (.hangs, ans, tr) => ans = [] ∧ (∃ k, t.phase = .run k .wait) ∧ t.answers = [] ∧ t.trace = tr ∧
          t.results = s.results ∧ step t = .next t) :
    Follows (n + 2) s (thenP (xferP w) f) := by
  match ha : s.answers with
  | [] =>
    refine ⟨1, by omega, { startXfer w s with phase := .run k .wait }, ?_, ?_⟩
    · rw [run_succ (step_issue ht hp hdue hf), run_zero]
    · simp only [thenP, xferP, ha]
      exact ⟨trivial, ⟨k, rfl⟩, ha, rfl, rfl, step_unanswered (k := k) ht rfl ha⟩
  | .fail e :: rest =>
    refine ⟨2, by omega, _, run_failed ht hp hdue hf ha, ?_⟩
    simp only [thenP, xferP, ha]
  | .ok b0 b1 :: rest =>
    obtain ⟨m, hm, t, hr, h⟩ := h b0 b1 rest ha
    refine ⟨2 + m, by omega, t, hr, ?_⟩
    simp only [thenP, xferP, ha]
    exact h

/-- The evaluation of a MODIFY half's function is a step of its own (00_scope R14, D19); the pseudo-code goes on. -/
theorem follows_evaluation {n : Nat} {s : State} {k : Nat} {g : ModFn} {u : Word} {P : Proc (Option Word)}
    (ht : s.turns = []) (hp : s.phase = .run k .issue) (hd : dueFn s k = some g) (hu : modFnValue s g = .ok u)
    (h : Follows n { s with fnValue := some u } P) : Follows (n + 1) s P := by
  obtain ⟨m, hm, t, hr, h⟩ := h
  refine ⟨m + 1, by omega, t, ?_, h⟩
  rw [run_succ ((step_evaluation ht hp hd).trans (evaluateFn_eq hu)), hr]

/-- An ignored transaction (R163): whatever arrives, the pseudo-code goes on. -/
theorem follows_ignored {n : Nat} {s : State} {k : Nat} {op : Op} {e : Entry} {pos : FramePos} {w : Word}
    {P : Proc (Option Word)} (ht : s.turns = []) (hp : s.phase = .run k .issue) (hop : s.reqOp = some op)
    (he : (schedule op)[k]? = some e) (hh : e.handling = .ignore) (hk : k + 1 < (schedule op).length)
    (hdue : dueFn s k = none) (hf : scheduledFrame s k = .ok (pos, w))
    (h : ∀ b0 b1 rest, Follows n (nextEntry s k w (ofWire b0 b1) b0 b1 rest) P) :
    Follows (n + 2) s (thenP (xferP w) fun _ => P) := by
  refine follows_xfer ht hp hdue hf fun b0 b1 rest ha => ?_
  obtain ⟨m, hm, t, hr, h⟩ := h b0 b1 rest
  refine ⟨m, hm, t, ?_, h⟩
  have h2 : run 2 s = .next (nextEntry s k w (ofWire b0 b1) b0 b1 rest) := by
    rw [run_answered ht hp hdue hf ha, completeFrame_ignore (e := e) rfl (by simp [currentEntry, hop, he]) hh,
      issued_received]
    exact advance_goesOn (op := op) hop hk
  rw [run_add h2, hr]

/-- A validated transaction that is not the last (R181, R183): raise, or keep the payload and go on. -/
theorem follows_validated {n : Nat} {s : State} {k : Nat} {op : Op} {e : Entry} {pos : FramePos} {w : Word}
    {f : Word → Proc (Option Word)} (ht : s.turns = []) (hp : s.phase = .run k .issue) (hop : s.reqOp = some op)
    (he : (schedule op)[k]? = some e) (hh : e.handling ≠ .ignore) (hk : k + 1 < (schedule op).length)
    (hdue : dueFn s k = none) (hf : scheduledFrame s k = .ok (pos, w))
    (h : ∀ b0 b1 rest p,
      Follows n (keepPayload e.handling p (nextEntry s k w (ofWire b0 b1) b0 b1 rest)) (f (zext p))) :
    Follows (n + 2) s (thenP (xferP w) fun r => thenP (validateP r) f) := by
  refine follows_xfer ht hp hdue hf fun b0 b1 rest ha => ?_
  have h2 := run_answered ht hp hdue hf ha
  rw [completeFrame_validated (e := e) rfl (by simp [currentEntry, hop, he]) hh, issued_received] at h2
  simp only [thenP, validateP_eq]
  cases hv : respValidate (ofWire b0 b1) with
  | parityBad =>
    rw [hv] at h2
    exact ⟨0, by omega, _, h2.trans (raiseErr_eq _ _), rfl⟩
  | sensorFlag =>
    rw [hv] at h2
    exact ⟨0, by omega, _, h2.trans (raiseErr_eq _ _), rfl⟩
  | good p =>
    obtain ⟨m, hm, t, hr, h⟩ := h b0 b1 rest p
    rw [hv] at h2
    refine ⟨m, hm, t, ?_, ?_⟩
    · have h3 : run 2 s = .next (keepPayload e.handling p (nextEntry s k w (ofWire b0 b1) b0 b1 rest)) := by
        rw [h2]
        show advance k (keepPayload _ _ _) = _
        refine (advance_goesOn (op := op) ?_ hk).trans ?_
        · rw [keepPayload_reqOp]; exact hop
        · cases e.handling <;> rfl
      rw [run_add h3, hr]
    · cases hd : e.handling <;> rw [hd] at h <;> exact h

/-- The last transaction (R181, R183 finish): raise, or the operation's value. -/
theorem follows_last {s : State} {k : Nat} {op : Op} {e : Entry} {pos : FramePos} {w : Word} {g : Word → Option Word}
    (ht : s.turns = []) (hp : s.phase = .run k .issue) (hop : s.reqOp = some op)
    (he : (schedule op)[k]? = some e) (hh : e.handling ≠ .ignore) (hk : k + 1 = (schedule op).length)
    (hdue : dueFn s k = none) (hf : scheduledFrame s k = .ok (pos, w))
    (h : ∀ t p, t.cfg = s.cfg → t.acc = s.acc → finishValue op (keepPayload e.handling p t) = .ok (g (zext p))) :
    Follows 2 s (thenP (xferP w) fun r => thenP (validateP r) fun x => returnP (g x)) := by
  refine follows_xfer (n := 0) ht hp hdue hf fun b0 b1 rest ha => ?_
  have h2 := run_answered ht hp hdue hf ha
  rw [completeFrame_validated (e := e) rfl (by simp [currentEntry, hop, he]) hh, issued_received] at h2
  simp only [thenP, validateP_eq]
  cases hv : respValidate (ofWire b0 b1) with
  | parityBad =>
    rw [hv] at h2
    exact ⟨0, by omega, _, h2.trans (raiseErr_eq _ _), rfl⟩
  | sensorFlag =>
    rw [hv] at h2
    exact ⟨0, by omega, _, h2.trans (raiseErr_eq _ _), rfl⟩
  | good p =>
    rw [hv] at h2
    refine ⟨0, by omega, _, ?_, rfl⟩
    rw [h2]
    have hfin := h { s with
      phase := .run k .wait, txw := some w, rxw := some (ofWire b0 b1), answers := rest,
      trace := transaction w (some (.ok b0 b1)) :: s.trace } p rfl rfl
    show advance k (keepPayload _ _ _) = _
    refine (advance_finishes (op := op) ?_ hk).trans ((finish_eq hfin).trans ?_)
    · rw [keepPayload_reqOp]; exact hop
    · cases e.handling <;> rfl

end Sys2Proof.Machine
end

