-- ==== Sys2Proof/Laws/Moves.lean ====
section
/-! SUPPORT. Everything one step can do, said once (spec 42_frame_sequencer R183, 10_state R28): later proofs about all
steps go by cases of `Moves` and never unfold `step`. -/

namespace Sys2Proof.Machine

/-! ### What an instruction of each port can answer -/

theorem noSide_ok {i j : Instr} {side : List Word} (h : noSide j side = .ok i) : i = j := by
  cases side with
  | nil => cases h; rfl
  | cons x xs => cases h

theorem oneSide_ok {i : Instr} {j : Word → Instr} {side : List Word} (h : oneSide j side = .ok i) :
    ∃ x, i = j x := by
  match side with
  | [x] => cases h; exact ⟨x, rfl⟩
  | [] => cases h
  | _ :: _ :: _ => cases h

theorem fldGetSide_ok {w : Word} {i : Instr} {side : List Word} (h : fldGetSide w side = .ok i) :
    ∃ hi lo, i = .fldGet w hi lo := by
  match side with
  | [hi, lo] =>
    simp only [fldGetSide] at h
    split at h
    · next a b _ => cases h; exact ⟨a, b, rfl⟩
    · cases h
  | [] => cases h
  | [_] => cases h
  | _ :: _ :: _ :: _ => cases h

theorem fldSetSide_ok {w : Word} {i : Instr} {side : List Word} (h : fldSetSide w side = .ok i) :
    ∃ hi lo x, i = .fldSet w hi lo x := by
  match side with
  | [hi, lo, x] =>
    simp only [fldSetSide] at h
    split at h
    · next a b _ => cases h; exact ⟨a, b, x, rfl⟩
    · cases h
  | [] => cases h
  | [_] => cases h
  | [_, _] => cases h
  | _ :: _ :: _ :: _ :: _ => cases h

/-- A combinational function answers with a value on its port and nothing else (R28, R30). -/
theorem exec_comb {port : CombPort} {w : Word} {side : List Word} {i : Instr} {s t : State}
    (hd : decode (.comb port w side) = .ok i) (h : exec i s = .next t) :
    ∃ v, t = { s with outs := ⟨port, v⟩ :: s.outs } := by
  have fld : ∀ {c : Prop} [Decidable c] {x : Value}, (if c then emit port x s else .refused .fieldPosition) = .next t →
      ∃ v, t = { s with outs := ⟨port, v⟩ :: s.outs } := by
    intro c _ x h
    split at h
    · exact ⟨x, by cases h; rfl⟩
    · cases h
  have none : ∀ {j : Instr}, noSide j side = .ok i → (∀ u, exec j s = .next u → ∃ v, u = { s with
      outs := ⟨port, v⟩ :: s.outs }) → ∃ v, t = { s with outs := ⟨port, v⟩ :: s.outs } := by
    intro j hn hj
    rw [noSide_ok hn] at h
    exact hj t h
  have one : ∀ {j : Word → Instr}, oneSide j side = .ok i → (∀ x u, exec (j x) s = .next u → ∃ v, u = { s with
      outs := ⟨port, v⟩ :: s.outs }) → ∃ v, t = { s with outs := ⟨port, v⟩ :: s.outs } := by
    intro j hn hj
    obtain ⟨x, rfl⟩ := oneSide_ok hn
    exact hj x t h
  cases port
  case fldGet =>
    obtain ⟨hi, lo, rfl⟩ := fldGetSide_ok hd
    exact fld h
  case fldSet =>
    obtain ⟨hi, lo, x, rfl⟩ := fldSetSide_ok hd
    exact fld h
  all_goals first
    | exact none hd fun u hu => by cases hu; exact ⟨_, rfl⟩
    | exact one hd fun x u hu => by cases hu; exact ⟨_, rfl⟩

/-- What lets an operation be accepted, `reg` being the register at the address on the port (R118, R183). -/
def acceptable (c : Config) (op : Op) (reg : Option Register) : Prop :=
  match op with
  | .read | .write | .modify => reg.isSome
  | .release => False
  | op => ∀ r ∈ neededRegisters c op, (addrOf c r).isSome

/-- A request on its port answers only at IDLE with the transport owned: accepted and latched whole, or released (R183,
R278, 20_memory R82). -/
theorem exec_request {r : Request} {rest : List Request} {s t : State} (hr : s.reqPort = r :: rest)
    (hp : s.phase = .idle ∨ s.phase = .released) (h : exec (decodeRequest r.word r.fn) s = .next t) :
    s.phase = .idle ∧ s.owned = true ∧
      ((∃ op, acceptable s.cfg op (registerAt s.cfg (requestAddr r.word)) ∧
          t = latch op (registerAt s.cfg (requestAddr r.word)) (some (requestData r.word)) (some r.fn) s) ∨
       t = { clearWorking s with
          reqPort := rest, owned := false, results := .ok none :: s.results, phase := .released }) := by
  have hreg : portReg s = registerAt s.cfg (requestAddr r.word) := by simp [portReg, hr]
  have hdata : portWdata s = some (requestData r.word) := by simp [portWdata, hr]
  have hfn : portFn s = some r.fn := by simp [portFn, hr]
  have idle : ∀ {a : Out}, whenIdle s a = .next t → s.phase = .idle ∧ s.owned = true ∧ a = .next t := by
    intro a h
    obtain ⟨ho, ⟨hi, h⟩ | ⟨k, sub, hr, -⟩⟩ := whenIdle_next h
    · exact ⟨hi, ho, h⟩
    · rcases hp with hp | hp <;> rw [hp] at hr <;> cases hr
  have sensor : ∀ {op : Op}, whenIdle s (acceptSensor op (some (requestData r.word)) s) = .next t →
      (op ≠ .read ∧ op ≠ .write ∧ op ≠ .modify ∧ op ≠ .release) →
      s.phase = .idle ∧ s.owned = true ∧ ((∃ op, acceptable s.cfg op (registerAt s.cfg (requestAddr r.word)) ∧
          t = latch op (registerAt s.cfg (requestAddr r.word)) (some (requestData r.word)) (some r.fn) s) ∨
       t = { clearWorking s with
          reqPort := rest, owned := false, results := .ok none :: s.results, phase := .released }) := by
    intro op h ho
    obtain ⟨h1, h2, h3⟩ := idle h
    obtain ⟨h4, rfl⟩ := acceptSensor_next h3
    rw [hreg, hfn]
    refine ⟨h1, h2, .inl ⟨op, ?_, rfl⟩⟩
    cases op <;> simp_all [acceptable]
  unfold decodeRequest at h
  split at h
  · obtain ⟨h1, h2, h3⟩ := idle h
    obtain ⟨g, hg, rfl⟩ := acceptAt_next h3
    rw [hdata, hfn, ← hg]
    exact ⟨h1, h2, .inl ⟨.read, Option.isSome_iff_exists.mpr ⟨g, hg⟩, rfl⟩⟩
  · obtain ⟨h1, h2, h3⟩ := idle h
    obtain ⟨g, hg, rfl⟩ := acceptAt_next h3
    rw [hfn, ← hg]
    exact ⟨h1, h2, .inl ⟨.write, Option.isSome_iff_exists.mpr ⟨g, hg⟩, rfl⟩⟩
  · obtain ⟨h1, h2, h3⟩ := idle h
    obtain ⟨g, hg, rfl⟩ := acceptAt_next h3
    rw [hdata, ← hg]
    exact ⟨h1, h2, .inl ⟨.modify, Option.isSome_iff_exists.mpr ⟨g, hg⟩, rfl⟩⟩
  · exact sensor (op := .angle) (hdata ▸ h) (by simp)
  · exact sensor (op := .angleDeg) (hdata ▸ h) (by simp)
  · exact sensor (op := .magnitude) (hdata ▸ h) (by simp)
  · exact sensor (op := .diag) (hdata ▸ h) (by simp)
  · exact sensor (op := .clrerr) (hdata ▸ h) (by simp)
  · exact sensor (op := .zposGet) (hdata ▸ h) (by simp)
  · exact sensor (op := .zposSet) h (by simp)
  · obtain ⟨h1, h2, h3⟩ := idle h
    rw [endOperation_writeOk] at h3
    refine ⟨h1, h2, .inr ?_⟩
    cases h3
    simp [clearWorking, hr]
  all_goals cases h

/-! ### The block's moves -/

/-- The state after a transaction that goes on keeps what `keepPayload` does not name (R183). -/
def continued (s : State) (k : Nat) (e : Entry) (p : Payload) (b0 b1 : Byte) (rest : List Answer) : State :=
  keepPayload e.handling p { s with
    phase := .run (k + 1) .issue, rxw := some (ofWire b0 b1), answers := rest,
    trace := recordAnswer (.ok b0 b1) s.trace }

@[simp] theorem continued_cfg (s : State) (k : Nat) (e : Entry) (p : Payload) (b0 b1 : Byte) (rest : List Answer) :
    (continued s k e p b0 b1 rest).cfg = s.cfg := by
  unfold continued; cases e.handling <;> rfl

@[simp] theorem continued_owned (s : State) (k : Nat) (e : Entry) (p : Payload) (b0 b1 : Byte) (rest : List Answer) :
    (continued s k e p b0 b1 rest).owned = s.owned := by
  unfold continued; cases e.handling <;> rfl

@[simp] theorem continued_reqOp (s : State) (k : Nat) (e : Entry) (p : Payload) (b0 b1 : Byte) (rest : List Answer) :
    (continued s k e p b0 b1 rest).reqOp = s.reqOp := by
  unfold continued; cases e.handling <;> rfl

@[simp] theorem continued_reqReg (s : State) (k : Nat) (e : Entry) (p : Payload) (b0 b1 : Byte) (rest : List Answer) :
    (continued s k e p b0 b1 rest).reqReg = s.reqReg := by
  unfold continued; cases e.handling <;> rfl

@[simp] theorem continued_reqWdata (s : State) (k : Nat) (e : Entry) (p : Payload) (b0 b1 : Byte) (rest : List Answer) :
    (continued s k e p b0 b1 rest).reqWdata = s.reqWdata := by
  unfold continued; cases e.handling <;> rfl

@[simp] theorem continued_reqFn (s : State) (k : Nat) (e : Entry) (p : Payload) (b0 b1 : Byte) (rest : List Answer) :
    (continued s k e p b0 b1 rest).reqFn = s.reqFn := by
  unfold continued; cases e.handling <;> rfl

@[simp] theorem continued_txw (s : State) (k : Nat) (e : Entry) (p : Payload) (b0 b1 : Byte) (rest : List Answer) :
    (continued s k e p b0 b1 rest).txw = s.txw := by
  unfold continued; cases e.handling <;> rfl

@[simp] theorem continued_resStatus (s : State) (k : Nat) (e : Entry) (p : Payload) (b0 b1 : Byte) (rest : List Answer) :
    (continued s k e p b0 b1 rest).resStatus = s.resStatus := by
  unfold continued; cases e.handling <;> rfl

@[simp] theorem continued_resHasValue (s : State) (k : Nat) (e : Entry) (p : Payload) (b0 b1 : Byte) (rest : List Answer) :
    (continued s k e p b0 b1 rest).resHasValue = s.resHasValue := by
  unfold continued; cases e.handling <;> rfl

@[simp] theorem continued_resErr (s : State) (k : Nat) (e : Entry) (p : Payload) (b0 b1 : Byte) (rest : List Answer) :
    (continued s k e p b0 b1 rest).resErr = s.resErr := by
  unfold continued; cases e.handling <;> rfl

@[simp] theorem continued_reqPort (s : State) (k : Nat) (e : Entry) (p : Payload) (b0 b1 : Byte) (rest : List Answer) :
    (continued s k e p b0 b1 rest).reqPort = s.reqPort := by
  unfold continued; cases e.handling <;> rfl

@[simp] theorem continued_turns (s : State) (k : Nat) (e : Entry) (p : Payload) (b0 b1 : Byte) (rest : List Answer) :
    (continued s k e p b0 b1 rest).turns = s.turns := by
  unfold continued; cases e.handling <;> rfl

@[simp] theorem continued_results (s : State) (k : Nat) (e : Entry) (p : Payload) (b0 b1 : Byte) (rest : List Answer) :
    (continued s k e p b0 b1 rest).results = s.results := by
  unfold continued; cases e.handling <;> rfl

@[simp] theorem continued_outs (s : State) (k : Nat) (e : Entry) (p : Payload) (b0 b1 : Byte) (rest : List Answer) :
    (continued s k e p b0 b1 rest).outs = s.outs := by
  unfold continued; cases e.handling <;> rfl

@[simp] theorem continued_phase (s : State) (k : Nat) (e : Entry) (p : Payload) (b0 b1 : Byte) (rest : List Answer) :
    (continued s k e p b0 b1 rest).phase = .run (k + 1) .issue := by
  unfold continued; cases e.handling <;> rfl

@[simp] theorem continued_rxw (s : State) (k : Nat) (e : Entry) (p : Payload) (b0 b1 : Byte) (rest : List Answer) :
    (continued s k e p b0 b1 rest).rxw = some (ofWire b0 b1) := by
  unfold continued; cases e.handling <;> rfl

@[simp] theorem continued_answers (s : State) (k : Nat) (e : Entry) (p : Payload) (b0 b1 : Byte) (rest : List Answer) :
    (continued s k e p b0 b1 rest).answers = rest := by
  unfold continued; cases e.handling <;> rfl

@[simp] theorem continued_trace (s : State) (k : Nat) (e : Entry) (p : Payload) (b0 b1 : Byte) (rest : List Answer) :
    (continued s k e p b0 b1 rest).trace = recordAnswer (.ok b0 b1) s.trace := by
  unfold continued; cases e.handling <;> rfl

@[simp] theorem continued_acc (s : State) (k : Nat) (e : Entry) (p : Payload) (b0 b1 : Byte) (rest : List Answer) :
    (continued s k e p b0 b1 rest).acc = if e.handling = .keepAcc then some (zext p) else s.acc := by
  unfold continued; cases e.handling <;> rfl

@[simp] theorem continued_fnValue (s : State) (k : Nat) (e : Entry) (p : Payload) (b0 b1 : Byte) (rest : List Answer) :
    (continued s k e p b0 b1 rest).fnValue = if e.handling = .keepAcc then none else s.fnValue := by
  unfold continued; cases e.handling <;> rfl

@[simp] theorem continued_resValue (s : State) (k : Nat) (e : Entry) (p : Payload) (b0 b1 : Byte) (rest : List Answer) :
    (continued s k e p b0 b1 rest).resValue = if e.handling = .keepValue then some (zext p) else s.resValue := by
  unfold continued; cases e.handling <;> rfl

/-- The moves of the block (R183): it waits, accepts or releases at IDLE, evaluates a function, issues, and completes with a failure, a raise,
the next entry or the end of the operation. -/
inductive BlockMoves (s : State) : State → Prop
  | waits (h : (∃ k, s.phase = .run k .wait ∧ s.answers = []) ∨
        ((s.phase = .idle ∨ s.phase = .released) ∧ s.reqPort = [])) : BlockMoves s s
  | accepts (r : Request) (rest : List Request) (op : Op)
      (hp : s.phase = .idle) (ho : s.owned = true) (hr : s.reqPort = r :: rest)
      (ha : acceptable s.cfg op (registerAt s.cfg (requestAddr r.word))) :
      BlockMoves s
        (latch op (registerAt s.cfg (requestAddr r.word)) (some (requestData r.word)) (some r.fn) s)
  | releases (r : Request) (rest : List Request) (hp : s.phase = .idle) (ho : s.owned = true)
      (hr : s.reqPort = r :: rest) :
      BlockMoves s { clearWorking s with
        reqPort := rest, owned := false, results := .ok none :: s.results, phase := .released }
  | applies (k : Nat) (g : ModFn) (u : Word) (hp : s.phase = .run k .issue) (hd : dueFn s k = some g)
      (hu : modFnValue s g = .ok u) :
      BlockMoves s { s with fnValue := some u }
  | issues (k : Nat) (pos : FramePos) (w : Word) (hp : s.phase = .run k .issue) (hd : dueFn s k = none)
      (hf : scheduledFrame s k = .ok (pos, w)) :
      BlockMoves s { startXfer w s with phase := .run k .wait }
  | fails (k : Nat) (e : TransportError) (rest : List Answer) (hp : s.phase = .run k .wait)
      (ha : s.answers = .fail e :: rest) :
      BlockMoves s (endedState s rest (recordAnswer (.fail e) s.trace) (.err (.communication e)))
  | raises (k : Nat) (b0 b1 : Byte) (rest : List Answer) (e : Entry) (d : DriverError) (hp : s.phase = .run k .wait)
      (ha : s.answers = .ok b0 b1 :: rest) (he : currentEntry s k = .ok e) :
      BlockMoves s (endedState s rest (recordAnswer (.ok b0 b1) s.trace) (.err d))
  | continues (k : Nat) (b0 b1 : Byte) (rest : List Answer) (op : Op) (e : Entry) (p : Payload)
      (hp : s.phase = .run k .wait) (ha : s.answers = .ok b0 b1 :: rest) (hop : s.reqOp = some op)
      (he : (schedule op)[k]? = some e) (hk : k + 1 < (schedule op).length) :
      BlockMoves s (continued s k e p b0 b1 rest)
  | finishes (k : Nat) (b0 b1 : Byte) (rest : List Answer) (op : Op) (v : Option Word)
      (hp : s.phase = .run k .wait) (ha : s.answers = .ok b0 b1 :: rest) (hop : s.reqOp = some op)
      (hk : k + 1 = (schedule op).length) :
      BlockMoves s (endedState s rest (recordAnswer (.ok b0 b1) s.trace) (.ok v))

/-- The state once its turn is taken. -/
def popTurn (s : State) : State := { s with turns := s.turns.tail }

@[simp] theorem popTurn_cfg (s : State) : (popTurn s).cfg = s.cfg := rfl

@[simp] theorem popTurn_phase (s : State) : (popTurn s).phase = s.phase := rfl

@[simp] theorem popTurn_owned (s : State) : (popTurn s).owned = s.owned := rfl

@[simp] theorem popTurn_reqOp (s : State) : (popTurn s).reqOp = s.reqOp := rfl

@[simp] theorem popTurn_reqReg (s : State) : (popTurn s).reqReg = s.reqReg := rfl

@[simp] theorem popTurn_reqWdata (s : State) : (popTurn s).reqWdata = s.reqWdata := rfl

@[simp] theorem popTurn_reqFn (s : State) : (popTurn s).reqFn = s.reqFn := rfl

@[simp] theorem popTurn_txw (s : State) : (popTurn s).txw = s.txw := rfl

@[simp] theorem popTurn_rxw (s : State) : (popTurn s).rxw = s.rxw := rfl

@[simp] theorem popTurn_acc (s : State) : (popTurn s).acc = s.acc := rfl

@[simp] theorem popTurn_fnValue (s : State) : (popTurn s).fnValue = s.fnValue := rfl

@[simp] theorem popTurn_resStatus (s : State) : (popTurn s).resStatus = s.resStatus := rfl

@[simp] theorem popTurn_resHasValue (s : State) : (popTurn s).resHasValue = s.resHasValue := rfl

@[simp] theorem popTurn_resValue (s : State) : (popTurn s).resValue = s.resValue := rfl

@[simp] theorem popTurn_resErr (s : State) : (popTurn s).resErr = s.resErr := rfl

@[simp] theorem popTurn_reqPort (s : State) : (popTurn s).reqPort = s.reqPort := rfl

@[simp] theorem popTurn_answers (s : State) : (popTurn s).answers = s.answers := rfl

@[simp] theorem popTurn_trace (s : State) : (popTurn s).trace = s.trace := rfl

@[simp] theorem popTurn_results (s : State) : (popTurn s).results = s.results := rfl

@[simp] theorem popTurn_outs (s : State) : (popTurn s).outs = s.outs := rfl

/-- The moves of a step: the host's evaluation in its turn, or the block's move. -/
inductive Moves (s : State) : State → Prop
  | evaluates (port : CombPort) (w : Word) (side : List Word) (rest : List Turn) (v : Value)
      (ht : s.turns = .evaluate port w side :: rest) :
      Moves s { s with turns := rest, outs := ⟨port, v⟩ :: s.outs }
  | block (t : State) (ht : s.turns = [] ∨ ∃ rest, s.turns = .block :: rest)
      (h : BlockMoves (popTurn s) t) : Moves s t

theorem currentEntry_ok {s : State} {k : Nat} {e : Entry} (h : currentEntry s k = .ok e) :
    ∃ op, s.reqOp = some op ∧ (schedule op)[k]? = some e := by
  unfold currentEntry at h
  split at h
  · cases h
  · next op hop =>
    split at h
    · next e' he => cases h; exact ⟨op, need_eq_ok.mp hop, he⟩
    · cases h

theorem schedule_lt {op : Op} {k : Nat} {e : Entry} (h : (schedule op)[k]? = some e) : k < (schedule op).length :=
  (List.getElem?_eq_some_iff.mp h).1

/-- Completing a received frame is one of three of the block's moves. -/
theorem completeFrame_moves {s t : State} {k : Nat} {b0 b1 : Byte} {rest : List Answer} (hp : s.phase = .run k .wait)
    (ha : s.answers = .ok b0 b1 :: rest)
    (h : completeFrame (ofWire b0 b1) { s with answers := rest } = .next t) : BlockMoves s t := by
  have hrec : receiveFrame (ofWire b0 b1) { s with answers := rest } = { s with
      answers := rest, rxw := some (ofWire b0 b1), trace := recordAnswer (.ok b0 b1) s.trace } := by
    simp only [receiveFrame, toWire_ofWire]
  obtain ⟨k', e, hp', he, h⟩ := completeFrame_next h
  have hk : k' = k := by
    have : s.phase = .run k' .wait := hp'
    rw [hp] at this; cases this; rfl
  subst hk
  have he : currentEntry s k' = .ok e := he
  obtain ⟨op, hop, hs⟩ := currentEntry_ok he
  rw [hrec] at h
  rcases h with ⟨p, h⟩ | ⟨d, rfl⟩
  · obtain ⟨op', hop', h⟩ := advance_next h
    rw [keepPayload_reqOp] at hop'
    have : op' = op := by
      have : s.reqOp = some op' := hop'
      rw [hop] at this; cases this; rfl
    subst this
    rcases h with ⟨hk, rfl⟩ | ⟨hk, v, -, rfl⟩
    · have : { keepPayload e.handling p { s with
            answers := rest, rxw := some (ofWire b0 b1), trace := recordAnswer (.ok b0 b1) s.trace } with
            phase := .run (k' + 1) .issue } = keepPayload e.handling p { s with
            phase := .run (k' + 1) .issue, rxw := some (ofWire b0 b1), answers := rest,
            trace := recordAnswer (.ok b0 b1) s.trace } := by
        cases e.handling <;> rfl
      rw [this]
      exact .continues k' b0 b1 rest op' e p hp ha hop hs hk
    · have : { clearWorking (keepPayload e.handling p { s with
            answers := rest, rxw := some (ofWire b0 b1), trace := recordAnswer (.ok b0 b1) s.trace }) with
            results := .ok v :: (keepPayload e.handling p { s with
              answers := rest, rxw := some (ofWire b0 b1), trace := recordAnswer (.ok b0 b1) s.trace }).results,
            phase := .idle } = endedState s rest (recordAnswer (.ok b0 b1) s.trace) (.ok v) := by
        cases e.handling <;> rfl
      rw [this]
      exact .finishes k' b0 b1 rest op' v hp ha hop (by have := schedule_lt hs; omega)
  · exact .raises k' b0 b1 rest e d hp ha he

/-- Everything the block's step can do. -/
theorem blockStep_moves {s t : State} (h : blockStep s = .next t) : BlockMoves s t := by
  match hp : s.phase with
  | .run k .issue =>
    cases hd : dueFn s k with
    | some g =>
      rw [blockStep_evaluation hp hd] at h
      obtain ⟨u, hu, rfl⟩ := evaluateFn_next h
      exact .applies k g u hp hd hu
    | none =>
      cases hf : scheduledFrame s k with
      | error f =>
        have hb : fetchBlock s = .fault f := by simp [fetchBlock, hp, hd, hf]
        rw [blockStep, hb] at h
        cases h
      | ok f =>
        obtain ⟨pos, w⟩ := f
        rw [blockStep_issue hp hd hf] at h
        cases h
        exact .issues k pos w hp hd hf
  | .run k .wait =>
    match ha : s.answers with
    | [] =>
      rw [blockStep_unanswered hp ha] at h
      cases h
      exact .waits (.inl ⟨k, hp, ha⟩)
    | .fail e :: rest =>
      rw [blockStep_failed hp ha, failTransaction_eq] at h
      cases h
      exact .fails k e rest hp ha
    | .ok b0 b1 :: rest =>
      rw [blockStep_received hp ha] at h
      exact completeFrame_moves hp ha h
  | .idle =>
    match hr : s.reqPort with
    | [] =>
      rw [blockStep_no_request (.inl hp) hr] at h
      cases h
      exact .waits (.inr ⟨.inl hp, hr⟩)
    | r :: rest =>
      rw [blockStep_request (.inl hp) hr] at h
      obtain ⟨h1, h2, ⟨op, ha, rfl⟩ | rfl⟩ := exec_request hr (.inl hp) h
      · exact .accepts r rest op hp h2 hr ha
      · exact .releases r rest hp h2 hr
  | .released =>
    match hr : s.reqPort with
    | [] =>
      rw [blockStep_no_request (.inr hp) hr] at h
      cases h
      exact .waits (.inr ⟨.inr hp, hr⟩)
    | r :: rest =>
      rw [blockStep_request (.inr hp) hr] at h
      have h1 : s.phase = .idle := (exec_request hr (.inr hp) h).1
      rw [hp] at h1
      cases h1

/-- Everything a step can do. -/
theorem step_moves {s t : State} (h : step s = .next t) : Moves s t := by
  match ht : s.turns with
  | [] =>
    refine .block t (.inl ht) ?_
    have hs : popTurn s = s := by
      obtain ⟨⟩ := s
      simp only at ht
      subst ht
      rfl
    rw [hs]
    rw [step_block ht] at h
    exact blockStep_moves h
  | .block :: rest =>
    refine .block t (.inr ⟨rest, ht⟩) ?_
    have hs : popTurn s = { s with turns := rest } := by simp only [popTurn, ht, List.tail_cons]
    rw [hs]
    rw [step_turn ht] at h
    exact blockStep_moves h
  | .evaluate port w side :: rest =>
    cases hd : decode (.comb port w side) with
    | error e => simp [step, fetch, ht, hd] at h
    | ok i =>
      rw [step_evaluate ht hd] at h
      obtain ⟨v, rfl⟩ := exec_comb hd h
      exact .evaluates port w side rest v ht

end Sys2Proof.Machine
end

