-- ==== Sys2Proof/Laws/Past.lean ====
section
/-! SUPPORT. What the environment's terms make of the operations performed (spec 20_memory R71): a history has all of the
log, each operation within its schedule; where the transactions of the next operation stand among all that were
performed; and whether it may be trusted. -/

namespace Sys2Proof.Machine

/-! ### The run of one operation -/

/-- Where a run stands that began with operation `op` over the trace `T` and the results `R`: in that operation, just
behind it, or past the beginning or the end of another. -/
inductive Stands (op : Op) (T : List Transaction) (R : List Result) (s : State) : Prop
  | within (k : Nat) (sub : Sub) (new : List Transaction) (hp : s.phase = .run k sub) (ho : s.reqOp = some op)
      (hr : s.results = R) (ht : s.trace = new ++ T) (hk : k < (schedule op).length)
      (hl : new.length = k + if sub = .wait then 1 else 0)
  | behind (r : Result) (new : List Transaction) (hp : s.phase = .idle ∨ s.phase = .released)
      (hr : s.results = r :: R) (ht : s.trace = new ++ T) (hl : 0 < new.length ∧ new.length ≤ (schedule op).length)
  | next (k : Nat) (sub : Sub) (hp : s.phase = .run k sub) (hr : R.length + 1 ≤ s.results.length)
  | past (hr : R.length + 2 ≤ s.results.length)

theorem recordAnswer_append (a : Answer) {new T : List Transaction} (h : 0 < new.length) :
    ∃ new', recordAnswer a (new ++ T) = new' ++ T ∧ new'.length = new.length := by
  match new with
  | x :: xs => exact ⟨{ x with answer := some a } :: xs, rfl, rfl⟩

/-- The end of the operation that stands at a WAIT. -/
theorem Stands.ended {op : Op} {T : List Transaction} {R : List Result} {s : State} {k : Nat} (a : Answer)
    (rest : List Answer) (r : Result) (h : Stands op T R s) (hp : s.phase = .run k .wait) :
    Stands op T R (endedState s rest (recordAnswer a s.trace) r) := by
  cases h with
  | within k' sub new hp' ho hr ht hk hl =>
    rw [hp] at hp'
    cases hp'
    simp only [if_true] at hl
    obtain ⟨new', h1, h2⟩ := recordAnswer_append a (new := new) (T := T) (by omega)
    exact .behind r new' (.inl rfl) (congrArg _ hr) (by rw [ht]; exact h1) (by omega)
  | behind _ _ hp' => rcases hp' with hp' | hp' <;> rw [hp] at hp' <;> cases hp'
  | next _ _ _ hr => exact .past (by simp only [endedState, List.length_cons]; omega)
  | past hr => exact .past (by simp only [endedState, List.length_cons]; omega)

/-- A block's step keeps it. -/
theorem Stands.block {op : Op} {T : List Transaction} {R : List Result} {s t : State} (h : Stands op T R s)
    (hm : BlockMoves s t) : Stands op T R t := by
  cases hm with
  | waits => exact h
  | accepts r rest op' hp =>
    cases h with
    | within _ _ _ hp' => rw [hp] at hp'; cases hp'
    | behind r new _ hr => exact .next 0 .issue rfl (by simp [latch, hr])
    | next _ _ hp' => rw [hp] at hp'; cases hp'
    | past hr => exact .past hr
  | releases r rest hp =>
    cases h with
    | within _ _ _ hp' => rw [hp] at hp'; cases hp'
    | behind r new _ hr => exact .past (by simp [hr])
    | next _ _ hp' => rw [hp] at hp'; cases hp'
    | past hr => exact .past (by simp only [List.length_cons]; omega)
  | applies k g u hp =>
    cases h with
    | within k' sub new hp' ho hr ht hk hl => exact .within k' sub new hp' ho hr ht hk hl
    | behind _ _ hp' => rcases hp' with hp' | hp' <;> rw [hp] at hp' <;> cases hp'
    | next k' sub hp' hr => exact .next k' sub hp' hr
    | past hr => exact .past hr
  | issues k pos w hp =>
    cases h with
    | within k' sub new hp' ho hr ht hk hl =>
      rw [hp] at hp'
      cases hp'
      exact .within k .wait (⟨(toWire w).1, (toWire w).2, none⟩ :: new) rfl ho hr (congrArg _ ht) hk (by simp [hl])
    | behind _ _ hp' => rcases hp' with hp' | hp' <;> rw [hp] at hp' <;> cases hp'
    | next k' sub hp' hr => exact .next k .wait rfl hr
    | past hr => exact .past hr
  | fails k e rest hp => exact h.ended _ _ _ hp
  | raises k b0 b1 rest e d hp => exact h.ended _ _ _ hp
  | finishes k b0 b1 rest op' v hp => exact h.ended _ _ _ hp
  | continues k b0 b1 rest op' e p hp ha hop he hk =>
    cases h with
    | within k' sub new hp' ho hr ht hk' hl =>
      rw [hp] at hp'
      cases hp'
      rw [ho] at hop
      cases hop
      simp only [if_true] at hl
      obtain ⟨new', h1, h2⟩ := recordAnswer_append (.ok b0 b1) (new := new) (T := T) (by omega)
      exact .within (k + 1) .issue new' (by simp) (by simpa using ho) (by simpa using hr) (by simp [ht, h1]) hk
        (by simp [h2, hl])
    | behind _ _ hp' => rcases hp' with hp' | hp' <;> rw [hp] at hp' <;> cases hp'
    | next k' sub hp' hr => exact .next (k + 1) .issue (by simp) (by simpa using hr)
    | past hr => exact .past (by simpa using hr)

/-- What the turn and the ports hold does not matter to it. -/
theorem Stands.congr {op : Op} {T : List Transaction} {R : List Result} {s t : State} (h : Stands op T R s)
    (hp : t.phase = s.phase) (ho : t.reqOp = s.reqOp) (hr : t.results = s.results) (ht : t.trace = s.trace) :
    Stands op T R t := by
  cases h with
  | within k sub new hp' ho' hr' ht' hk hl =>
    exact .within k sub new (hp.trans hp') (ho.trans ho') (hr.trans hr') (ht.trans ht') hk hl
  | behind r new hp' hr' ht' hl => exact .behind r new (by rwa [hp]) (hr.trans hr') (ht.trans ht') hl
  | next k sub hp' hr' => exact .next k sub (hp.trans hp') (by rwa [hr])
  | past hr' => exact .past (by rwa [hr])

theorem Stands.step {op : Op} {T : List Transaction} {R : List Result} {s t : State} (h : Stands op T R s)
    (hs : Machine.step s = .next t) : Stands op T R t := by
  cases step_moves hs with
  | evaluates => exact h.congr rfl rfl rfl rfl
  | block t _ hm => exact (h.congr (t := popTurn s) rfl rfl rfl rfl).block hm

theorem Stands.run {op : Op} {T : List Transaction} {R : List Result} {n : Nat} {s t : State} (h : Stands op T R s)
    (hs : Machine.run n s = .next t) : Stands op T R t := by
  induction n generalizing s with
  | zero => cases hs; exact h
  | succ n ih =>
    simp only [Machine.run] at hs
    split at hs
    · next u hu => exact ih (h.step hu) hs
    · cases hs
    · cases hs

/-- A run that delivers one result and ends at IDLE has run one operation: some transactions of its schedule. -/
theorem run_one_operation {op : Op} {n : Nat} {s t : State} {r : Result} (hp : s.phase = .run 0 .issue)
    (ho : s.reqOp = some op) (hk : 0 < (schedule op).length) (hn : run n s = .next t) (ht : t.phase = .idle)
    (hr : t.results = r :: s.results) :
    ∃ new, t.log = s.log ++ new ∧ 0 < new.length ∧ new.length ≤ (schedule op).length := by
  have h : Stands op s.trace s.results s := .within 0 .issue [] hp ho rfl rfl hk rfl
  cases h.run hn with
  | within k sub new hp' => rw [ht] at hp'; cases hp'
  | behind r' new _ _ htr hl => exact ⟨new.reverse, by simp [State.log, htr], by simpa using hl⟩
  | next k sub hp' => rw [ht] at hp'; cases hp'
  | past hr' => rw [hr] at hr'; simp at hr'

/-! ### Histories -/

/-- What an accept leaves (R183). -/
theorem latch_accepts {op op' : Op} {g : Option Register} {d : Option Word} {f : Option Fn} {s : State}
    (hl : 0 < (schedule op').length) (ho : (latch op' g d f s).reqOp = some op) :
    (latch op' g d f s).log = s.log ∧ (latch op' g d f s).results = s.results ∧ 0 < (schedule op).length := by
  cases ho
  exact ⟨rfl, rfl, hl⟩

/-- What starts an operation at IDLE takes a request, and leaves the log and the results as they are. -/
theorem exec_accepts {i : Instr} {s t : State} {op : Op} (hi : s.phase = .idle) (h : exec i s = .next t)
    (hp : t.phase = .run 0 .issue) (ho : t.reqOp = some op) :
    t.log = s.log ∧ t.results = s.results ∧ 0 < (schedule op).length := by
  have idle : ∀ {a : Out}, whenIdle s a = .next t → a = .next t := by
    intro a h
    obtain ⟨-, ⟨-, h⟩ | ⟨k, sub, hr, -⟩⟩ := whenIdle_next h
    · exact h
    · rw [hi] at hr; cases hr
  have at' : ∀ {op' : Op} {a : Addr} {d : Option Word} {f : Option Fn}, 0 < (schedule op').length →
      whenIdle s (acceptAt op' a d f s) = .next t →
      t.log = s.log ∧ t.results = s.results ∧ 0 < (schedule op).length := by
    intro op' a d f hl h
    obtain ⟨r, -, rfl⟩ := acceptAt_next (idle h)
    exact latch_accepts hl ho
  have sensor : ∀ {op' : Op} {d : Option Word}, 0 < (schedule op').length →
      whenIdle s (acceptSensor op' d s) = .next t →
      t.log = s.log ∧ t.results = s.results ∧ 0 < (schedule op).length := by
    intro op' d hl h
    obtain ⟨-, rfl⟩ := acceptSensor_next (idle h)
    exact latch_accepts hl ho
  have sent : ∀ {pos : FramePos} {w : Word}, issueFrame pos w s = .next t → False := by
    intro pos w h
    obtain ⟨k, hk, -⟩ := issueFrame_next h
    rw [hi] at hk
    cases hk
  have comb : ∀ {port : CombPort} {v : Value}, emit port v s = .next t → False := by
    intro port v h
    cases h
    rw [show s.phase = .run 0 .issue from hp] at hi
    cases hi
  have fld : ∀ {c : Prop} [Decidable c] {port : CombPort} {v : Value},
      (if c then emit port v s else .refused .fieldPosition) = .next t → False := by
    intro c _ port v h
    split at h
    · exact comb h
    · cases h
  cases i with
  | read => exact at' (op' := .read) (by decide) h
  | write => exact at' (op' := .write) (by decide) h
  | modify => exact at' (op' := .modify) (by decide) h
  | angle => exact sensor (op' := .angle) (by decide) h
  | angleDeg => exact sensor (op' := .angleDeg) (by decide) h
  | magnitude => exact sensor (op' := .magnitude) (by decide) h
  | diag => exact sensor (op' := .diag) (by decide) h
  | clrerr => exact sensor (op' := .clrerr) (by decide) h
  | zposGet => exact sensor (op' := .zposGet) (by decide) h
  | zposSet => exact sensor (op' := .zposSet) (by decide) h
  | release =>
    obtain ⟨r, -, rfl⟩ := endOperation_next (idle h)
    cases hp
  | resp p e d =>
    obtain ⟨k, -, hk, -⟩ := completeFrame_next h
    rw [hi] at hk
    cases hk
  | cmdRd => exact (sent h).elim
  | cmdWr => exact (sent h).elim
  | data => exact (sent h).elim
  | nop => exact (sent h).elim
  | fldGet => exact (fld h).elim
  | fldSet => exact (fld h).elim
  | reservedB => cases h
  | reservedC => cases h
  | reservedD => cases h
  | reservedE => cases h
  | reservedF => cases h
  | _ => exact (comb h).elim

/-- The operations of a history did all of the log, each at least one transaction and no more than its schedule has. -/
theorem History.did {h : List Performed} {s : State} (hh : History h s) :
    h.flatMap (fun p => p.did) = s.log ∧ ∀ p ∈ h, 0 < p.did.length ∧ p.did.length ≤ (schedule p.op).length := by
  induction hh with
  | created s ht => exact ⟨by simp [State.log, ht], by simp⟩
  | brought h s _ _ _ _ _ ih => exact ih
  | served h s s0 t i op r n _ hi ha hp ho hn ht hr ih =>
    obtain ⟨hl, hres, hk⟩ := exec_accepts hi ha hp ho
    obtain ⟨new, h1, h2⟩ := run_one_operation hp ho hk hn ht (hr.trans (by rw [hres]))
    have hd : t.log.drop s.log.length = new := by rw [h1, hl, List.drop_left]
    rw [hd]
    refine ⟨by rw [List.flatMap_append, ih.1, h1, hl]; simp, fun p hpm => ?_⟩
    rcases List.mem_append.mp hpm with hpm | hpm
    · exact ih.2 p hpm
    · rw [List.mem_singleton.mp hpm]
      exact h2

/-! ### Places -/

/-- Each transaction of operations that keep to their schedules has one place. -/
theorem placedFrom_length {h : List Performed} (hf : ∀ p ∈ h, p.did.length ≤ (schedule p.op).length) (n : Nat)
    (ok : Bool) : (placedFrom n ok h).length = (h.flatMap fun p => p.did).length := by
  induction h generalizing n ok with
  | nil => rfl
  | cons p ps ih =>
    have hp := hf p (by simp)
    simp only [placedFrom, List.length_append, List.flatMap_cons, List.length_map, List.length_zip,
      ih (fun q hq => hf q (by simp [hq])) (n + 1) (!p.failed)]
    omega

/-- A history has as many places as the log has transactions. -/
theorem placed_length {h : List Performed} {s : State} (hh : History h s) : (placed h).length = s.log.length := by
  rw [← hh.did.1]
  exact placedFrom_length (fun p hp => (hh.did.2 p hp).2) 0 true

theorem placedFrom_append (h1 h2 : List Performed) (n : Nat) (ok : Bool) : placedFrom n ok (h1 ++ h2) =
    placedFrom n ok h1 ++ placedFrom (n + h1.length) (match h1.getLast? with
      | some p => !p.failed
      | none => ok) h2 := by
  induction h1 generalizing n ok with
  | nil => simp [placedFrom]
  | cons p ps ih =>
    simp only [List.cons_append, placedFrom, ih, List.append_assoc, List.length_cons]
    congr 2
    rw [show n + 1 + ps.length = n + (ps.length + 1) by omega]
    congr 1
    cases ps with
    | nil => simp
    | cons q qs => simp [List.getLast?_cons]

/-- The next operation's transactions come last, trusted as `settledAfter` says (U2). -/
theorem placed_snoc (h : List Performed) (p : Performed) : placed (h ++ [p]) =
    placed h ++ ((schedule p.op).zip p.did).map fun (e, t) => ⟨h.length, e, settledAfter h, t⟩ := by
  unfold placed
  rw [placedFrom_append]
  simp only [placedFrom, List.append_nil, Nat.zero_add]
  rfl

end Sys2Proof.Machine
end

