-- ==== Sys2Proof/Laws/PerInstr.lean ====
section
/-! SUPPORT. Per instruction: its encoding fits its row of spec/opcode_table.json, that is, the words `encode` gives it
have the row's `match` bits under the row's `mask` (spec 30_encoding R100 to R107, R116). -/

namespace Sys2Proof.Laws

/-- The table's word of a presentation, right-aligned in the widest row's 34 bits. -/
def tableWord : Presented → BitVec 34
  | .request w _ => w
  | .sent _ f => f.setWidth 34
  | .received f => f.setWidth 34
  | .comb _ w _ => w.setWidth 34

/-- `mask` and `match` of an instruction's row. -/
def rowBits : Instr → BitVec 34 × BitVec 34
  | .cmdRd _ _ => (0x4000#34, 0x4000#34)
  | .cmdWr _ _ => (0x4000#34, 0x0#34)
  | .data _ _ => (0x4000#34, 0x0#34)
  | .nop => (0xffff#34, 0x0#34)
  | .resp _ _ _ => (0x0#34, 0x0#34)
  | .read _ => (0x3c0000000#34, 0x0#34)
  | .write _ _ => (0x3c0000000#34, 0x40000000#34)
  | .modify _ _ => (0x3c0000000#34, 0x80000000#34)
  | .angle => (0x3c0000000#34, 0xc0000000#34)
  | .angleDeg => (0x3c0000000#34, 0x100000000#34)
  | .magnitude => (0x3c0000000#34, 0x140000000#34)
  | .diag => (0x3c0000000#34, 0x180000000#34)
  | .clrerr => (0x3c0000000#34, 0x1c0000000#34)
  | .zposGet => (0x3c0000000#34, 0x200000000#34)
  | .zposSet _ => (0x3c0000000#34, 0x240000000#34)
  | .release => (0x3c0000000#34, 0x280000000#34)
  | .reservedB => (0x3c0000000#34, 0x2c0000000#34)
  | .reservedC => (0x3c0000000#34, 0x300000000#34)
  | .reservedD => (0x3c0000000#34, 0x340000000#34)
  | .reservedE => (0x3c0000000#34, 0x380000000#34)
  | .reservedF => (0x3c0000000#34, 0x3c0000000#34)
  | .parCompute _ => (0x0#34, 0x0#34)
  | .parVerify _ => (0x0#34, 0x0#34)
  | .mkCmd _ _ => (0x0#34, 0x0#34)
  | .mkData _ => (0x0#34, 0x0#34)
  | .mkNop => (0x0#34, 0x0#34)
  | .respSplit _ => (0x0#34, 0x0#34)
  | .respValidate _ => (0x0#34, 0x0#34)
  | .fldGet _ _ _ => (0x0#34, 0x0#34)
  | .fldSet _ _ _ _ => (0x0#34, 0x0#34)
  | .diagAgc _ => (0x0#34, 0x0#34)
  | .diagStrong _ => (0x0#34, 0x0#34)
  | .diagWeak _ => (0x0#34, 0x0#34)
  | .diagCof _ => (0x0#34, 0x0#34)
  | .diagOcf _ => (0x0#34, 0x0#34)
  | .diagStrengthOk _ => (0x0#34, 0x0#34)
  | .diagValid _ => (0x0#34, 0x0#34)
  | .magGet _ => (0x0#34, 0x0#34)
  | .angleGet _ => (0x0#34, 0x0#34)
  | .zposmGet _ => (0x0#34, 0x0#34)
  | .zposmSet _ _ => (0x0#34, 0x0#34)
  | .zposlGet _ => (0x0#34, 0x0#34)
  | .zposlSet _ _ => (0x0#34, 0x0#34)
  | .zposlEn7Get _ => (0x0#34, 0x0#34)
  | .zposlEn7Set _ _ => (0x0#34, 0x0#34)
  | .zposlEn6Get _ => (0x0#34, 0x0#34)
  | .zposlEn6Set _ _ => (0x0#34, 0x0#34)
  | .errflE2 _ => (0x0#34, 0x0#34)
  | .errflE1 _ => (0x0#34, 0x0#34)
  | .errflE0 _ => (0x0#34, 0x0#34)
  | .zposSplit _ => (0x0#34, 0x0#34)
  | .zposCompose _ _ => (0x0#34, 0x0#34)
  | .degConv _ => (0x0#34, 0x0#34)

/-- The encoding of the instruction has its row's fixed bits. -/
def FitsItsRow.Statement (i : Instr) : Prop := tableWord (encode i) &&& (rowBits i).1 = (rowBits i).2

theorem and_mask_zero (w : BitVec 34) : w &&& 0x0#34 = 0x0#34 := by simp

/-- The op field of a request is its bits 33:30 (R106). -/
theorem packRequest_op (op : BitVec 4) (a : Addr) (d : Word) :
    packRequest op a d &&& 0x3C0000000#34 = op.setWidth 34 <<< 30 := by
  apply BitVec.eq_of_getLsbD_eq
  intro i hi
  have h1 : (packRequest op a d).getLsbD i = if i < 16 then d.getLsbD i else (op ++ a).getLsbD (i - 16) :=
    BitVec.getLsbD_append (x := op ++ a) (y := d)
  have h2 : (op ++ a).getLsbD (i - 16) = if i - 16 < 14 then a.getLsbD (i - 16) else op.getLsbD (i - 16 - 14) :=
    BitVec.getLsbD_append (x := op) (y := a)
  have hm : (0x3C0000000#34).getLsbD i = decide (30 ≤ i) := by interval_cases i <;> decide
  rw [BitVec.getLsbD_and, hm, BitVec.getLsbD_shiftLeft, BitVec.getLsbD_setWidth, h1, h2]
  by_cases h : 30 ≤ i
  · have a1 : ¬ i < 16 := by omega
    have a2 : ¬ i - 16 < 14 := by omega
    have a3 : ¬ i < 30 := by omega
    have a4 : i - 16 - 14 = i - 30 := by omega
    have a5 : i - 30 < 34 := by omega
    simp [a1, a2, a3, a4, a5, h, hi]
  · have a3 : i < 30 := by omega
    simp [h, a3]

/-- Bit 14 of a packed frame, under the table's mask (R100). -/
theorem packFrame_mask (p e : Bool) (d : Payload) :
    (Machine.packFrame p e d).setWidth 34 &&& 0x4000#34 = (BitVec.ofBool e).setWidth 34 <<< 14 := by
  apply BitVec.eq_of_getLsbD_eq
  intro i hi
  have hm : (0x4000#34).getLsbD i = decide (i = 14) := by interval_cases i <;> decide
  rw [BitVec.getLsbD_and, hm, BitVec.getLsbD_shiftLeft, BitVec.getLsbD_setWidth, BitVec.getLsbD_setWidth,
    BitVec.getLsbD_ofBool]
  by_cases h : i = 14
  · subst h
    rw [Machine.packFrame_14]
    simp
  · have hc : (i - 14 = 0) ↔ i ≤ 14 := by omega
    by_cases hl : i < 14
    · simp [h, hl]
    · have : ¬ i ≤ 14 := by omega
      simp [h, hc, this]

theorem FitsItsRow.cmdRd (p : Bool) (addr : Addr) : FitsItsRow.Statement (.cmdRd p addr) := packFrame_mask _ _ _

theorem FitsItsRow.cmdWr (p : Bool) (addr : Addr) : FitsItsRow.Statement (.cmdWr p addr) := packFrame_mask _ _ _

theorem FitsItsRow.data (p : Bool) (d : Payload) : FitsItsRow.Statement (.data p d) := packFrame_mask _ _ _

theorem FitsItsRow.nop : FitsItsRow.Statement .nop := by unfold FitsItsRow.Statement; decide

theorem FitsItsRow.resp (p ef : Bool) (payload : Payload) : FitsItsRow.Statement (.resp p ef payload) := and_mask_zero _

theorem FitsItsRow.read (addr : Addr) : FitsItsRow.Statement (.read addr) := packRequest_op _ _ _

theorem FitsItsRow.write (addr : Addr) (wdata : Word) : FitsItsRow.Statement (.write addr wdata) := packRequest_op _ _ _

theorem FitsItsRow.modify (addr : Addr) (fn : Fn) : FitsItsRow.Statement (.modify addr fn) := packRequest_op _ _ _

theorem FitsItsRow.angle : FitsItsRow.Statement .angle := packRequest_op _ _ _

theorem FitsItsRow.angleDeg : FitsItsRow.Statement .angleDeg := packRequest_op _ _ _

theorem FitsItsRow.magnitude : FitsItsRow.Statement .magnitude := packRequest_op _ _ _

theorem FitsItsRow.diag : FitsItsRow.Statement .diag := packRequest_op _ _ _

theorem FitsItsRow.clrerr : FitsItsRow.Statement .clrerr := packRequest_op _ _ _

theorem FitsItsRow.zposGet : FitsItsRow.Statement .zposGet := packRequest_op _ _ _

theorem FitsItsRow.zposSet (wdata : Word) : FitsItsRow.Statement (.zposSet wdata) := packRequest_op _ _ _

theorem FitsItsRow.release : FitsItsRow.Statement .release := packRequest_op _ _ _

theorem FitsItsRow.reservedB : FitsItsRow.Statement .reservedB := packRequest_op _ _ _

theorem FitsItsRow.reservedC : FitsItsRow.Statement .reservedC := packRequest_op _ _ _

theorem FitsItsRow.reservedD : FitsItsRow.Statement .reservedD := packRequest_op _ _ _

theorem FitsItsRow.reservedE : FitsItsRow.Statement .reservedE := packRequest_op _ _ _

theorem FitsItsRow.reservedF : FitsItsRow.Statement .reservedF := packRequest_op _ _ _

theorem FitsItsRow.parCompute (w : Word) : FitsItsRow.Statement (.parCompute w) := and_mask_zero _

theorem FitsItsRow.parVerify (f : Word) : FitsItsRow.Statement (.parVerify f) := and_mask_zero _

theorem FitsItsRow.mkCmd (a : Addr) (rd : Bool) : FitsItsRow.Statement (.mkCmd a rd) := and_mask_zero _

theorem FitsItsRow.mkData (d : Word) : FitsItsRow.Statement (.mkData d) := and_mask_zero _

theorem FitsItsRow.mkNop : FitsItsRow.Statement .mkNop := and_mask_zero _

theorem FitsItsRow.respSplit (f : Word) : FitsItsRow.Statement (.respSplit f) := and_mask_zero _

theorem FitsItsRow.respValidate (f : Word) : FitsItsRow.Statement (.respValidate f) := and_mask_zero _

theorem FitsItsRow.fldGet (v : Word) (hi lo : Fin 16) : FitsItsRow.Statement (.fldGet v hi lo) := and_mask_zero _

theorem FitsItsRow.fldSet (v : Word) (hi lo : Fin 16) (x : Word) : FitsItsRow.Statement (.fldSet v hi lo x) := and_mask_zero _

theorem FitsItsRow.diagAgc (v : Word) : FitsItsRow.Statement (.diagAgc v) := and_mask_zero _

theorem FitsItsRow.diagStrong (v : Word) : FitsItsRow.Statement (.diagStrong v) := and_mask_zero _

theorem FitsItsRow.diagWeak (v : Word) : FitsItsRow.Statement (.diagWeak v) := and_mask_zero _

theorem FitsItsRow.diagCof (v : Word) : FitsItsRow.Statement (.diagCof v) := and_mask_zero _

theorem FitsItsRow.diagOcf (v : Word) : FitsItsRow.Statement (.diagOcf v) := and_mask_zero _

theorem FitsItsRow.diagStrengthOk (v : Word) : FitsItsRow.Statement (.diagStrengthOk v) := and_mask_zero _

theorem FitsItsRow.diagValid (v : Word) : FitsItsRow.Statement (.diagValid v) := and_mask_zero _

theorem FitsItsRow.magGet (v : Word) : FitsItsRow.Statement (.magGet v) := and_mask_zero _

theorem FitsItsRow.angleGet (v : Word) : FitsItsRow.Statement (.angleGet v) := and_mask_zero _

theorem FitsItsRow.zposmGet (v : Word) : FitsItsRow.Statement (.zposmGet v) := and_mask_zero _

theorem FitsItsRow.zposmSet (v x : Word) : FitsItsRow.Statement (.zposmSet v x) := and_mask_zero _

theorem FitsItsRow.zposlGet (v : Word) : FitsItsRow.Statement (.zposlGet v) := and_mask_zero _

theorem FitsItsRow.zposlSet (v x : Word) : FitsItsRow.Statement (.zposlSet v x) := and_mask_zero _

theorem FitsItsRow.zposlEn7Get (v : Word) : FitsItsRow.Statement (.zposlEn7Get v) := and_mask_zero _

theorem FitsItsRow.zposlEn7Set (v : Word) (x : Bool) : FitsItsRow.Statement (.zposlEn7Set v x) := and_mask_zero _

theorem FitsItsRow.zposlEn6Get (v : Word) : FitsItsRow.Statement (.zposlEn6Get v) := and_mask_zero _

theorem FitsItsRow.zposlEn6Set (v : Word) (x : Bool) : FitsItsRow.Statement (.zposlEn6Set v x) := and_mask_zero _

theorem FitsItsRow.errflE2 (v : Word) : FitsItsRow.Statement (.errflE2 v) := and_mask_zero _

theorem FitsItsRow.errflE1 (v : Word) : FitsItsRow.Statement (.errflE1 v) := and_mask_zero _

theorem FitsItsRow.errflE0 (v : Word) : FitsItsRow.Statement (.errflE0 v) := and_mask_zero _

theorem FitsItsRow.zposSplit (v : Word) : FitsItsRow.Statement (.zposSplit v) := and_mask_zero _

theorem FitsItsRow.zposCompose (m l : Word) : FitsItsRow.Statement (.zposCompose m l) := and_mask_zero _

theorem FitsItsRow.degConv (a : Word) : FitsItsRow.Statement (.degConv a) := and_mask_zero _

end Sys2Proof.Laws
end

