-- ==== Sys2Proof/Tests/Slice0.lean ====
section
/-! SUPPORT. The model's own tests: ill-formed terms refused, a word of the spec's encoding decoded for every instruction,
values of spec/95_test_vectors.md in one step each, and for every statement with hypotheses a witness that meets them. -/

namespace Sys2Proof.Tests

open Sys2Proof Sys2Proof.Machine

/-! ### Small states -/

/-- The default configuration with the two OPEN parameters at one of their values (R8). -/
def testConfig : Config := { builtConfig with angleMax := .x4000, clrerrReturnsValue := true }

/-- A fresh block (R50). -/
def fresh : State := { State.reset with cfg := testConfig }

/-- A fresh block and the outcomes the transport will give it. -/
def freshWith (answers : List Answer) : State := { fresh with answers := answers }

/-- The value of a MODIFY half's function in the WRITE half: `0x00C0 | 0x003C`, and the two fields of 0x2ABC set. -/
def fnValueAt : Op → Nat → Option Word
  | .modify, 3 | .modify, 4 => some 0x00FC#16
  | .zposSet, 3 | .zposSet, 4 => some 0x00AA#16
  | .zposSet, 8 | .zposSet, 9 => some 0x00FC#16
  | _, _ => none

/-- An operation at transaction `k`, before it is issued. -/
def issuing (op : Op) (k : Nat) : State :=
  { fresh with
    phase := .run k .issue, reqOp := some op, reqReg := some .zposl, reqWdata := some 0x2ABC#16,
    reqFn := some (.or .arg (.lit 0x003C#16)), acc := some 0x00C0#16, fnValue := fnValueAt op k }

/-- An operation at transaction `k`, its frame `w` sent and the outcome to come. -/
def waiting (op : Op) (k : Nat) (w : Word) (answers : List Answer) : State :=
  { issuing op k with
    phase := .run k .wait, txw := some w, trace := [⟨(toWire w).1, (toWire w).2, none⟩], answers := answers }

/-- The state an outcome leaves, if it is a next state. -/
def after : Out → Option State
  | .next t => some t
  | .fault _ => none
  | .refused _ => none

theorem next_of {o : Out} {p : State → Bool} (h : (after o).any p = true) : ∃ t, o = .next t ∧ p t = true := by
  cases o with
  | next t => exact ⟨t, rfl, h⟩
  | fault f => cases h
  | refused r => cases h

/-- The value a combinational function puts on its port. -/
def valueOf (i : Instr) : Option Value := (after (exec i fresh)).bind fun t => t.outs.head?.map fun o => o.value

/-- The transactions, the results and the phase an outcome leaves. -/
def endOf (o : Out) : Option (List Transaction × List Result × Phase) :=
  (after o).map fun t => (t.trace, t.results, t.phase)

/-! ### WellFormed refuses an ill-formed term of each check -/

/-- Odd count of ones (R105). -/
theorem ill_formed_cmdRd_parity : (.cmdRd false 0x3FFF#14 : Instr).wellFormed = false := by decide

/-- Address 0 (R69). -/
theorem ill_formed_cmdRd_address : (.cmdRd true 0x0000#14 : Instr).wellFormed = false := by decide

/-- Odd count of ones (R105). -/
theorem ill_formed_cmdWr_parity : (.cmdWr false 0x0016#14 : Instr).wellFormed = false := by decide

/-- Address 0 (R69). -/
theorem ill_formed_cmdWr_address : (.cmdWr false 0x0000#14 : Instr).wellFormed = false := by decide

/-- Odd count of ones (R105). -/
theorem ill_formed_data_parity : (.data false 0x0001#14 : Instr).wellFormed = false := by decide

/-- `lo > hi` (R220). -/
theorem ill_formed_fldGet_position : (.fldGet 0xFFFF#16 0 1 : Instr).wellFormed = false := by decide

/-- `lo > hi` (R220). -/
theorem ill_formed_fldSet_position : (.fldSet 0xFFFF#16 14 15 0#16 : Instr).wellFormed = false := by decide

/-- Their well-formed neighbours (V-D3, V-D4). -/
theorem well_formed_neighbours :
    (.cmdRd true 0x3FFF#14 : Instr).wellFormed = true ∧ (.cmdWr true 0x0016#14 : Instr).wellFormed = true ∧
    (.data true 0x0001#14 : Instr).wellFormed = true ∧ (.fldGet 0xFFFF#16 15 15 : Instr).wellFormed = true ∧
    (.fldSet 0xFFFF#16 0 0 0#16 : Instr).wellFormed = true := by decide

/-! ### One word of each row, written out from R100 to R107 and R116 -/

theorem decode_cmdRd :
    decode (.sent .command 0xFFFF#16) = .ok (.cmdRd true 0x3FFF#14) := by decide

theorem decode_cmdWr :
    decode (.sent .command 0x8016#16) = .ok (.cmdWr true 0x0016#14) := by decide

theorem decode_data :
    decode (.sent .data 0x8ABC#16) = .ok (.data true 0x0ABC#14) := by decide

theorem decode_nop :
    decode (.sent .nop 0x0000#16) = .ok (.nop) := by decide

theorem decode_resp :
    decode (.received 0xC001#16) = .ok (.resp true true 0x0001#14) := by decide

theorem decode_read :
    decode (.request 0x03FFD0000#34 .arg) = .ok (.read 0x3FFD#14) := by decide

theorem decode_write :
    decode (.request 0x040180004#34 .arg) = .ok (.write 0x0018#14 0x0004#16) := by decide

theorem decode_modify :
    decode (.request 0x080170000#34 (.or .arg (.lit 0x003C#16))) =
      .ok (.modify 0x0017#14 (.or .arg (.lit 0x003C#16))) := by decide

theorem decode_angle :
    decode (.request 0x0C0000000#34 .arg) = .ok (.angle) := by decide

theorem decode_angleDeg :
    decode (.request 0x100000000#34 .arg) = .ok (.angleDeg) := by decide

theorem decode_magnitude :
    decode (.request 0x140000000#34 .arg) = .ok (.magnitude) := by decide

theorem decode_diag :
    decode (.request 0x180000000#34 .arg) = .ok (.diag) := by decide

theorem decode_clrerr :
    decode (.request 0x1C0000000#34 .arg) = .ok (.clrerr) := by decide

theorem decode_zposGet :
    decode (.request 0x200000000#34 .arg) = .ok (.zposGet) := by decide

theorem decode_zposSet :
    decode (.request 0x240002ABC#34 .arg) = .ok (.zposSet 0x2ABC#16) := by decide

theorem decode_release :
    decode (.request 0x280000000#34 .arg) = .ok (.release) := by decide

theorem decode_reservedB :
    decode (.request 0x2C0000000#34 .arg) = .ok (.reservedB) := by decide

theorem decode_reservedC :
    decode (.request 0x300000000#34 .arg) = .ok (.reservedC) := by decide

theorem decode_reservedD :
    decode (.request 0x340000000#34 .arg) = .ok (.reservedD) := by decide

theorem decode_reservedE :
    decode (.request 0x380000000#34 .arg) = .ok (.reservedE) := by decide

theorem decode_reservedF :
    decode (.request 0x3FFFFFFFF#34 .arg) = .ok (.reservedF) := by decide

theorem decode_parCompute :
    decode (.comb .parCompute 0x8001#16 []) = .ok (.parCompute 0x8001#16) := by decide

theorem decode_parVerify :
    decode (.comb .parVerify 0xC001#16 []) = .ok (.parVerify 0xC001#16) := by decide

theorem decode_mkCmd :
    decode (.comb .mkCmd 0x3FFD#16 [1#16]) = .ok (.mkCmd 0x3FFD#14 true) := by decide

theorem decode_mkData :
    decode (.comb .mkData 0xFFFF#16 []) = .ok (.mkData 0xFFFF#16) := by decide

theorem decode_mkNop :
    decode (.comb .mkNop 0x0000#16 []) = .ok (.mkNop) := by decide

theorem decode_respSplit :
    decode (.comb .respSplit 0x5234#16 []) = .ok (.respSplit 0x5234#16) := by decide

theorem decode_respValidate :
    decode (.comb .respValidate 0x9234#16 []) = .ok (.respValidate 0x9234#16) := by decide

theorem decode_fldGet :
    decode (.comb .fldGet 0x2ABC#16 [13#16, 6#16]) = .ok (.fldGet 0x2ABC#16 13 6) := by decide

theorem decode_fldSet :
    decode (.comb .fldSet 0x00C0#16 [5#16, 0#16, 0x003C#16]) = .ok (.fldSet 0x00C0#16 5 0 0x003C#16) := by decide

theorem decode_diagAgc :
    decode (.comb .diagAgc 0x0480#16 []) = .ok (.diagAgc 0x0480#16) := by decide

theorem decode_diagStrong :
    decode (.comb .diagStrong 0x0480#16 []) = .ok (.diagStrong 0x0480#16) := by decide

theorem decode_diagWeak :
    decode (.comb .diagWeak 0x0480#16 []) = .ok (.diagWeak 0x0480#16) := by decide

theorem decode_diagCof :
    decode (.comb .diagCof 0x0480#16 []) = .ok (.diagCof 0x0480#16) := by decide

theorem decode_diagOcf :
    decode (.comb .diagOcf 0x0480#16 []) = .ok (.diagOcf 0x0480#16) := by decide

theorem decode_diagStrengthOk :
    decode (.comb .diagStrengthOk 0x0480#16 []) = .ok (.diagStrengthOk 0x0480#16) := by decide

theorem decode_diagValid :
    decode (.comb .diagValid 0x0480#16 []) = .ok (.diagValid 0x0480#16) := by decide

theorem decode_magGet :
    decode (.comb .magGet 0x0480#16 []) = .ok (.magGet 0x0480#16) := by decide

theorem decode_angleGet :
    decode (.comb .angleGet 0x0480#16 []) = .ok (.angleGet 0x0480#16) := by decide

theorem decode_zposmGet :
    decode (.comb .zposmGet 0x0480#16 []) = .ok (.zposmGet 0x0480#16) := by decide

theorem decode_zposmSet :
    decode (.comb .zposmSet 0x0155#16 [0x01AA#16]) = .ok (.zposmSet 0x0155#16 0x01AA#16) := by decide

theorem decode_zposlGet :
    decode (.comb .zposlGet 0x0480#16 []) = .ok (.zposlGet 0x0480#16) := by decide

theorem decode_zposlSet :
    decode (.comb .zposlSet 0x00C0#16 [0x003C#16]) = .ok (.zposlSet 0x00C0#16 0x003C#16) := by decide

theorem decode_zposlEn7Get :
    decode (.comb .zposlEn7Get 0x0480#16 []) = .ok (.zposlEn7Get 0x0480#16) := by decide

theorem decode_zposlEn7Set :
    decode (.comb .zposlEn7Set 0x003C#16 [1#16]) = .ok (.zposlEn7Set 0x003C#16 true) := by decide

theorem decode_zposlEn6Get :
    decode (.comb .zposlEn6Get 0x0480#16 []) = .ok (.zposlEn6Get 0x0480#16) := by decide

theorem decode_zposlEn6Set :
    decode (.comb .zposlEn6Set 0x00FC#16 [0#16]) = .ok (.zposlEn6Set 0x00FC#16 false) := by decide

theorem decode_errflE2 :
    decode (.comb .errflE2 0x0480#16 []) = .ok (.errflE2 0x0480#16) := by decide

theorem decode_errflE1 :
    decode (.comb .errflE1 0x0480#16 []) = .ok (.errflE1 0x0480#16) := by decide

theorem decode_errflE0 :
    decode (.comb .errflE0 0x0480#16 []) = .ok (.errflE0 0x0480#16) := by decide

theorem decode_zposSplit :
    decode (.comb .zposSplit 0x0480#16 []) = .ok (.zposSplit 0x0480#16) := by decide

theorem decode_zposCompose :
    decode (.comb .zposCompose 0x00AA#16 [0x00FC#16]) = .ok (.zposCompose 0x00AA#16 0x00FC#16) := by decide

theorem decode_degConv :
    decode (.comb .degConv 0x0480#16 []) = .ok (.degConv 0x0480#16) := by decide

/-- What is refused: a NOP that is not zero, a data frame with bit 14, a missing input, a position with `lo > hi`. -/
theorem decode_refuses :
    decode (.sent .nop 0x0001#16) = .error .nopNotZero ∧ decode (.sent .data 0x4001#16) = .error .dataBit14 ∧
    decode (.comb .mkCmd 0x0001#16 []) = .error .sideInputs ∧
    decode (.comb .fldGet 0xFFFF#16 [0#16, 1#16]) = .error .fieldPosition := by decide

/-- The host's words: a request in five bytes, a lone frame in two. -/
theorem decode_table_word :
    decodeTableWord 40 0x240002ABC = some (.zposSet 0x2ABC#16) ∧
    decodeTableWord 16 0xFFFF = some (.cmdRd true 0x3FFF#14) := by
  decide

/-! ### Combinational functions (95_test_vectors V-D1 to V-D8, V-D13 to V-D19) -/

/-- V-D1. -/
theorem test_parCompute :
    valueOf (.parCompute 0x7FFF#16) = some (.bit true) ∧
    valueOf (.parCompute 0x8000#16) = some (.bit false) ∧
    valueOf (.parCompute 0x5555#16) = some (.bit false) ∧
    valueOf (.parCompute 0xAAAA#16) = some (.bit true) := by decide

/-- V-D2. -/
theorem test_parVerify :
    valueOf (.parVerify 0xC001#16) = some (.bit false) ∧
    valueOf (.parVerify 0x9234#16) = some (.bit true) ∧
    valueOf (.parVerify 0xFFFF#16) = some (.bit true) ∧
    valueOf (.parVerify 0x8000#16) = some (.bit false) := by decide

/-- V-D3. -/
theorem test_mkCmd :
    valueOf (.mkCmd 0x3FFD#14 true) = some (.word 0x7FFD#16) ∧
    valueOf (.mkCmd 0x3FFC#14 true) = some (.word 0xFFFC#16) ∧
    valueOf (.mkCmd 0x0016#14 false) = some (.word 0x8016#16) ∧
    valueOf (.mkCmd 0x1234#14 false) = some (.word 0x9234#16) := by decide

/-- V-D4. -/
theorem test_mkData :
    valueOf (.mkData 0xFFFF#16) = some (.word 0x3FFF#16) ∧
    valueOf (.mkData 0x8001#16) = some (.word 0x8001#16) ∧
    valueOf (.mkData 0x0ABC#16) = some (.word 0x8ABC#16) ∧
    valueOf (.mkData 0x4000#16) = some (.word 0x0000#16) := by decide

/-- V-D5. -/
theorem test_mkNop :
    valueOf (.mkNop) = some (.word 0x0000#16) := by decide

/-- V-D6. -/
theorem test_respSplit :
    valueOf (.respSplit 0x9234#16) = some (.split true false 0x1234#14) ∧
    valueOf (.respSplit 0x5234#16) = some (.split false true 0x1234#14) := by decide

/-- V-D7. -/
theorem test_respValidate :
    valueOf (.respValidate 0x7FFF#16) = some (.verdict .parityBad) ∧
    valueOf (.respValidate 0xC000#16) = some (.verdict .sensorFlag) ∧
    valueOf (.respValidate 0x8ABC#16) = some (.verdict (.good 0x0ABC#14)) ∧
    valueOf (.respValidate 0xC001#16) = some (.verdict .parityBad) := by decide

/-- V-D13. -/
theorem test_fldGet :
    valueOf (.fldGet 0x2ABC#16 13 6) = some (.word 0x00AA#16) ∧
    valueOf (.fldGet 0x8000#16 15 15) = some (.word 0x0001#16) ∧
    valueOf (.fldGet 0x1234#16 15 0) = some (.word 0x1234#16) ∧
    valueOf (.fldGet 0x0480#16 11 8) = some (.word 0x0004#16) := by decide

/-- V-D13. -/
theorem test_fldSet :
    valueOf (.fldSet 0x00C0#16 5 0 0x003C#16) = some (.word 0x00FC#16) ∧
    valueOf (.fldSet 0xC000#16 13 0 0xFFFF#16) = some (.word 0xFFFF#16) ∧
    valueOf (.fldSet 0x00FF#16 6 6 0x0002#16) = some (.word 0x00BF#16) ∧
    valueOf (.fldSet 0x1234#16 15 0 0xABCD#16) = some (.word 0xABCD#16) := by decide

/-- V-D14. -/
theorem test_diagAgc :
    valueOf (.diagAgc 0x0480#16) = some (.byte 0x80#8) ∧
    valueOf (.diagAgc 0x04FF#16) = some (.byte 0xFF#8) := by decide

/-- V-D14 and the rule's bit. -/
theorem test_diagStrong :
    valueOf (.diagStrong 0x0800#16) = some (.bit true) ∧
    valueOf (.diagStrong 0x0780#16) = some (.bit false) := by decide

/-- V-D14 and the rule's bit. -/
theorem test_diagWeak :
    valueOf (.diagWeak 0x0100#16) = some (.bit true) ∧
    valueOf (.diagWeak 0x0E80#16) = some (.bit false) := by decide

/-- V-D14 and the rule's bit. -/
theorem test_diagCof :
    valueOf (.diagCof 0x0200#16) = some (.bit true) ∧
    valueOf (.diagCof 0x0D80#16) = some (.bit false) := by decide

/-- V-D14 and the rule's bit. -/
theorem test_diagOcf :
    valueOf (.diagOcf 0x0480#16) = some (.bit true) ∧
    valueOf (.diagOcf 0x0B80#16) = some (.bit false) := by decide

/-- V-D14. -/
theorem test_diagStrengthOk :
    valueOf (.diagStrengthOk 0x0280#16) = some (.bit true) ∧
    valueOf (.diagStrengthOk 0x0800#16) = some (.bit false) ∧
    valueOf (.diagStrengthOk 0x0100#16) = some (.bit false) := by decide

/-- V-D14. -/
theorem test_diagValid :
    valueOf (.diagValid 0x0480#16) = some (.bit true) ∧
    valueOf (.diagValid 0x0280#16) = some (.bit false) ∧
    valueOf (.diagValid 0x0C80#16) = some (.bit false) ∧
    valueOf (.diagValid 0xC480#16) = some (.bit true) := by decide

/-- V-D15. -/
theorem test_magGet :
    valueOf (.magGet 0xFFFF#16) = some (.payload 0x3FFF#14) ∧
    valueOf (.magGet 0x0ABC#16) = some (.payload 0x0ABC#14) := by decide

/-- V-D15. -/
theorem test_angleGet :
    valueOf (.angleGet 0xC000#16) = some (.payload 0x0000#14) ∧
    valueOf (.angleGet 0x1234#16) = some (.payload 0x1234#14) := by decide

/-- V-D16. -/
theorem test_zposmGet :
    valueOf (.zposmGet 0x3FAA#16) = some (.byte 0xAA#8) := by decide

/-- V-D16. -/
theorem test_zposmSet :
    valueOf (.zposmSet 0x0155#16 0x01AA#16) = some (.word 0x01AA#16) ∧
    valueOf (.zposmSet 0xFFFF#16 0x0000#16) = some (.word 0xFF00#16) := by decide

/-- V-D16. -/
theorem test_zposlGet :
    valueOf (.zposlGet 0x00FC#16) = some (.six 0x3C#6) := by decide

/-- V-D16. -/
theorem test_zposlSet :
    valueOf (.zposlSet 0x00C0#16 0x003C#16) = some (.word 0x00FC#16) ∧
    valueOf (.zposlSet 0x00FF#16 0x0000#16) = some (.word 0x00C0#16) := by decide

/-- V-D16. -/
theorem test_zposlEn7Get :
    valueOf (.zposlEn7Get 0x0080#16) = some (.bit true) ∧
    valueOf (.zposlEn7Get 0x0040#16) = some (.bit false) := by decide

/-- V-D16. -/
theorem test_zposlEn7Set :
    valueOf (.zposlEn7Set 0x003C#16 true) = some (.word 0x00BC#16) ∧
    valueOf (.zposlEn7Set 0x00FF#16 false) = some (.word 0x007F#16) := by decide

/-- V-D16. -/
theorem test_zposlEn6Get :
    valueOf (.zposlEn6Get 0x0040#16) = some (.bit true) ∧
    valueOf (.zposlEn6Get 0x0080#16) = some (.bit false) := by decide

/-- V-D16. -/
theorem test_zposlEn6Set :
    valueOf (.zposlEn6Set 0x00FC#16 false) = some (.word 0x00BC#16) ∧
    valueOf (.zposlEn6Set 0x0000#16 true) = some (.word 0x0040#16) := by decide

/-- V-D17 and the rule's bit. -/
theorem test_errflE2 :
    valueOf (.errflE2 0x0004#16) = some (.bit true) ∧
    valueOf (.errflE2 0x0003#16) = some (.bit false) := by decide

/-- V-D17. -/
theorem test_errflE1 :
    valueOf (.errflE1 0x0002#16) = some (.bit true) ∧
    valueOf (.errflE1 0x3FF8#16) = some (.bit false) := by decide

/-- V-D17. -/
theorem test_errflE0 :
    valueOf (.errflE0 0x0001#16) = some (.bit true) ∧
    valueOf (.errflE0 0x0006#16) = some (.bit false) := by decide

/-- V-D18. -/
theorem test_zposSplit :
    valueOf (.zposSplit 0x2ABC#16) = some (.halves 0xAA#8 0x3C#6) ∧
    valueOf (.zposSplit 0x0040#16) = some (.halves 0x01#8 0x00#6) := by decide

/-- V-D18. -/
theorem test_zposCompose :
    valueOf (.zposCompose 0x3FAA#16 0x3FFC#16) = some (.word 0x2ABC#16) ∧
    valueOf (.zposCompose 0x0100#16 0x0040#16) = some (.word 0x0000#16) := by decide

/-- V-D19, the divisor 0x4000. -/
theorem test_degConv :
    valueOf (.degConv 0x3FFF#16) = some (.word 359#16) ∧
    valueOf (.degConv 2139#16) = some (.word 46#16) ∧
    valueOf (.degConv 0xFFFF#16) = some (.word 1439#16) ∧
    valueOf (.degConv 8192#16) = some (.word 180#16) := by decide

/-! ### Requests, one step each (V-D26, V-D28; the schedules of R182) -/

/-- Whether a step accepts a request and latches just these operands. -/
def latches (o : Out) (op : Op) (reg : Option Register) (wdata : Option Word) (fn : Option Fn) : Bool :=
  (after o).any fun t => decide (t.phase = .run 0 .issue) && decide (t.reqOp = some op) && decide (t.reqReg = reg)
    && decide (t.reqWdata = wdata) && decide (t.reqFn = fn)

theorem test_read : latches (exec (.read 0x3FFD#14) fresh) .read (some .mag) none none = true := by decide

theorem test_write : latches (exec (.write 0x0018#14 0xC004#16) fresh) .write (some .settings1) (some 0xC004#16) none =
    true := by decide

theorem test_modify : latches (exec (.modify 0x0017#14 .arg) fresh) .modify (some .zposl) none (some .arg) =
    true := by decide

theorem test_angle : latches (exec .angle fresh) .angle none none none = true := by decide

theorem test_angleDeg : latches (exec .angleDeg fresh) .angleDeg none none none = true := by decide

theorem test_magnitude : latches (exec .magnitude fresh) .magnitude none none none = true := by decide

theorem test_diag : latches (exec .diag fresh) .diag none none none = true := by decide

theorem test_clrerr : latches (exec .clrerr fresh) .clrerr none none none = true := by decide

theorem test_zposGet : latches (exec .zposGet fresh) .zposGet none none none = true := by decide

theorem test_zposSet : latches (exec (.zposSet 0xEABC#16) fresh) .zposSet none (some 0xEABC#16) none = true := by decide

/-- R82, D15: an ANGLE is latched whole, the fields it ignores among them, and leaves its port. -/
theorem test_latched_whole :
    latches (step { fresh with reqPort := [⟨0x0C0160005#34, .lit 7#16⟩] }) .angle (some .zposm) (some 0x0005#16)
      (some (.lit 7#16)) = true ∧
    (after (step { fresh with reqPort := [⟨0x0C0160005#34, .lit 7#16⟩] })).map (fun t => t.reqPort) = some [] := by
  decide

/-- V-D26: no transaction, Ok, RELEASED. -/
theorem test_release : endOf (exec .release fresh) = some ([], [.ok none], .released) := by decide

/-- V-D26: a request after it is refused. -/
theorem test_release_is_final :
    exec .angle { fresh with phase := .released, owned := false } = .refused .released := rfl

/-- V-D28: READ of 0x0002. -/
theorem test_read_unmapped : exec (.read 0x0002#14) fresh = .refused (.noSuchRegister 0x0002#14) := rfl

/-- V-D28: ZPOS.GET with HAS_ZPOS false. -/
theorem test_zposGet_lacks :
    exec .zposGet { fresh with cfg := { testConfig with hasZpos := false } } = .refused (.lacksRegister .zposm) := rfl

theorem test_reservedB : exec .reservedB fresh = .refused (.reservedOp 0xB#4) := rfl

theorem test_reservedC : exec .reservedC fresh = .refused (.reservedOp 0xC#4) := rfl

theorem test_reservedD : exec .reservedD fresh = .refused (.reservedOp 0xD#4) := rfl

theorem test_reservedE : exec .reservedE fresh = .refused (.reservedOp 0xE#4) := rfl

theorem test_reservedF : exec .reservedF fresh = .refused (.reservedOp 0xF#4) := rfl

/-- R353: a request presented while an operation runs waits. -/
theorem test_busy :
    (after (exec .angle { issuing .read 0 with reqPort := [⟨0x0C0000000#34, .arg⟩] })).map
      (fun t => (t.phase, t.reqPort)) = some (.run 0 .issue, [⟨0x0C0000000#34, .arg⟩]) := by decide

/-- D19, V-D11: MODIFY's function is evaluated at 0x00C0 before the write command, in a step that sends nothing; so are
the two field setters of ZPOS.SET. -/
theorem test_evaluation :
    (after (step (issuing .modify 2))).map (fun t => (t.fnValue, t.phase, t.trace)) =
      some (some 0x00FC#16, .run 2 .issue, []) ∧
    (after (step (issuing .zposSet 2))).map (fun t => t.fnValue) = some (some 0x00AA#16) ∧
    (after (step (issuing .zposSet 7))).map (fun t => t.fnValue) = some (some 0x00FC#16) := by decide

/-! ### Frames, one step each -/

/-- The two bytes a step sends first. -/
def sends (o : Out) : Option (Byte × Byte) := (after o).bind newestSent

/-- P1 and V-D24: the read commands of ANGLE, and of ZPOSL in ZPOS.GET. -/
theorem test_cmdRd :
    sends (step (issuing .angle 0)) = some (0xFF#8, 0xFF#8) ∧
    sends (step (issuing .zposGet 2)) = some (0xC0#8, 0x17#8) := by decide

/-- P5: the write commands of ZPOSM and ZPOSL in ZPOS.SET. -/
theorem test_cmdWr :
    sends (step { issuing .zposSet 2 with fnValue := some 0x00AA#16 }) = some (0x80#8, 0x16#8) ∧
    sends (step { issuing .zposSet 7 with fnValue := some 0x00FC#16 }) = some (0x00#8, 0x17#8) := by decide

/-- V-D11 and P5: `f(0x00C0)` in a MODIFY, the LSB field set in 0x00C0 and the MSB field in 0x0000 in ZPOS.SET. -/
theorem test_data :
    sends (step (issuing .modify 3)) = some (0x00#8, 0xFC#8) ∧
    sends (step (issuing .zposSet 8)) = some (0x00#8, 0xFC#8) ∧
    sends (step (issuing .zposSet 3)) = some (0x00#8, 0xAA#8) := by decide

/-- V-D10: the data frame of `WRITE SETTINGS1, 0xC004` is 0x8004. -/
theorem test_data_truncates :
    sends (step { issuing .write 1 with reqWdata := some 0xC004#16 }) = some (0x80#8, 0x04#8) := by decide

theorem test_nop : sends (step (issuing .write 2)) = some (0x00#8, 0x00#8) := by decide

/-- P1, complete 1: Ok(0x1234); V-D10: a WRITE confirmed delivers no value. -/
theorem test_resp_good :
    endOf (step (waiting .angle 1 0x0000#16 [.ok 0x92#8 0x34#8])) =
      some ([⟨0x00#8, 0x00#8, some (.ok 0x92#8 0x34#8)⟩], [.ok (some 0x1234#16)], .idle) ∧
    endOf (step (waiting .write 2 0x0000#16 [.ok 0x80#8 0x04#8])) =
      some ([⟨0x00#8, 0x00#8, some (.ok 0x80#8 0x04#8)⟩], [.ok none], .idle) := by decide

/-- V-S5, P7: parity first, then the flag. -/
theorem test_resp_bad :
    endOf (step (waiting .read 1 0x0000#16 [.ok 0xC0#8 0x01#8])) =
      some ([⟨0x00#8, 0x00#8, some (.ok 0xC0#8 0x01#8)⟩], [.err .parityError], .idle) ∧
    endOf (step (waiting .read 1 0x0000#16 [.ok 0xFF#8 0xFF#8])) =
      some ([⟨0x00#8, 0x00#8, some (.ok 0xFF#8 0xFF#8)⟩], [.err .sensorError], .idle) := by decide

/-- V-D9: the first frame of a READ is ignored though it has bad parity and bit 14 set. -/
theorem test_ignored :
    endOf (step (waiting .read 0 0x7FFD#16 [.ok 0xC0#8 0x01#8])) =
      some ([⟨0x7F#8, 0xFD#8, some (.ok 0xC0#8 0x01#8)⟩], [], .run 1 .issue) := by decide

/-- P6: the transport fails in the data frame of a WRITE. -/
theorem test_fail :
    endOf (step (waiting .write 1 0x0055#16 [.fail ⟨1⟩])) =
      some ([⟨0x00#8, 0x55#8, some (.fail ⟨1⟩)⟩], [.err (.communication ⟨1⟩)], .idle) := by decide

/-- P10: no outcome, no progress. -/
theorem test_hang :
    endOf (step (waiting .magnitude 1 0x0000#16 [])) = some ([⟨0x00#8, 0x00#8, none⟩], [], .run 1 .wait) := by decide

/-- The result of the last transaction of an operation. -/
def delivers (o : Out) : Option (List Result) := (after o).map fun t => t.results

/-- V-D20, V-D21, V-D22. -/
theorem test_values :
    delivers (step (waiting .angleDeg 1 0x0000#16 [.ok 0xA0#8 0x00#8])) = some [.ok (some 180#16)] ∧
    delivers (step (waiting .angleDeg 1 0x0000#16 [.ok 0x3F#8 0xFF#8])) = some [.ok (some 359#16)] ∧
    delivers (step (waiting .magnitude 1 0x0000#16 [.ok 0x8A#8 0xBC#8])) = some [.ok (some 0x0ABC#16)] ∧
    delivers (step (waiting .diag 1 0x0000#16 [.ok 0x02#8 0x80#8])) = some [.ok (some 0x0280#16)] := by decide

/-- V-D23: CLRERR with the value, and without. -/
theorem test_clrerr_values :
    delivers (step (waiting .clrerr 1 0x0000#16 [.ok 0x80#8 0x02#8])) = some [.ok (some 0x0002#16)] ∧
    delivers (step { waiting .clrerr 1 0x0000#16 [.ok 0x80#8 0x02#8] with
      cfg := { testConfig with clrerrReturnsValue := false } }) = some [.ok none] := by decide

/-- V-D24: ZPOS.GET of 0x00AA and 0x00FC. -/
theorem test_zposGet_value :
    delivers (step { waiting .zposGet 3 0x0000#16 [.ok 0x00#8 0xFC#8] with acc := some 0x00AA#16 }) =
      some [.ok (some 0x2ABC#16)] := by decide

/-! ### The host's words placed after reset -/

/-- The first step after reset takes the placed request (the fresh configuration is not read by ZPOS.SET's operands). -/
theorem test_withFetchWord :
    (after (step (State.reset.withFetchWord 40 0x240002ABC))).map (fun t => (t.phase, t.reqOp, t.reqWdata)) =
      some (.run 0 .issue, some .zposSet, some 0x2ABC#16) ∧
    sends (step (State.reset.withFetchWord 16 0xFFFF)) = some (0xFF#8, 0xFF#8) := by decide

/-! ### Witnesses: for each statement with hypotheses, states and operands that meet them -/

theorem witness_ParityLawJoinsComputeAndVerify :
    parVerify 0x9234#16 = true ∧ (0 < 16 ∧ 15 < 16 ∧ (0 : Nat) ≠ 15) := by decide

theorem witness_EveryStepSendsEvenFrames :
    evenTrace (issuing .angle 0) = true ∧
    ∃ t, step (issuing .angle 0) = .next t ∧ decide (t.trace.length = 1) = true :=
  ⟨by decide, next_of (by decide)⟩

theorem witness_FldGetReadsItsField : ((0 : Fin 16) ≤ 15) ∧ ((15 : Fin 16) ≤ 15) := by decide

theorem witness_FldSetReplacesItsField : ((0 : Fin 16) ≤ 0) ∧ ((0 : Fin 16) ≤ 15) := by decide

theorem witness_IllegalFieldPositionRefused : ((0 : Fin 16) < 1) ∧ ((14 : Fin 16) < 15) := by decide

/-- Fields 13 to 6 and 5 to 0, in both orders. -/
theorem witness_FieldLaws :
    ((6 : Fin 16) ≤ 13 ∧ (0 : Fin 16) ≤ 5 ∧ (5 : Fin 16) < 6) ∧ ((0 : Fin 16) ≤ 0 ∧ (1 : Fin 16) ≤ 15) := by decide

theorem witness_DiagnosticsValidity :
    layoutOk fresh.cfg.diag = true ∧ layoutOk ⟨9, 11, 8, 10⟩ = true ∧ layoutOk ⟨11, 10, 9, 8⟩ = false := by decide

theorem witness_DegreeConversionIsFloor : (0x3FFF#16).toNat < 16384 ∧ (0x0000#16).toNat < 16384 := by decide

theorem witness_CombinationalFunctionsChangeNothing :
    encode (.fldGet 0x0480#16 7 0) = .comb .fldGet 0x0480#16 [7#16, 0#16] ∧
    ∃ t, exec (.fldGet 0x0480#16 7 0) fresh = .next t ∧ decide (t.outs.length = 1) = true :=
  ⟨by decide, next_of (by decide)⟩

/-- The lowest and the highest address of the default map. -/
theorem witness_ReadWriteModifyAccepted :
    fresh.phase = .idle ∧ fresh.owned = true ∧ registerAt fresh.cfg 0x0001#14 = some .errfl ∧
    registerAt fresh.cfg 0x3FFF#14 = some .anglecom := by decide

theorem witness_SensorOperationsAccepted :
    fresh.phase = .idle ∧ fresh.owned = true ∧ (addrOf fresh.cfg fresh.cfg.angleReg).isSome = true ∧
    (addrOf fresh.cfg .mag).isSome = true ∧ (addrOf fresh.cfg .diaagc).isSome = true ∧
    (addrOf fresh.cfg .errfl).isSome = true ∧ (addrOf fresh.cfg .zposm).isSome = true ∧
    (addrOf fresh.cfg .zposl).isSome = true ∧
    ∃ t, step { fresh with reqPort := [⟨0x0C0160005#34, .lit 7#16⟩] } = .next t ∧
      decide (t.phase = .run 0 .issue) = true :=
  ⟨by decide, by decide, by decide, by decide, by decide, by decide, by decide, by decide, next_of (by decide)⟩

/-- A map that holds `SETTINGS1` alone. -/
theorem witness_MissingRegisterRefused :
    ({ fresh with cfg := { testConfig with regmap := [(.settings1, 0x0018#14)] } } : State).phase = .idle ∧
    ({ fresh with cfg := { testConfig with regmap := [(.settings1, 0x0018#14)] } } : State).owned = true ∧
    addrOf { testConfig with regmap := [(.settings1, 0x0018#14)] } .anglecom = none ∧
    addrOf { testConfig with regmap := [(.settings1, 0x0018#14)] } .mag = none ∧
    addrOf { testConfig with regmap := [(.settings1, 0x0018#14)] } .diaagc = none ∧
    addrOf { testConfig with regmap := [(.settings1, 0x0018#14)] } .errfl = none := by decide

theorem witness_ReleaseGivesTheTransportBack :
    (fresh.phase = .idle ∧ fresh.owned = true ∧ workingEmpty fresh = true) ∧
    encode .reservedF = .request 0x3C0000000#34 .arg ∧
    ∃ t, exec .release fresh = .next t ∧ decide (t.phase = .released) = true :=
  ⟨by decide, by decide, next_of (by decide)⟩

/-- Clause 2: 0x0002 is no register's address. -/
theorem witness_RefusedRequests_unmapped :
    fresh.phase = .idle ∧ fresh.owned = true ∧ (∀ r, addrOf fresh.cfg r ≠ some 0x0002#14) ∧
    regmapOk fresh.cfg = true := by
  refine ⟨by decide, by decide, fun r h => ?_, by decide⟩
  unfold addrOf at h
  rw [Option.map_eq_some_iff] at h
  obtain ⟨e, he, h⟩ := h
  have hm := List.mem_of_find?_eq_some he
  have hall : ∀ e ∈ regmapOf fresh.cfg, e.2 ≠ 0x0002#14 := by decide
  exact hall e hm h

/-- Clauses 1 and 3 to 5: RELEASED is no running phase, RELEASE has the last `op` code that is not reserved, ZPOS.GET
without ZPOSM, and a request on the port of a running block. -/
theorem witness_RefusedRequests :
    (∀ k sub, ({ fresh with phase := .released, owned := false } : State).phase ≠ .run k sub) ∧
    (encode .release = .request 0x280000000#34 .arg ∧ requestOp 0x280000000#34 ≤ 0xA ∧
      ({ fresh with phase := .released, owned := false } : State).owned = false) ∧
    (({ fresh with cfg := { testConfig with hasZpos := false } } : State).phase = .idle ∧
      ({ fresh with cfg := { testConfig with hasZpos := false } } : State).owned = true ∧
      ({ fresh with cfg := { testConfig with hasZpos := false } } : State).cfg.hasZpos = false) ∧
    ((issuing .read 1).phase = .run 1 .issue ∧
      ∃ t, step { issuing .read 1 with reqPort := [⟨0, .arg⟩] } = .next t ∧
        decide (t.reqPort = [⟨0, .arg⟩]) = true) ∧
    (inv { issuing .read 1 with reqPort := [⟨0, .arg⟩] } = true ∧ (issuing .read 1).turns = []) := by
  refine ⟨?_, by decide, by decide, ⟨by decide, next_of (by decide)⟩, by decide⟩
  intro k sub h
  cases h

theorem witness_RequestsOutOfTurn :
    encode .release = .request 0x280000000#34 .arg ∧ requestOp 0x280000000#34 ≤ 0xA ∧
    (issuing .read 1).owned = true ∧ (issuing .read 1).phase = .run 1 .issue := by decide

/-- A state of each clause: operations with their operands as accept latches them, and the WRITE halves of the invariant. -/
theorem witness_ScheduleTable :
    ((issuing .read 0).reqReg = some .zposl ∧ (issuing .zposSet 0).reqWdata = some 0x2ABC#16 ∧
      (∀ op, (issuing op 0).reqOp = some op ∧ (issuing op 0).cfg = testConfig)) ∧
    (addrOf testConfig .zposl = some 0x0017#14 ∧ addrOf testConfig testConfig.angleReg = some 0x3FFF#14 ∧
      addrOf testConfig .zposm = some 0x0016#14 ∧ addrOf testConfig .mag = some 0x3FFD#14 ∧
      addrOf testConfig .diaagc = some 0x3FFC#14 ∧ addrOf testConfig .errfl = some 0x0001#14) ∧
    (inv (issuing .modify 3) = true ∧ (issuing .modify 3).phase = .run 3 .issue ∧
      (issuing .modify 3).reqFn.isSome = true ∧ (issuing .modify 3).acc = some 0x00C0#16) ∧
    (inv (issuing .zposSet 3) = true ∧ inv (issuing .zposSet 8) = true ∧
      inv (waiting .zposSet 8 0x00FC#16 []) = true) ∧
    ({ issuing .zposGet 3 with resValue := some 0x00FC#16 } : State).resValue = some 0x00FC#16 :=
  ⟨⟨by decide, by decide, fun _ => ⟨rfl, rfl⟩⟩, by decide, by decide, by decide, rfl⟩

/-- One frame of each kind where the schedule sends it. -/
theorem witness_ScheduledFrameIsIssued :
    scheduledFrame (issuing .angle 0) 0 = .ok (.command, packFrame true true 0x3FFF#14) ∧
    scheduledFrame (issuing .zposSet 2) 2 = .ok (.command, packFrame true false 0x0016#14) ∧
    scheduledFrame (issuing .modify 3) 3 = .ok (.data, packFrame false false 0x00FC#14) ∧
    scheduledFrame (issuing .zposSet 9) 9 = .ok (.nop, 0x0000#16) ∧
    dueFn { issuing .zposSet 2 with fnValue := some 0x00AA#16 } 2 = none ∧
    ∀ op k, (issuing op k).phase = .run k .issue :=
  ⟨by decide, by decide, by decide, by decide, by decide, fun _ _ => rfl⟩

theorem witness_UnscheduledFrameRefused :
    (encode .nop = .sent .nop 0x0000#16 ∧ fresh.phase = .idle) ∧
    ((issuing .angle 0).phase = .run 0 .issue ∧ scheduledFrame (issuing .angle 0) 0 = .ok (.command, 0xFFFF#16) ∧
      ((.command, 0xFFFF#16) : FramePos × Word) ≠ (.nop, 0x0000#16)) ∧
    (encode (.cmdWr false 0x0017#14) = .sent .command 0x0017#16 ∧
      dueFn (issuing .modify 2) 2 = some .reqFn) := by decide

/-- Transaction 0 of a READ, and transaction 8 of a ZPOS.SET, the last ignored one. -/
theorem witness_IgnoredFrameChangesNothing :
    ((waiting .read 0 0x7FFD#16 []).phase = .run 0 .wait ∧
      currentEntry (waiting .read 0 0x7FFD#16 []) 0 = .ok ⟨.readCmd .operand, .ignore, none⟩ ∧
      (waiting .read 0 0x7FFD#16 []).trace = [⟨0x7F#8, 0xFD#8, none⟩]) ∧
    currentEntry (waiting .zposSet 8 0x00FC#16 []) 8 = .ok ⟨.data .fnValue, .ignore, none⟩ := by decide

/-- Odd parity with bit 14 set, and even parity with bit 14 set, in transaction 1 of a READ. -/
theorem witness_BadValidatedFrameRaises :
    (waiting .read 1 0x0000#16 []).phase = .run 1 .wait ∧
    currentEntry (waiting .read 1 0x0000#16 []) 1 = .ok ⟨.nop, .keepValue, none⟩ ∧ Handling.keepValue ≠ Handling.ignore ∧
    (waiting .read 1 0x0000#16 []).trace = [⟨0x00#8, 0x00#8, none⟩] ∧
    ones 16 (packFrame true true 0x0001#14) % 2 = 1 ∧ ones 16 (packFrame true true 0x0000#14) % 2 = 0 := by decide

/-- Transaction 1 of a ZPOS.GET keeps ACC, transaction 4 of a ZPOS.SET discards, and the last ones of ZPOS.GET and READ
keep RES.value. -/
theorem witness_GoodValidatedFrameIsKept :
    ((waiting .zposGet 1 0x0000#16 []).phase = .run 1 .wait ∧ (waiting .zposGet 1 0x0000#16 []).reqOp = some .zposGet ∧
      (schedule .zposGet)[1]? = some ⟨.nop, .keepAcc, none⟩ ∧ 1 + 1 < (schedule .zposGet).length ∧
      ones 16 (packFrame false false 0x00AA#14) % 2 = 0 ∧
      (waiting .zposGet 1 0x0000#16 []).trace = [⟨0x00#8, 0x00#8, none⟩]) ∧
    ((schedule .zposSet)[4]? = some ⟨.nop, .discard, none⟩ ∧ 4 + 1 < (schedule .zposSet).length) ∧
    (3 + 1 = (schedule .zposGet).length ∧ (waiting .zposGet 3 0x0000#16 []).acc = some 0x00C0#16 ∧
      1 + 1 = (schedule .read).length) := by decide

theorem witness_TransportFailureAborts :
    (waiting .write 1 0x0055#16 [.fail ⟨1⟩]).turns = [] ∧
    (waiting .write 1 0x0055#16 [.fail ⟨1⟩]).phase = .run 1 .wait ∧
    (waiting .write 1 0x0055#16 [.fail ⟨1⟩]).answers = [.fail ⟨1⟩] ∧
    (waiting .write 1 0x0055#16 [.fail ⟨1⟩]).trace = [⟨0x00#8, 0x55#8, none⟩] := by decide

theorem witness_UnansweredTransactionWaitsForEver :
    (waiting .magnitude 1 0x0000#16 []).turns = [] ∧ (waiting .magnitude 1 0x0000#16 []).phase = .run 1 .wait ∧
    (waiting .magnitude 1 0x0000#16 []).answers = [] := by decide

/-- The premises of a whole operation on a fresh block, whatever outcomes are to come: those of each clause among them. -/
theorem fresh_premises (answers : List Answer) :
    (freshWith answers).phase = .idle ∧ (freshWith answers).owned = true ∧ (freshWith answers).turns = [] ∧
    regmapOk (freshWith answers).cfg = true ∧ (freshWith answers).answers = answers :=
  ⟨rfl, rfl, rfl, by show regmapOk testConfig = true; decide, rfl⟩

/-- The lowest and the highest address of the map, with any outcomes. -/
theorem witness_ReadOutcomes (answers : List Answer) :
    ((freshWith answers).phase = .idle ∧ (freshWith answers).owned = true ∧ (freshWith answers).turns = [] ∧
      regmapOk (freshWith answers).cfg = true ∧ (freshWith answers).answers = answers) ∧
    registerAt (freshWith answers).cfg 0x0001#14 = some .errfl ∧
    registerAt (freshWith answers).cfg 0x3FFF#14 = some .anglecom :=
  ⟨fresh_premises answers, by show registerAt testConfig _ = _; decide, by show registerAt testConfig _ = _; decide⟩

theorem witness_WriteOutcomes (answers : List Answer) :
    ((freshWith answers).phase = .idle ∧ (freshWith answers).owned = true ∧ (freshWith answers).turns = [] ∧
      regmapOk (freshWith answers).cfg = true ∧ (freshWith answers).answers = answers) ∧
    registerAt (freshWith answers).cfg 0x0018#14 = some .settings1 :=
  ⟨fresh_premises answers, by show registerAt testConfig _ = _; decide⟩

theorem witness_SensorReadOutcomes (answers : List Answer) :
    ((freshWith answers).phase = .idle ∧ (freshWith answers).owned = true ∧ (freshWith answers).turns = [] ∧
      regmapOk (freshWith answers).cfg = true ∧ (freshWith answers).answers = answers) ∧
    sensorRead (freshWith answers).cfg .magnitude = some (.mag, fun t => some t) ∧
    addrOf (freshWith answers).cfg .mag = some 0x3FFD#14 :=
  ⟨fresh_premises answers, rfl, by show addrOf testConfig _ = _; decide⟩

/-- A frame of each kind for the READ half: odd, even with bit 14 set, and good. -/
theorem witness_ModifyOutcomes (answers : List Answer) :
    ((freshWith answers).phase = .idle ∧ (freshWith answers).owned = true ∧ (freshWith answers).turns = [] ∧
      regmapOk (freshWith answers).cfg = true ∧ (freshWith answers).answers = answers) ∧
    registerAt (freshWith answers).cfg 0x0017#14 = some .zposl ∧ ones 16 ((0x40#8 ++ 0xC0#8 : Word)) % 2 = 1 ∧
    ((0xC0#8 ++ 0xC0#8 : Word)).getLsbD 14 = true ∧
    ones 16 ((0x00#8 ++ 0xC0#8 : Word)) % 2 = 0 ∧ ((0x00#8 ++ 0xC0#8 : Word)).getLsbD 14 = false :=
  ⟨fresh_premises answers, by show registerAt testConfig _ = _; decide, by decide, by decide, by decide, by decide⟩

theorem witness_ZeroPositionGetOutcomes (answers : List Answer) :
    ((freshWith answers).phase = .idle ∧ (freshWith answers).owned = true ∧ (freshWith answers).turns = [] ∧
      regmapOk (freshWith answers).cfg = true ∧ (freshWith answers).answers = answers) ∧
    addrOf (freshWith answers).cfg .zposm = some 0x0016#14 ∧ addrOf (freshWith answers).cfg .zposl = some 0x0017#14 ∧
    ones 16 ((0x40#8 ++ 0xAA#8 : Word)) % 2 = 1 ∧ ones 16 ((0x00#8 ++ 0xAA#8 : Word)) % 2 = 0 ∧
    ((0x00#8 ++ 0xAA#8 : Word)).getLsbD 14 = false :=
  ⟨fresh_premises answers, by show addrOf testConfig _ = _; decide, by show addrOf testConfig _ = _; decide,
    by decide, by decide, by decide⟩

/-- The three validated frames of P5 that are not the last. -/
theorem witness_ZeroPositionSetFrames (answers : List Answer) :
    ((freshWith answers).phase = .idle ∧ (freshWith answers).owned = true ∧ (freshWith answers).turns = [] ∧
      regmapOk (freshWith answers).cfg = true ∧ (freshWith answers).answers = answers) ∧
    addrOf (freshWith answers).cfg .zposm = some 0x0016#14 ∧ addrOf (freshWith answers).cfg .zposl = some 0x0017#14 ∧
    ∀ x ∈ [(0x00#8 ++ 0x00#8 : Word), 0x00#8 ++ 0xAA#8, 0x00#8 ++ 0xC0#8],
      ones 16 x % 2 = 0 ∧ x.getLsbD 14 = false := by
  refine ⟨fresh_premises answers, by show addrOf testConfig _ = _; decide, by show addrOf testConfig _ = _; decide,
    fun x hx => ?_⟩
  rcases List.mem_cons.mp hx with rfl | hx
  · decide
  · rcases List.mem_cons.mp hx with rfl | hx
    · decide
    · rw [List.mem_singleton.mp hx]
      decide

/-- The first request with pseudo-code and the longest. -/
theorem witness_RequestsRunTheirPseudocode (answers : List Answer) :
    ((freshWith answers).phase = .idle ∧ (freshWith answers).owned = true ∧ (freshWith answers).turns = [] ∧
      regmapOk (freshWith answers).cfg = true ∧ (freshWith answers).answers = answers) ∧
    (∃ P, pseudoCode (freshWith answers).cfg (.read 0x0001#14) = some P) ∧
    ∃ P, pseudoCode (freshWith answers).cfg (.zposSet 0xFFFF#16) = some P :=
  ⟨fresh_premises answers, ⟨_, rfl⟩, ⟨_, rfl⟩⟩

/-- Before the first transaction of a READ, and in the last of a ZPOS.SET. -/
theorem witness_EveryAnsweredOperationEnds :
    (inv { issuing .read 0 with answers := [.ok 0 0, .ok 0 0] } = true ∧
      EnvTransport ((schedule .read).length - 0) { issuing .read 0 with answers := [.ok 0 0, .ok 0 0] }) ∧
    (inv (waiting .zposSet 9 0x0000#16 [.ok 0 0]) = true ∧
      (waiting .zposSet 9 0x0000#16 [.ok 0 0]).turns = [] ∧
      (waiting .zposSet 9 0x0000#16 [.ok 0 0]).phase = .run 9 .wait ∧
      (waiting .zposSet 9 0x0000#16 [.ok 0 0]).reqOp = some .zposSet ∧
      EnvTransport ((schedule .zposSet).length - 9) (waiting .zposSet 9 0x0000#16 [.ok 0 0])) := by
  refine ⟨⟨by decide, ?_⟩, by decide, by decide, by decide, by decide, ?_⟩ <;> (unfold EnvTransport; decide)

theorem witness_StepKeepsTheInvariant :
    inv (waiting .modify 1 0x0000#16 [.ok 0x00#8 0xC0#8]) = true ∧
    ∃ t, step (waiting .modify 1 0x0000#16 [.ok 0x00#8 0xC0#8]) = .next t ∧ decide (t.acc = some 0x00C0#16) = true :=
  ⟨by decide, next_of (by decide)⟩

/-- Accepting at IDLE, and the end of the last transaction of a READ. -/
theorem witness_PhaseMovesForward :
    (inv { fresh with reqPort := [⟨0x0C0000000#34, .arg⟩] } = true ∧
      ∃ t, step { fresh with reqPort := [⟨0x0C0000000#34, .arg⟩] } = .next t ∧
        decide (t.phase = .run 0 .issue) = true) ∧
    (inv (waiting .read 1 0x0000#16 [.ok 0 0]) = true ∧
      ∃ t, step (waiting .read 1 0x0000#16 [.ok 0 0]) = .next t ∧ decide (t.phase = .idle) = true) :=
  ⟨⟨by decide, next_of (by decide)⟩, by decide, next_of (by decide)⟩

theorem witness_NoStepFaults : inv (issuing .modify 3) = true ∧ inv fresh = true := by decide

theorem witness_ConfigurationIsFixed :
    ∃ t, step (issuing .angle 0) = .next t ∧ decide (t.phase = .run 0 .wait) = true := next_of (by decide)

/-- Both clauses: a released block with nothing on its port, and with a request there. -/
theorem witness_ReleasedIsFinal :
    inv { fresh with phase := .released, owned := false } = true ∧
    (∃ t, step { fresh with phase := .released, owned := false } = .next t ∧ decide (t.phase = .released) = true) ∧
    inv { fresh with phase := .released, owned := false, reqPort := [⟨0, .arg⟩] } = true ∧
    ({ fresh with phase := .released, owned := false, reqPort := [⟨0, .arg⟩] } : State).reqPort = [⟨0, .arg⟩] :=
  ⟨by decide, next_of (by decide), by decide, rfl⟩

/-- A step that starts a transaction and a step that records an outcome. -/
theorem witness_OneTransactionAtATime :
    (inv (issuing .angle 0) = true ∧ ∃ t, step (issuing .angle 0) = .next t ∧ decide (t.trace.length = 1) = true) ∧
    (inv (waiting .angle 0 0xFFFF#16 [.ok 0 0]) = true ∧
      ∃ t, step (waiting .angle 0 0xFFFF#16 [.ok 0 0]) = .next t ∧
        decide (t.trace = [⟨0xFF#8, 0xFF#8, some (.ok 0 0)⟩]) = true) :=
  ⟨⟨by decide, next_of (by decide)⟩, by decide, next_of (by decide)⟩

theorem witness_ResultEndsTheOperation :
    ∃ t, step (waiting .angle 1 0x0000#16 [.ok 0 0]) = .next t ∧ decide (t.results.length = 1) = true :=
  next_of (by decide)

/-- An evaluation while a transaction is outstanding (R358). -/
theorem witness_EvaluationLeavesTheBlock :
    ∃ t, step { waiting .angle 1 0x0000#16 [] with turns := [.evaluate .diagAgc 0x0480#16 [], .block] } = .next t ∧
      decide (t.outs = [⟨.diagAgc, .byte 0x80#8⟩]) = true := next_of (by decide)

/-- Two blocks with different pasts in the same transaction. -/
theorem witness_HistoryHasNoInfluence :
    sameButHistory (waiting .angle 1 0x0000#16 [.ok 0 0])
      { waiting .angle 1 0x0000#16 [.ok 0 0] with
        results := [.err .parityError], rxw := some 0xC000#16,
        trace := [⟨0x00#8, 0x00#8, none⟩, ⟨0xFF#8, 0xFF#8, some (.ok 0 0)⟩] } ∧
    newestSent (waiting .angle 1 0x0000#16 [.ok 0 0]) = some (0x00#8, 0x00#8) ∧
    ∃ t, step (waiting .angle 1 0x0000#16 [.ok 0 0]) = .next t ∧ decide (t.results.length = 1) = true :=
  ⟨rfl, by decide, next_of (by decide)⟩

theorem witness_IgnoredFramesHaveNoInfluence :
    (waiting .write 1 0x8004#16 []).turns = [] ∧ (waiting .write 1 0x8004#16 []).phase = .run 1 .wait ∧
    currentEntry (waiting .write 1 0x8004#16 []) 1 = .ok ⟨.data .wdata, .ignore, none⟩ := by decide

/-- U2: what comes after an operation that failed is not settled, and what comes after the next is. -/
theorem test_settled :
    settledAfter [⟨.read, [⟨0xFF#8, 0xFD#8, some (.fail ⟨0⟩)⟩]⟩] = false ∧
    settledAfter [⟨.read, [⟨0xFF#8, 0xFD#8, some (.fail ⟨0⟩)⟩]⟩,
      ⟨.read, [⟨0xFF#8, 0xFD#8, some (.ok 0 0)⟩, ⟨0, 0, some (.ok 0 0)⟩]⟩] = true := by decide

/-- A READ of MAG whose answer carries the content 0x0ABC, the first operation of a block. -/
theorem witness_ReadReturnsTheContent :
    ((freshWith [.ok 0 0, .ok 0x8A#8 0xBC#8]).phase = .idle ∧ (freshWith [.ok 0 0, .ok 0x8A#8 0xBC#8]).owned = true ∧
      (freshWith [.ok 0 0, .ok 0x8A#8 0xBC#8]).turns = [] ∧ regmapOk testConfig = true ∧
      registerAt testConfig 0x3FFD#14 = some .mag) ∧
    History [] (freshWith [.ok 0 0, .ok 0x8A#8 0xBC#8]) ∧ settledAfter [] = true ∧
    ∃ s0 t, exec (.read 0x3FFD#14) (freshWith [.ok 0 0, .ok 0x8A#8 0xBC#8]) = .next s0 ∧ run 4 s0 = .next t ∧
      EnvRead (fun _ _ => 0x0ABC#14) (fun _ => false) ([] ++ [⟨.read, t.log.drop 0⟩]) := by
  refine ⟨by decide, .created _ rfl, rfl, _, _, rfl, rfl, ?_⟩
  intro n x y a r hx _ ha hy hrec
  match n with
  | 0 =>
    have : y.did = ⟨0x00#8, 0x00#8, some (.ok 0x8A#8 0xBC#8)⟩ := by cases hy; rfl
    rw [this] at hrec
    cases hrec
    show payloadOf (ofWire 0x8A#8 0xBC#8) = 0x0ABC#14 ∧ errorFlag (ofWire 0x8A#8 0xBC#8) = false ∧
      parVerify (ofWire 0x8A#8 0xBC#8) = true
    decide
  | 1 => cases hx; cases ha
  | n + 2 => cases hx

theorem witness_FramesAreBigEndian :
    (waiting .read 0 0x7FFD#16 [.ok 0xC0#8 0x01#8]).turns = [] ∧
    ∃ t, step (waiting .read 0 0x7FFD#16 [.ok 0xC0#8 0x01#8]) = .next t ∧ decide (t.phase ≠ .idle) = true :=
  ⟨by decide, next_of (by decide)⟩

/-- Instructions of each kind at the ends of their operands. -/
theorem witness_DecodeEncodeRoundTrip :
    (.cmdRd true 0x3FFF#14 : Instr).wellFormed = true ∧ (.cmdWr true 0x0001#14 : Instr).wellFormed = true ∧
    (.data false 0x3FFF#14 : Instr).wellFormed = true ∧ (.resp true true 0x3FFF#14 : Instr).wellFormed = true ∧
    (.write 0x3FFF#14 0xFFFF#16 : Instr).wellFormed = true ∧ Instr.reservedF.wellFormed = true ∧
    (.fldSet 0xFFFF#16 15 15 0xFFFF#16 : Instr).wellFormed = true := by decide

/-- One state for each clause. -/
theorem witness_StepRunsTheDecodedInstruction :
    (fetch (issuing .angle 0) = .instr (.sent .command 0xFFFF#16) (issuing .angle 0) ∧
      decode (.sent .command 0xFFFF#16) = .ok (.cmdRd true 0x3FFF#14)) ∧
    ({ fresh with turns := [.evaluate .mkNop 0#16 []] } : State).turns = [.evaluate .mkNop 0#16 []] ∧
    ({ fresh with reqPort := [⟨0x0C0000000#34, .arg⟩] } : State).reqPort = [⟨0x0C0000000#34, .arg⟩] ∧
    scheduledFrame (issuing .angle 1) 1 = .ok (.nop, 0x0000#16) ∧
    (waiting .angle 1 0x0000#16 [.ok 0x92#8 0x34#8]).answers = [.ok 0x92#8 0x34#8] ∧
    (dueFn (issuing .modify 2) 2 = some .reqFn ∧ modFnValue (issuing .modify 2) .reqFn = .ok 0x00FC#16) ∧
    ({ fresh with turns := [.block] } : State).turns = [.block] := by
  refine ⟨⟨rfl, by decide⟩, rfl, rfl, by decide, by decide, by decide, rfl⟩

end Sys2Proof.Tests
end

section
/-! PROOF. Frames on the wire (spec 20_memory R60): the order of the two bytes as arithmetic, and the frame a step that
receives one leaves in RXW. -/

namespace Sys2Proof.Machine

/-- The first byte out is the high one (R60). -/
theorem toWire_high_toNat (w : Word) : (toWire w).1.toNat = w.toNat / 256 := by
  have hw : w.toNat / 256 < 2 ^ 8 := by have := w.isLt; omega
  show (w.extractLsb' 8 8).toNat = w.toNat / 256
  rw [BitVec.extractLsb'_toNat, Nat.shiftRight_eq_div_pow]
  exact Nat.mod_eq_of_lt hw

/-- The second byte out is the low one (R60). -/
theorem toWire_low_toNat (w : Word) : (toWire w).2.toNat = w.toNat % 256 := by
  show (w.extractLsb' 0 8).toNat = w.toNat % 256
  rw [BitVec.extractLsb'_toNat, Nat.shiftRight_zero]

/-- A received frame weighs its first byte by 256 (R60). -/
theorem ofWire_toNat (b0 b1 : Byte) : (ofWire b0 b1).toNat = b0.toNat * 256 + b1.toNat := by
  unfold ofWire
  rw [BitVec.toNat_append, ← Nat.shiftLeft_add_eq_or_of_lt b1.isLt, Nat.shiftLeft_eq]

@[simp] theorem keepPayload_rxw (h : Handling) (p : Payload) (s : State) : (keepPayload h p s).rxw = s.rxw := by
  cases h <;> rfl

/-- A received frame stays in RXW unless its completion ends the operation (R60, R183). -/
theorem completeFrame_rxw {r : Word} {s t : State} (h : completeFrame r s = .next t) (hgoes : t.phase ≠ .idle) :
    t.rxw = some r := by
  obtain ⟨k, e, -, -, ⟨p, hadv⟩ | ⟨d, rfl⟩⟩ := completeFrame_next h
  · obtain ⟨op, -, ⟨-, rfl⟩ | ⟨-, v, -, rfl⟩⟩ := advance_next hadv
    · simp
    · exact absurd rfl hgoes
  · exact absurd rfl hgoes

end Sys2Proof.Machine

namespace Sys2Proof.Proofs

open Sys2Proof Sys2Proof.Machine

/-- Settles O55: the byte order by arithmetic on the two halves, and RXW by everything a completed frame can do. -/
theorem framesAreBigEndian : Obligations.FramesAreBigEndian := by
  unfold Obligations.FramesAreBigEndian
  refine ⟨fun w => ⟨toWire_high_toNat w, toWire_low_toNat w⟩, ofWire_toNat, ?_⟩
  intro s k b0 b1 rest t hturns hphase hanswers hstep hgoes
  rw [step_received hturns hphase hanswers] at hstep
  exact completeFrame_rxw hstep hgoes

end Sys2Proof.Proofs
end

section
/-! PROOF. From entry to entry (spec 42_frame_sequencer R182, R183): where a running operation stands in its schedule,
and how a READ, a WRITE and a MODIFY half of the schedule run as their pseudo-code (R124, R184, R188, R192). -/

namespace Sys2Proof.Machine

/-! ### Before an entry of the schedule -/

/-- `s` is before entry `k` of operation `op`, the entries `es` to come, with the request that `c` has latched. -/
structure Before (c : State) (op : Op) (k : Nat) (es : List Entry) (s : State) : Prop where
  turns    : s.turns = []
  phase    : s.phase = .run k .issue
  left     : (schedule op).drop k = es
  reqOp    : s.reqOp = some op
  cfg      : s.cfg = c.cfg
  reqReg   : s.reqReg = c.reqReg
  reqWdata : s.reqWdata = c.reqWdata
  reqFn    : s.reqFn = c.reqFn

/-- An accepted request is before the whole schedule of its operation (R183). -/
theorem before_latch {s : State} (op : Op) (reg : Option Register) (d : Option Word) (fn : Option Fn)
    (ht : s.turns = []) : Before (latch op reg d fn s) op 0 (schedule op) (latch op reg d fn s) :=
  ⟨ht, rfl, rfl, rfl, rfl, rfl, rfl, rfl⟩

section
variable {c s : State} {op : Op} {k n : Nat} {e e' : Entry} {es : List Entry}

theorem Before.getElem? (hs : Before c op k (e :: es) s) : (schedule op)[k]? = some e := by
  have h := congrArg List.head? hs.left
  rwa [List.head?_drop, List.head?_cons] at h

theorem Before.length (hs : Before c op k es s) : (schedule op).length - k = es.length := by
  rw [← hs.left, List.length_drop]

theorem Before.tail (hs : Before c op k (e :: es) s) : (schedule op).drop (k + 1) = es := by
  rw [← List.tail_drop, hs.left, List.tail_cons]

theorem Before.goesOn (hs : Before c op k (e :: e' :: es) s) : k + 1 < (schedule op).length := by
  have h := hs.length
  simp only [List.length_cons] at h
  omega

theorem Before.isLast (hs : Before c op k [e] s) : k + 1 = (schedule op).length := by
  have h := hs.length
  simp only [List.length_cons, List.length_nil] at h
  omega

theorem Before.currentEntry (hs : Before c op k (e :: es) s) : currentEntry s k = .ok e := by
  simp [Machine.currentEntry, hs.reqOp, hs.getElem?]

theorem Before.dueFn_none (hs : Before c op k (e :: es) s) (he : e.evaluates = none) : dueFn s k = none :=
  dueFn_of_evaluates hs.currentEntry he

theorem Before.scheduledFrame (hs : Before c op k (e :: es) s) : scheduledFrame s k = buildFrame s e.sends := by
  simp [Machine.scheduledFrame, hs.currentEntry]

/-- The next entry, whatever frame came back. -/
theorem Before.next (hs : Before c op k (e :: es) s) (w r : Word) (b0 b1 : Byte) (rest : List Answer) :
    Before c op (k + 1) es (nextEntry s k w r b0 b1 rest) :=
  ⟨hs.turns, rfl, hs.tail, hs.reqOp, hs.cfg, hs.reqReg, hs.reqWdata, hs.reqFn⟩

theorem Before.keepPayload (hs : Before c op k es s) (keep : Handling) (p : Payload) :
    Before c op k es (keepPayload keep p s) := by
  obtain ⟨h1, h2, h3, h4, h5, h6, h7, h8⟩ := hs
  cases keep <;> exact ⟨h1, h2, h3, h4, h5, h6, h7, h8⟩

theorem Before.fnValue (hs : Before c op k es s) (u : Option Word) : Before c op k es { s with fnValue := u } :=
  ⟨hs.turns, hs.phase, hs.left, hs.reqOp, hs.cfg, hs.reqReg, hs.reqWdata, hs.reqFn⟩

/-- The address of a command frame is fixed by the latched request. -/
theorem Before.refAddr (hs : Before c op k es s) (r : RegRef) : refAddr s r = refAddr c r := by
  cases r <;> simp [Machine.refAddr, refRegister, hs.cfg, hs.reqReg]

/-! ### The frames of an entry -/

theorem Before.buildFrame_readCmd {r : RegRef} {a : Addr} (hs : Before c op k es s)
    (ha : Machine.refAddr c r = .ok a) : buildFrame s (.readCmd r) = .ok (.command, mkCmd a true) := by
  rw [buildFrame, hs.refAddr, ha]
  rfl

theorem Before.buildFrame_writeCmd {r : RegRef} {a : Addr} (hs : Before c op k es s)
    (ha : Machine.refAddr c r = .ok a) : buildFrame s (.writeCmd r) = .ok (.command, mkCmd a false) := by
  rw [buildFrame, hs.refAddr, ha]
  rfl

theorem buildFrame_data {d : DataRef} {v : Word} (h : dataValue s d = .ok v) :
    buildFrame s (.data d) = .ok (.data, mkData v) := by
  rw [buildFrame, h]
  rfl

/-! ### One transaction -/

/-- A transaction whose response is ignored (R163). -/
theorem Before.follows_ignored {spec : FrameSpec} {g : Option ModFn} {pos : FramePos} {w : Word}
    {P : Proc (Option Word)} (hs : Before c op k (⟨spec, .ignore, g⟩ :: e' :: es) s) (hdue : dueFn s k = none)
    (hf : buildFrame s spec = .ok (pos, w))
    (h : ∀ t, Before c op (k + 1) (e' :: es) t → t.acc = s.acc → t.fnValue = s.fnValue → Follows n t P) :
    Follows (n + 2) s (thenP (xferP w) fun _ => P) :=
  Machine.follows_ignored hs.turns hs.phase hs.reqOp hs.getElem? rfl hs.goesOn hdue (hs.scheduledFrame.trans hf)
    fun b0 b1 rest => h _ (hs.next w _ b0 b1 rest) rfl rfl

/-- A validated NOP with entries after it (R181). -/
theorem Before.follows_nop {keep : Handling} {f : Word → Proc (Option Word)}
    (hs : Before c op k (⟨.nop, keep, none⟩ :: e' :: es) s) (hk : keep ≠ .ignore)
    (h : ∀ t p, Before c op (k + 1) (e' :: es) t → Follows n (Machine.keepPayload keep p t) (f (zext p))) :
    Follows (n + 2) s (thenP (xferP mkNop) fun r => thenP (validateP r) f) :=
  follows_validated hs.turns hs.phase hs.reqOp hs.getElem? hk hs.goesOn (hs.dueFn_none rfl) hs.scheduledFrame
    fun b0 b1 rest p => h _ p (hs.next mkNop _ b0 b1 rest)

/-- The validated NOP that ends the operation (R183 finish). -/
theorem Before.follows_lastNop {keep : Handling} {g : Word → Option Word}
    (hs : Before c op k [⟨.nop, keep, none⟩] s) (hk : keep ≠ .ignore)
    (h : ∀ t p, t.cfg = c.cfg → t.acc = s.acc →
      finishValue op (Machine.keepPayload keep p t) = .ok (g (zext p))) :
    Follows 2 s (thenP (xferP mkNop) fun r => thenP (validateP r) fun x => returnP (g x)) :=
  follows_last hs.turns hs.phase hs.reqOp hs.getElem? hk hs.isLast (hs.dueFn_none rfl) hs.scheduledFrame
    fun t p hc ha => h t p (hc.trans hs.cfg) ha

/-! ### A READ, a WRITE and a MODIFY half -/

/-- A READ whose payload goes to ACC, with entries after it (R182, R184). -/
theorem Before.follows_readToAcc {r : RegRef} {a : Addr} {f : Word → Proc (Option Word)}
    (hs : Before c op k (readEntries r .keepAcc ++ e' :: es) s) (ha : Machine.refAddr c r = .ok a)
    (h : ∀ t x, Before c op (k + 2) (e' :: es) t → t.acc = some x → t.fnValue = none → Follows n t (f x)) :
    Follows (n + 4) s (thenP (readP a) f) := by
  simp only [readP, thenP_assoc]
  refine hs.follows_ignored (hs.dueFn_none rfl) (hs.buildFrame_readCmd ha) fun t ht _ _ => ?_
  exact ht.follows_nop (by decide) fun u p hu => h _ _ (hu.keepPayload _ p) rfl rfl

/-- The READ that ends the operation, with what is returned of its payload (R182, R184). -/
theorem Before.follows_readToValue {r : RegRef} {a : Addr} {g : Word → Option Word}
    (hs : Before c op k (readEntries r .keepValue) s) (ha : Machine.refAddr c r = .ok a)
    (h : ∀ t x, t.cfg = c.cfg → t.acc = s.acc → t.resValue = some x → finishValue op t = .ok (g x)) :
    Follows 4 s (thenP (readP a) fun x => returnP (g x)) := by
  simp only [readP, thenP_assoc]
  refine hs.follows_ignored (hs.dueFn_none rfl) (hs.buildFrame_readCmd ha) fun t ht hacc _ => ?_
  exact ht.follows_lastNop (by decide) fun u p hc hu => h _ _ hc (hu.trans hacc) rfl

/-- The command and the data frame of a WRITE of `v` (R182, R188). -/
theorem Before.follows_writeFrames {r : RegRef} {a : Addr} {d : DataRef} {v : Word} {g : Option ModFn}
    {P : Proc (Option Word)}
    (hs : Before c op k (⟨.writeCmd r, .ignore, g⟩ :: ⟨.data d, .ignore, none⟩ :: e' :: es) s)
    (hdue : dueFn s k = none) (ha : Machine.refAddr c r = .ok a) (hv : dataValue s d = .ok v)
    (h : ∀ t, Before c op (k + 2) (e' :: es) t → Follows n t P) :
    Follows (n + 4) s (thenP (xferP (mkCmd a false)) fun _ => thenP (xferP (mkData v)) fun _ => P) := by
  refine hs.follows_ignored hdue (hs.buildFrame_writeCmd ha) fun t ht _ hfn => ?_
  have hvt : dataValue t d = .ok v := by
    rw [← hv]
    cases d <;> simp only [dataValue, ht.reqWdata, hs.reqWdata, hfn]
  exact ht.follows_ignored (ht.dueFn_none rfl) (buildFrame_data hvt) fun u hu _ _ => h u hu

/-- A MODIFY half up to its last NOP: the READ, the evaluation of its function, and the frames of the WRITE (R192). -/
theorem Before.follows_modifyFrames {r : RegRef} {a : Addr} {g : ModFn} {f : Word → Word} {P : Proc (Option Word)}
    (hs : Before c op k (modifyEntries r g ++ es) s) (ha : Machine.refAddr c r = .ok a)
    (hg : ∀ t x, t.reqWdata = c.reqWdata → t.reqFn = c.reqFn → t.acc = some x → modFnValue t g = .ok (f x))
    (h : ∀ t, Before c op (k + 4) (⟨.nop, .discard, none⟩ :: es) t → Follows n t P) :
    Follows (n + 9) s (thenP (readP a) fun x =>
      thenP (xferP (mkCmd a false)) fun _ => thenP (xferP (mkData (f x))) fun _ => P) := by
  refine hs.follows_readToAcc (n := n + 5) ha fun t x ht hacc hfn => ?_
  have hdue : dueFn t (k + 2) = some g := dueFn_eq_some.mpr ⟨_, ht.currentEntry, rfl, hfn⟩
  refine follows_evaluation ht.turns ht.phase hdue (hg t x ht.reqWdata ht.reqFn hacc) ?_
  exact (ht.fnValue (some (f x))).follows_writeFrames (dueFn_of_isSome rfl) ha rfl h

/-- The validated NOP with which a WRITE ends the operation (R188). -/
theorem Before.follows_writeEnd (hs : Before c op k [⟨.nop, .discard, none⟩] s)
    (hv : ∀ t, finishValue op t = .ok none) :
    Follows 2 s (thenP (xferP mkNop) fun r => thenP (validateP r) fun _ => returnP none) :=
  hs.follows_lastNop (g := fun _ => none) (by decide) fun _ _ _ _ => hv _

/-- The MODIFY that ends the operation (R192). -/
theorem Before.follows_modifyLast {r : RegRef} {a : Addr} {g : ModFn} {f : Word → Word}
    (hs : Before c op k (modifyEntries r g) s) (ha : Machine.refAddr c r = .ok a)
    (hg : ∀ t x, t.reqWdata = c.reqWdata → t.reqFn = c.reqFn → t.acc = some x → modFnValue t g = .ok (f x))
    (hv : ∀ t, finishValue op t = .ok none) : Follows 11 s (modifyP a f) :=
  hs.follows_modifyFrames (es := []) (n := 2) ha hg fun _ ht => ht.follows_writeEnd hv

/-- A MODIFY with entries after it (R192, R277). -/
theorem Before.follows_modifyThen {r : RegRef} {a : Addr} {g : ModFn} {f : Word → Word}
    {F : Option Word → Proc (Option Word)} (hs : Before c op k (modifyEntries r g ++ e' :: es) s)
    (ha : Machine.refAddr c r = .ok a)
    (hg : ∀ t x, t.reqWdata = c.reqWdata → t.reqFn = c.reqFn → t.acc = some x → modFnValue t g = .ok (f x))
    (h : ∀ t, Before c op (k + 5) (e' :: es) t → Follows n t (F none)) :
    Follows (n + 11) s (thenP (modifyP a f) F) := by
  simp only [modifyP, writeP, thenP_assoc, thenP_return]
  refine hs.follows_modifyFrames (n := n + 2) ha hg fun t ht => ?_
  exact ht.follows_nop (by decide) fun u _ hu => h u hu

end

theorem Follows.mono {m n : Nat} {s : State} {P : Proc (Option Word)} (h : Follows m s P) (hmn : m ≤ n) :
    Follows n s P := by
  obtain ⟨l, hl, rest⟩ := h
  exact ⟨l, hl.trans hmn, rest⟩

end Sys2Proof.Machine
end

section
/-! PROOF. Every request with a schedule runs as its pseudo-code (spec 30_encoding R124, 44_sensor_operations R270):
what accept leaves, and the parts of each operation's schedule put together. -/

namespace Sys2Proof.Machine

/-! ### Functions and results, where what they read is there -/

/-- The host's function at the payload in ACC (R192). -/
theorem modFnValue_reqFn {t : State} {f : Fn} {x : Word} (hf : t.reqFn = some f) (hx : t.acc = some x) :
    modFnValue t .reqFn = .ok (evalFn f x) := by
  rw [modFnValue, hf, hx]
  rfl

/-- The setter of the high half of a zero position (R277). -/
theorem modFnValue_zposm {t : State} {v x : Word} (hv : t.reqWdata = some v) (hx : t.acc = some x) :
    modFnValue t .zposm = .ok (zposmSet x (msbWord v)) := by
  rw [modFnValue, hv, hx]
  rfl

/-- The setter of the low half of a zero position (R277). -/
theorem modFnValue_zposl {t : State} {v x : Word} (hv : t.reqWdata = some v) (hx : t.acc = some x) :
    modFnValue t .zposl = .ok (zposlSet x (lsbWord v)) := by
  rw [modFnValue, hv, hx]
  rfl

/-- What finish makes of the payload in RES.value (R183). -/
theorem return_resValue {t : State} {x : Word} (f : Word → Option Word) (h : t.resValue = some x) :
    (do return f (← need .resValue t.resValue) : Except Fault (Option Word)) = .ok (f x) := by
  rw [h]
  rfl

/-- CLRERR returns the payload or nothing, as its parameter says (R275, D11). -/
theorem finishValue_clrerr {t : State} {x : Word} (h : t.resValue = some x) :
    finishValue .clrerr t = .ok (if t.cfg.clrerrReturnsValue then some x else none) := by
  simp only [finishValue, return_resValue some h]
  split <;> rfl

/-- ZPOS.GET composes the payload in ACC with the last one (R276). -/
theorem finishValue_zposGet {t : State} {m l : Word} (hm : t.acc = some m) (hl : t.resValue = some l) :
    finishValue .zposGet t = .ok (some (zext (zposCompose m l))) := by
  rw [finishValue, hm, hl]
  rfl

section
variable {s : State} {op : Op} {a : Addr} {g : Register} {reg : Option Register} {d : Option Word} {fn : Option Fn}

/-! ### Accept -/

/-- READ, WRITE and MODIFY at a register's address: latched, with that address for their command frames (R108, R183). -/
theorem accepts_at (op : Op) (d : Option Word) (fn : Option Fn) (hp : s.phase = .idle) (ho : s.owned = true)
    (hc : regmapOk s.cfg = true) (hr : registerAt s.cfg a = some g) :
    whenIdle s (acceptAt op a d fn s) = .next (latch op (some g) d fn s) ∧
      refAddr (latch op (some g) d fn s) .operand = .ok a := by
  refine ⟨(whenIdle_idle ho hp).trans (acceptAt_eq hr), ?_⟩
  simp [refAddr, refRegister, addrOf_registerAt hc hr]

/-- A sensor operation whose registers `REGMAP` has (R118 (d), R183). -/
theorem accepts_sensor (op : Op) (d : Option Word) (hp : s.phase = .idle) (ho : s.owned = true)
    (hn : ∀ r ∈ neededRegisters s.cfg op, (addrOf s.cfg r).isSome) :
    whenIdle s (acceptSensor op d s) = .next (latch op (portReg s) d (portFn s) s) :=
  (whenIdle_idle ho hp).trans (acceptSensor_eq hn)

theorem refAddr_fixed (h : addrOf s.cfg g = some a) : refAddr (latch op reg d fn s) (.fixed g) = .ok a := by
  simp [refAddr, refRegister, h]

theorem refAddr_angleReg (h : addrOf s.cfg s.cfg.angleReg = some a) :
    refAddr (latch op reg d fn s) .angleReg = .ok a := by
  simp [refAddr, refRegister, h]

/-! ### The operations -/

/-- The operations that are one READ (R184, R271 to R275). -/
theorem follows_oneRead {r : RegRef} {f : Word → Option Word} (ht : s.turns = [])
    (hs : schedule op = readEntries r .keepValue) (ha : refAddr (latch op reg d fn s) r = .ok a)
    (hv : ∀ t x, t.cfg = s.cfg → t.resValue = some x → finishValue op t = .ok (f x)) :
    Follows 22 (latch op reg d fn s) (thenP (readP a) fun x => returnP (f x)) := by
  have hb := before_latch op reg d fn ht
  rw [hs] at hb
  exact (hb.follows_readToValue ha fun t x hc _ hx => hv t x hc hx).mono (by omega)

/-- WRITE (R188). -/
theorem follows_write {v : Word} (ht : s.turns = []) (ha : refAddr (latch .write reg (some v) fn s) .operand = .ok a) :
    Follows 22 (latch .write reg (some v) fn s) (writeP a v) := by
  have hb := before_latch .write reg (some v) fn ht
  exact Follows.mono (hb.follows_writeFrames (n := 2) (hb.dueFn_none rfl) ha rfl
    fun t hw => hw.follows_writeEnd fun _ => rfl) (by omega)

/-- MODIFY by the host's function (R192). -/
theorem follows_modify {f : Fn} (ht : s.turns = []) (ha : refAddr (latch .modify reg d (some f) s) .operand = .ok a) :
    Follows 22 (latch .modify reg d (some f) s) (modifyP a (evalFn f)) := by
  have hb := before_latch .modify reg d (some f) ht
  exact (hb.follows_modifyLast ha (fun t x _ hfn hacc => modFnValue_reqFn hfn hacc) fun _ => rfl).mono (by omega)

/-- ZPOS.GET: the first payload waits in ACC while the second is read (R276). -/
theorem follows_zposGet {am al : Addr} (ht : s.turns = []) (hm : addrOf s.cfg .zposm = some am)
    (hl : addrOf s.cfg .zposl = some al) :
    Follows 22 (latch .zposGet reg d fn s)
      (thenP (readP am) fun m => thenP (readP al) fun l => returnP (some (zext (zposCompose m l)))) := by
  have hb := before_latch .zposGet reg d fn ht
  refine Follows.mono (hb.follows_readToAcc (n := 4) (refAddr_fixed hm) fun t m ht hacc _ => ?_) (by omega)
  exact ht.follows_readToValue (refAddr_fixed hl) fun u l _ hu hval => finishValue_zposGet (hu.trans hacc) hval

/-- ZPOS.SET: a MODIFY of either half, by the setters of its half of the position (R277). -/
theorem follows_zposSet {am al : Addr} {v : Word} (ht : s.turns = []) (hm : addrOf s.cfg .zposm = some am)
    (hl : addrOf s.cfg .zposl = some al) :
    Follows 22 (latch .zposSet reg (some v) fn s)
      (thenP (modifyP am fun x => zposmSet x (msbWord v)) fun _ => modifyP al fun x => zposlSet x (lsbWord v)) := by
  have hb := before_latch .zposSet reg (some v) fn ht
  refine hb.follows_modifyThen (refAddr_fixed hm) (fun t x hv _ hacc => modFnValue_zposm hv hacc) fun t hs => ?_
  exact hs.follows_modifyLast (refAddr_fixed hl) (fun t x hv _ hacc => modFnValue_zposl hv hacc) fun _ => rfl

/-- A sensor operation of one READ: accepted where `REGMAP` has its register, and run (R271 to R275). -/
theorem sensorRead_follows {r : RegRef} {f : Word → Option Word} (hp : s.phase = .idle) (ho : s.owned = true)
    (ht : s.turns = []) (hg : addrOf s.cfg g = some a) (hn : neededRegisters s.cfg op = [g])
    (hs : schedule op = readEntries r .keepValue)
    (ha : refAddr (latch op (portReg s) (portWdata s) (portFn s) s) r = .ok a)
    (hv : ∀ t x, t.cfg = s.cfg → t.resValue = some x → finishValue op t = .ok (f x)) :
    whenIdle s (acceptSensor op (portWdata s) s) = .next (latch op (portReg s) (portWdata s) (portFn s) s) ∧
      Follows 22 (latch op (portReg s) (portWdata s) (portFn s) s) (thenP (readP a) fun x => returnP (f x)) := by
  refine ⟨accepts_sensor op _ hp ho fun x hx => ?_, follows_oneRead ht hs ha hv⟩
  rw [hn, List.mem_singleton] at hx
  simp [hx, hg]

end

/-! ### Every request -/

/-- The two registers of ZPOS.GET and ZPOS.SET (R276, R277). -/
theorem needs_zpos {c : Config} {am al : Addr} (hm : addrOf c .zposm = some am) (hl : addrOf c .zposl = some al) :
    ∀ r ∈ [Register.zposm, .zposl], (addrOf c r).isSome := by
  simp [hm, hl]

/-- A request with pseudo-code is accepted at IDLE, and the run from there follows the pseudo-code (R124, R270). -/
theorem exec_follows_pseudoCode {s : State} {i : Instr} {P : Proc (Option Word)} (hp : s.phase = .idle)
    (ho : s.owned = true) (ht : s.turns = []) (hc : regmapOk s.cfg = true) (hP : pseudoCode s.cfg i = some P) :
    ∃ op reg d fn, exec i s = .next (latch op reg d fn s) ∧ Follows 22 (latch op reg d fn s) P := by
  cases i with
  | read a =>
    obtain ⟨hr, hP⟩ := Option.ite_none_right_eq_some.mp hP
    cases hP
    obtain ⟨r, hr⟩ := Option.isSome_iff_exists.mp hr
    obtain ⟨hx, ha⟩ := accepts_at .read (portWdata s) (portFn s) hp ho hc hr
    exact ⟨_, _, _, _, hx, follows_oneRead ht rfl ha fun t x _ hx => return_resValue some hx⟩
  | write a v =>
    obtain ⟨hr, hP⟩ := Option.ite_none_right_eq_some.mp hP
    cases hP
    obtain ⟨r, hr⟩ := Option.isSome_iff_exists.mp hr
    obtain ⟨hx, ha⟩ := accepts_at .write (some v) (portFn s) hp ho hc hr
    exact ⟨_, _, _, _, hx, follows_write ht ha⟩
  | modify a f =>
    obtain ⟨hr, hP⟩ := Option.ite_none_right_eq_some.mp hP
    cases hP
    obtain ⟨r, hr⟩ := Option.isSome_iff_exists.mp hr
    obtain ⟨hx, ha⟩ := accepts_at .modify (portWdata s) (some f) hp ho hc hr
    exact ⟨_, _, _, _, hx, follows_modify ht ha⟩
  | angle =>
    obtain ⟨a, ha, rfl⟩ := Option.map_eq_some_iff.mp hP
    exact ⟨.angle, _, _, _, sensorRead_follows hp ho ht ha rfl rfl (refAddr_angleReg ha)
      fun t x _ hx => return_resValue (fun x => some (zext (angleGet x))) hx⟩
  | angleDeg =>
    obtain ⟨a, ha, rfl⟩ := Option.map_eq_some_iff.mp hP
    exact ⟨.angleDeg, _, _, _, sensorRead_follows hp ho ht ha rfl rfl (refAddr_angleReg ha)
      fun t x hc hx => hc ▸ return_resValue (fun x => some (degConv t.cfg.angleMax x)) hx⟩
  | magnitude =>
    obtain ⟨a, ha, rfl⟩ := Option.map_eq_some_iff.mp hP
    exact ⟨.magnitude, _, _, _, sensorRead_follows hp ho ht ha rfl rfl (refAddr_fixed ha)
      fun t x _ hx => return_resValue (fun x => some (zext (magGet x))) hx⟩
  | diag =>
    obtain ⟨a, ha, rfl⟩ := Option.map_eq_some_iff.mp hP
    exact ⟨.diag, _, _, _, sensorRead_follows hp ho ht ha rfl rfl (refAddr_fixed ha)
      fun t x _ hx => return_resValue some hx⟩
  | clrerr =>
    obtain ⟨a, ha, rfl⟩ := Option.map_eq_some_iff.mp hP
    exact ⟨.clrerr, _, _, _, sensorRead_follows hp ho ht ha rfl rfl (refAddr_fixed ha)
      fun t x hc hx => hc ▸ finishValue_clrerr hx⟩
  | zposGet =>
    obtain ⟨am, hm, hP⟩ := Option.bind_eq_some_iff.mp hP
    obtain ⟨al, hl, rfl⟩ := Option.map_eq_some_iff.mp hP
    exact ⟨_, _, _, _, accepts_sensor .zposGet _ hp ho (needs_zpos hm hl), follows_zposGet ht hm hl⟩
  | zposSet v =>
    obtain ⟨am, hm, hP⟩ := Option.bind_eq_some_iff.mp hP
    obtain ⟨al, hl, rfl⟩ := Option.map_eq_some_iff.mp hP
    exact ⟨_, _, _, _, accepts_sensor .zposSet (some v) hp ho (needs_zpos hm hl), follows_zposSet ht hm hl⟩
  | _ => cases hP

end Sys2Proof.Machine

namespace Sys2Proof.Proofs

open Sys2Proof Sys2Proof.Machine

/-- Settles O40: the accepted request follows its pseudo-code entry by entry. -/
theorem requestsRunTheirPseudocode : Obligations.RequestsRunTheirPseudocode := by
  unfold Obligations.RequestsRunTheirPseudocode
  intro s i P hp ho ht hc hP
  obtain ⟨op, reg, d, fn, hx, n, hn, t, hrun, hend⟩ := exec_follows_pseudoCode hp ho ht hc hP
  refine ⟨_, hx, n, hn, t, hrun, ?_⟩
  rw [latch_answers, latch_trace] at hend
  rcases hPs : P s.answers s.trace with ⟨_ | _ | _, ans, tr⟩ <;> rw [hPs] at hend <;> exact hend

end Sys2Proof.Proofs
end

section
/-! PROOF. What is refused, and what a busy block does with a request (spec 30_encoding R118): the refusals of accept,
the request port over a step, and why a running operation's own step always goes on. -/

namespace Sys2Proof.Machine

/-! ### Refusals -/

theorem whenIdle_released {s : State} {o : Out} (ho : s.owned = false) : whenIdle s o = .refused .released := by
  simp [whenIdle, ho]

/-- An address no register of `REGMAP` has is no member's (R118 (b)). -/
theorem registerAt_eq_none {c : Config} {a : Addr} (hc : regmapOk c = true) (h : ∀ r, addrOf c r ≠ some a) :
    registerAt c a = none := by
  cases hr : registerAt c a with
  | none => rfl
  | some r => exact absurd (addrOf_registerAt hc hr) (h r)

theorem acceptAt_refused {op : Op} {a : Addr} {d : Option Word} {f : Option Fn} {s : State}
    (h : registerAt s.cfg a = none) : acceptAt op a d f s = .refused (.noSuchRegister a) := by
  simp [acceptAt, h]

/-- A sensor operation is refused for the first register it needs and `REGMAP` lacks (R118 (d)). -/
theorem acceptSensor_refused {op : Op} {d : Option Word} {s : State} {r : Register} {rs : List Register}
    (hn : neededRegisters s.cfg op = r :: rs) (h : addrOf s.cfg r = none) :
    acceptSensor op d s = .refused (.lacksRegister r) := by
  simp [acceptSensor, hn, h]

/-- A register that is not present has no address (R8, D6). -/
theorem addrOf_absent {c : Config} {r : Register} (h : registerPresent c r = false) : addrOf c r = none := by
  unfold addrOf
  rw [Option.map_eq_none_iff, List.find?_eq_none]
  intro e he her
  obtain ⟨-, hpresent⟩ := List.mem_filter.mp he
  rw [of_decide_eq_true her, h] at hpresent
  cases hpresent

/-- Without ownership every request that is not reserved is refused (R118 (c)). -/
theorem exec_request_released {s : State} {i : Instr} {w : BitVec 34} {fn : Fn} (he : encode i = .request w fn)
    (hop : requestOp w ≤ 0xA) (ho : s.owned = false) : exec i s = .refused .released := by
  cases i with
  | read | write | modify => exact whenIdle_released ho
  | angle | angleDeg | magnitude | diag | clrerr | zposGet | zposSet => exact whenIdle_released ho
  | release => exact whenIdle_released ho
  | reservedB | reservedC | reservedD | reservedE | reservedF => cases he; exact absurd hop (by decide)
  | _ => cases he

/-! ### The request port of a busy block -/

/-- No move of a running block takes a request from its port (R353). -/
theorem BlockMoves.reqPort_of_run {s t : State} {k : Nat} {sub : Sub} (h : BlockMoves s t) (hp : s.phase = .run k sub) :
    t.reqPort = s.reqPort := by
  cases h with
  | accepts r rest op hidle => rw [hp] at hidle; cases hidle
  | releases r rest hidle => rw [hp] at hidle; cases hidle
  | continues => exact continued_reqPort ..
  | _ => rfl

theorem step_reqPort_of_run {s t : State} {k : Nat} {sub : Sub} (hp : s.phase = .run k sub) (h : step s = .next t) :
    t.reqPort = s.reqPort := by
  cases step_moves h with
  | evaluates => rfl
  | block _ _ hm => exact hm.reqPort_of_run (s := popTurn s) hp

/-! ### What a running operation has -/

section
variable {s : State} {op : Op} {k : Nat} {sub : Sub} {e : Entry}

/-- What the invariant says of a running operation (R20, R24). -/
theorem running_of_inv (hi : inv s = true) (hp : s.phase = .run k sub) :
    ∃ op e, s.reqOp = some op ∧ (schedule op)[k]? = some e ∧ operandsLatched s op = true ∧
      accLatched s op k = true ∧ fnLatched s op k sub = true := by
  simp only [inv, hp, Bool.and_eq_true] at hi
  obtain ⟨⟨-, hr⟩, -⟩ := hi
  unfold runningOk at hr
  split at hr
  · cases hr
  · next op hop =>
    simp only [Bool.and_eq_true, decide_eq_true_eq] at hr
    obtain ⟨⟨⟨⟨⟨⟨⟨hk, hop'⟩, hacc⟩, hfn⟩, -⟩, -⟩, -⟩, -⟩ := hr
    exact ⟨op, _, hop, List.getElem?_eq_getElem hk, hop', hacc, hfn⟩

/-- Which entries need a function or a value beyond the addresses: the WRITE half of a MODIFY, and the data of WRITE
(R182). -/
theorem schedule_needs (op : Op) : ∀ x ∈ (schedule op).zipIdx,
    (x.1.evaluates ≠ none → 1 < x.2 ∧ halfFn op x.2 = x.1.evaluates) ∧
    (x.1.sends = .data .fnValue → halfFn op x.2 ≠ none ∧ x.2 % 5 = 3) ∧
    (x.1.sends = .data .wdata → op = .write) := by
  cases op <;> decide

/-! ### A due function has its operands -/

theorem halfFn_eq_some {g : ModFn} (h : halfFn op k = some g) :
    (op = .modify ∧ g = .reqFn) ∨ (op = .zposSet ∧ (g = .zposm ∨ g = .zposl)) := by
  cases op with
  | modify => exact .inl ⟨rfl, (Option.some.inj h).symm⟩
  | zposSet =>
    simp only [halfFn] at h
    split at h
    · exact .inr ⟨rfl, .inl (Option.some.inj h).symm⟩
    · exact .inr ⟨rfl, .inr (Option.some.inj h).symm⟩
  | _ => cases h

theorem modFnValue_ok {g : ModFn} (ho : operandsLatched s op = true) (ha : accLatched s op k = true) (hk : 1 < k)
    (hg : halfFn op k = some g) : ∃ u, modFnValue s g = .ok u := by
  have hk' : ¬ k ≤ 1 := by omega
  rcases halfFn_eq_some hg with ⟨rfl, rfl⟩ | ⟨rfl, hz⟩ <;>
    simp only [operandsLatched, accLatched, Bool.and_eq_true, Option.isSome_iff_exists, hk', decide_false,
      Bool.false_or] at ho ha
  · obtain ⟨-, f, hf⟩ := ho
    obtain ⟨x, hx⟩ := ha
    exact ⟨_, modFnValue_reqFn hf hx⟩
  · obtain ⟨-, v, hv⟩ := ho
    obtain ⟨x, hx⟩ := ha
    rcases hz with rfl | rfl
    · exact ⟨_, modFnValue_zposm hv hx⟩
    · exact ⟨_, modFnValue_zposl hv hx⟩

/-! ### Every entry has its frame -/

/-- The command frames of some entries have their addresses. -/
def CommandsMapped (s : State) (es : List Entry) : Prop :=
  ∀ e ∈ es, ∀ r, e.sends = .readCmd r ∨ e.sends = .writeCmd r → ∃ a, refAddr s r = .ok a

theorem refAddr_ok {r : RegRef} {g : Register} (hr : refRegister s r = .ok g) (hg : (addrOf s.cfg g).isSome) :
    ∃ a, refAddr s r = .ok a := by
  obtain ⟨a, ha⟩ := Option.isSome_iff_exists.mp hg
  exact ⟨a, by simp [refAddr, hr, ha]⟩

theorem commandsMapped_read {r : RegRef} (keep : Handling) (h : ∃ a, refAddr s r = .ok a) :
    CommandsMapped s (readEntries r keep) := by
  simpa [CommandsMapped, readEntries] using h

theorem commandsMapped_write {r : RegRef} (d : DataRef) (g : Option ModFn) (h : ∃ a, refAddr s r = .ok a) :
    CommandsMapped s (writeEntries r d g) := by
  simpa [CommandsMapped, writeEntries] using h

theorem commandsMapped_append {es es' : List Entry} (h : CommandsMapped s es) (h' : CommandsMapped s es') :
    CommandsMapped s (es ++ es') :=
  fun e he => (List.mem_append.mp he).elim (h e) (h' e)

theorem commandsMapped_modify {r : RegRef} (g : ModFn) (h : ∃ a, refAddr s r = .ok a) :
    CommandsMapped s (modifyEntries r g) :=
  commandsMapped_append (commandsMapped_read _ h) (commandsMapped_write _ _ h)

theorem refAddr_operand_ok (h : operandMapped s = true) : ∃ a, refAddr s .operand = .ok a := by
  unfold operandMapped at h
  split at h
  · next r hr => exact refAddr_ok (need_eq_ok.mpr hr) h
  · cases h

/-- The latched operands map every command frame of the schedule (R20, R118). -/
theorem commandsMapped_schedule (ho : operandsLatched s op = true) : CommandsMapped s (schedule op) := by
  cases op <;>
    simp only [operandsLatched, neededRegisters, List.all_cons, List.all_nil, Bool.and_true, Bool.and_eq_true] at ho
  case read => exact commandsMapped_read _ (refAddr_operand_ok ho)
  case write => exact commandsMapped_write _ _ (refAddr_operand_ok ho.1)
  case modify => exact commandsMapped_modify _ (refAddr_operand_ok ho.1)
  case angle | angleDeg | magnitude | diag | clrerr => exact commandsMapped_read _ (refAddr_ok rfl ho)
  case zposGet =>
    obtain ⟨hm, hl⟩ := ho
    exact commandsMapped_append (commandsMapped_read _ (refAddr_ok rfl hm)) (commandsMapped_read _ (refAddr_ok rfl hl))
  case zposSet =>
    obtain ⟨⟨hm, hl⟩, -⟩ := ho
    exact commandsMapped_append (commandsMapped_modify _ (refAddr_ok rfl hm))
      (commandsMapped_modify _ (refAddr_ok rfl hl))
  case release => exact fun e he => nomatch he

/-- The value of a MODIFY half's function is there when its data frame is due (R192, D19). -/
theorem fnValue_isSome (hf : fnLatched s op k sub = true) (hg : halfFn op k ≠ none) (hk : k % 5 = 3) :
    s.fnValue.isSome := by
  obtain ⟨g, hg⟩ := Option.ne_none_iff_exists'.mp hg
  cases hv : s.fnValue with
  | some u => rfl
  | none => simp [fnLatched, hg, hv, hk] at hf

theorem scheduledFrame_ok (hop : s.reqOp = some op) (he : (schedule op)[k]? = some e)
    (ho : operandsLatched s op = true) (hf : fnLatched s op k sub = true) :
    ∃ pos w, scheduledFrame s k = .ok (pos, w) := by
  obtain ⟨-, hfn, hwdata⟩ := schedule_needs op (e, k) (List.mk_mem_zipIdx_iff_getElem?.mpr he)
  have hmap := commandsMapped_schedule ho e (List.mem_of_getElem? he)
  suffices h : ∃ f, buildFrame s e.sends = .ok f by
    obtain ⟨⟨pos, w⟩, h⟩ := h
    exact ⟨pos, w, by simp [scheduledFrame, currentEntry, hop, he, h]⟩
  cases hs : e.sends with
  | readCmd r =>
    obtain ⟨a, ha⟩ := hmap r (.inl hs)
    exact ⟨_, by simp only [buildFrame, ha]; rfl⟩
  | writeCmd r =>
    obtain ⟨a, ha⟩ := hmap r (.inr hs)
    exact ⟨_, by simp only [buildFrame, ha]; rfl⟩
  | data d =>
    cases d with
    | wdata =>
      obtain rfl := hwdata hs
      simp only [operandsLatched, Bool.and_eq_true] at ho
      obtain ⟨v, hv⟩ := Option.isSome_iff_exists.mp ho.2
      exact ⟨_, buildFrame_data (need_eq_ok.mpr hv)⟩
    | fnValue =>
      obtain ⟨hg, hk⟩ := hfn hs
      obtain ⟨u, hu⟩ := Option.isSome_iff_exists.mp (fnValue_isSome hf hg hk)
      exact ⟨_, buildFrame_data (need_eq_ok.mpr hu)⟩
  | nop => exact ⟨_, rfl⟩

/-! ### Every outcome is taken -/

/-- The last entry leaves what finish returns (R183). -/
theorem finishValue_ok (he : (schedule op)[k]? = some e) (hk : k + 1 = (schedule op).length)
    (ha : accLatched s op k = true) (p : Payload) : ∃ v, finishValue op (keepPayload e.handling p s) = .ok v := by
  cases op with
  | write | modify | zposSet | release => exact ⟨_, rfl⟩
  | read | angle | angleDeg | magnitude | diag =>
    obtain rfl : k = 1 := Nat.succ.inj hk
    cases he
    exact ⟨_, rfl⟩
  | clrerr =>
    obtain rfl : k = 1 := Nat.succ.inj hk
    cases he
    exact ⟨_, finishValue_clrerr rfl⟩
  | zposGet =>
    obtain rfl : k = 3 := Nat.succ.inj hk
    cases he
    obtain ⟨m, hm⟩ := Option.isSome_iff_exists.mp (show s.acc.isSome from ha)
    exact ⟨_, finishValue_zposGet hm rfl⟩

theorem advance_ok (hop : s.reqOp = some op) (he : (schedule op)[k]? = some e) (ha : accLatched s op k = true)
    (p : Payload) : ∃ t, advance k (keepPayload e.handling p s) = .next t := by
  have hop' : (keepPayload e.handling p s).reqOp = some op := (keepPayload_reqOp _ _ _).trans hop
  by_cases hk : k + 1 < (schedule op).length
  · exact ⟨_, advance_goesOn hop' hk⟩
  · have hk : k + 1 = (schedule op).length := by have := schedule_lt he; omega
    obtain ⟨v, hv⟩ := finishValue_ok he hk ha p
    exact ⟨_, (advance_finishes hop' hk).trans (finish_eq hv)⟩

theorem completeFrame_ok (r : Word) (hp : s.phase = .run k .wait) (hop : s.reqOp = some op)
    (he : (schedule op)[k]? = some e) (ha : accLatched s op k = true) : ∃ t, completeFrame r s = .next t := by
  have hc : currentEntry s k = .ok e := by simp [currentEntry, hop, he]
  have hadv := advance_ok (s := receiveFrame r s) hop he ha
  by_cases hh : e.handling = .ignore
  · obtain ⟨t, ht⟩ := hadv 0
    rw [hh] at ht
    exact ⟨t, (completeFrame_ignore hp hc hh).trans ht⟩
  · rw [completeFrame_validated hp hc hh]
    cases respValidate r with
    | parityBad => exact ⟨_, raiseErr_eq _ _⟩
    | sensorFlag => exact ⟨_, raiseErr_eq _ _⟩
    | good p => exact hadv p

/-! ### The block's step goes on -/

/-- In every state of the invariant a running block's step has a next state (R22, R183). -/
theorem blockStep_running_ok (hi : inv s = true) (hp : s.phase = .run k sub) : ∃ t, blockStep s = .next t := by
  obtain ⟨op, e, hop, he, ho, ha, hf⟩ := running_of_inv hi hp
  cases sub with
  | issue =>
    cases hd : dueFn s k with
    | none =>
      obtain ⟨pos, w, hw⟩ := scheduledFrame_ok hop he ho hf
      exact ⟨_, blockStep_issue hp hd hw⟩
    | some g =>
      obtain ⟨e', hentry, hev, -⟩ := dueFn_eq_some.mp hd
      obtain ⟨op', hop', he'⟩ := currentEntry_ok hentry
      cases hop.symm.trans hop'
      have hneeds := schedule_needs op (e', k) (List.mk_mem_zipIdx_iff_getElem?.mpr he')
      obtain ⟨hk, hg⟩ := hneeds.1 (by simp [hev])
      obtain ⟨u, hu⟩ := modFnValue_ok ho ha hk (hg.trans hev)
      exact ⟨_, (blockStep_evaluation hp hd).trans (evaluateFn_eq hu)⟩
  | wait =>
    match hans : s.answers with
    | [] => exact ⟨_, blockStep_unanswered hp hans⟩
    | .fail _ :: _ => exact ⟨_, (blockStep_failed hp hans).trans (failTransaction_eq _ _)⟩
    | .ok b0 b1 :: rest =>
      rw [blockStep_received hp hans]
      exact completeFrame_ok (s := { s with answers := rest }) _ hp hop he ha

end

end Sys2Proof.Machine

namespace Sys2Proof.Proofs

open Sys2Proof Sys2Proof.Machine

/-- Settles O24: each refusal by its test in accept; a running block's moves leave the port, and under the invariant it
always has a move. -/
theorem refusedRequests : Obligations.RefusedRequests := by
  unfold Obligations.RefusedRequests
  refine ⟨fun s _ => ⟨rfl, rfl, rfl, rfl, rfl⟩, ?unmapped, fun s i w fn => exec_request_released, ?lacks,
    fun s t k sub => step_reqPort_of_run, ?busy⟩
  case unmapped =>
    intro s a d f hp ho hr hc
    have hnone := registerAt_eq_none hc hr
    exact ⟨(whenIdle_idle ho hp).trans (acceptAt_refused hnone), (whenIdle_idle ho hp).trans (acceptAt_refused hnone),
      (whenIdle_idle ho hp).trans (acceptAt_refused hnone)⟩
  case lacks =>
    intro s d hp ho hz
    have hnone : addrOf s.cfg .zposm = none := addrOf_absent hz
    exact ⟨(whenIdle_idle ho hp).trans (acceptSensor_refused rfl hnone),
      (whenIdle_idle ho hp).trans (acceptSensor_refused rfl hnone)⟩
  case busy =>
    intro s k sub hp ht hi
    obtain ⟨t, h⟩ := blockStep_running_ok hi hp
    rw [← step_block ht] at h
    exact ⟨t, h, step_reqPort_of_run hp h⟩

end Sys2Proof.Proofs
end

section
/-! PROOF. Parity codec (spec 40_parity_codec R140 to R146): the two parity functions as counts of ones, and bit 15 of
the frames the constructors build. -/

namespace Sys2Proof.Machine

/-! ### Parity as a count of ones -/

/-- `popcount` counts all 16 bits (R140). -/
theorem popcount_eq_ones (w : Word) : popcount w = ones 16 w := rfl

theorem ones_succ (n : Nat) (w : Word) : ones (n + 1) w = ones n w + (w.getLsbD n).toNat := by
  unfold ones
  rw [List.range_succ, List.filter_append, List.length_append]
  cases h : w.getLsbD n <;> simp [h]

/-- `popcount15` counts bits 14 to 0: bit 15 is all that `popcount` counts beside (R140). -/
theorem popcount15_eq_ones (w : Word) : popcount15 w = ones 15 w := by
  have h : popcount15 w + (w.getLsbD 15).toNat = ones 15 w + (w.getLsbD 15).toNat := by
    rw [← popcount_eq_popcount15, popcount_eq_ones, ones_succ]
  exact Nat.add_right_cancel h

/-- PAR.COMPUTE says whether bits 14 to 0 hold an odd count of ones (R141). -/
theorem parCompute_eq_ones (w : Word) : parCompute w = decide (ones 15 w % 2 = 1) := by
  rw [← popcount15_eq_ones]
  rfl

/-- PAR.VERIFY says whether all 16 bits hold an even count of ones (R142). -/
theorem parVerify_eq_ones (f : Word) : parVerify f = decide (ones 16 f % 2 = 0) := rfl

/-! ### Bit 15 of a built frame -/

/-- PAR.COMPUTE does not see the bit that `withParity` sets (R110). -/
theorem parCompute_withParity (body : Word) : parCompute (withParity body) = parCompute body := by
  unfold parCompute
  rw [popcount15_congr fun i hi => withParity_low hi]

/-- Over a body that leaves bit 15 clear, `withParity` builds a frame whose bit 15 is the frame's own parity (R110). -/
theorem withParity_15 {body : Word} (h : body.getLsbD 15 = false) :
    (withParity body).getLsbD 15 = parCompute (withParity body) := by
  rw [withParity_top h, parCompute_withParity]

theorem mkCmd_15 (a : Addr) (rd : Bool) : (mkCmd a rd).getLsbD 15 = parCompute (mkCmd a rd) :=
  withParity_15 (by rw [commandBody_bit]; rfl)

theorem mkData_15 (d : Word) : (mkData d).getLsbD 15 = parCompute (mkData d) :=
  withParity_15 (by rw [BitVec.getLsbD_and]; exact Bool.and_false _)

end Sys2Proof.Machine

namespace Sys2Proof.Proofs

open Sys2Proof Sys2Proof.Machine

/-- Settles O3: each constructor's body gives bits 14 to 0, and `withParity` gives bit 15. -/
theorem frameConstructorsBitByBit : Obligations.FrameConstructorsBitByBit := by
  unfold Obligations.FrameConstructorsBitByBit
  refine ⟨fun s a rd => ⟨mkCmd a rd, rfl, fun i hi => ?_, mkCmd_14 a rd, ?_⟩,
    fun s d => ⟨mkData d, rfl, fun i hi => ?_, mkData_14 d, ?_⟩, fun s => rfl⟩
  · rw [mkCmd_bit (by omega), if_pos hi]
  · rw [mkCmd_15, parCompute_eq_ones]
  · rw [mkData_bit (by omega), decide_eq_true hi, Bool.true_and]
  · rw [mkData_15, parCompute_eq_ones]

/-- Settles O1: PAR.COMPUTE as the count of bits 14 to 0. -/
theorem parComputeCountsLowFifteenBits : Obligations.ParComputeCountsLowFifteenBits := by
  unfold Obligations.ParComputeCountsLowFifteenBits
  intro s w
  rw [← parCompute_eq_ones]
  rfl

/-- Settles O2: PAR.VERIFY as the count of all 16 bits. -/
theorem parVerifyAcceptsEvenCounts : Obligations.ParVerifyAcceptsEvenCounts := by
  unfold Obligations.ParVerifyAcceptsEvenCounts
  intro s f
  rw [← parVerify_eq_ones]
  rfl

end Sys2Proof.Proofs
end

section
/-! PROOF. Response validator (spec 41_response_validator R160, R161): the verdict as tests on the frame's bits. -/

namespace Sys2Proof.Machine

/-- The verdict by the count of all 16 bits and by bit 14, the count first (R161). -/
theorem respValidate_eq_ones (f : Word) :
    respValidate f =
      if ones 16 f % 2 = 1 then .parityBad else if f.getLsbD 14 then .sensorFlag else .good (payloadOf f) := by
  have hodd : parVerify f = false ↔ ones 16 f % 2 = 1 := by
    rw [parVerify_eq_ones, decide_eq_false_iff_not]
    exact Nat.mod_two_ne_zero
  exact if_congr hodd rfl rfl

end Sys2Proof.Machine

namespace Sys2Proof.Proofs

open Sys2Proof Sys2Proof.Machine

/-- Settles O7: the payload is `payloadOf` of the frame, and the verdict is the if-chain over its bits. -/
theorem respValidateTestsParityFirst : Obligations.RespValidateTestsParityFirst := by
  unfold Obligations.RespValidateTestsParityFirst
  intro s f
  refine ⟨payloadOf f, fun i hi => payloadOf_bit hi, ?_⟩
  rw [← respValidate_eq_ones]
  rfl

/-- Settles O6: the third field is `payloadOf` of the frame. -/
theorem respSplitTakesTheThreeFields : Obligations.RespSplitTakesTheThreeFields := by
  unfold Obligations.RespSplitTakesTheThreeFields
  exact fun s f => ⟨payloadOf f, rfl, fun i hi => payloadOf_bit hi⟩

end Sys2Proof.Proofs
end

section
/-! PROOF. The schedule table (spec 42_frame_sequencer R182): the frame of an entry from what the entry names, and the
value of a MODIFY half's function in the states that send it. -/

namespace Sys2Proof.Machine

/-! ### The frame of an entry -/

section
variable {s : State} {op : Op} {k : Nat}

theorem currentEntry_eq {e : Entry} (hop : s.reqOp = some op) (he : (schedule op)[k]? = some e) :
    currentEntry s k = .ok e := by
  simp [currentEntry, hop, he]

/-- The frame of entry `k` is built from what the schedule says the entry sends. -/
theorem scheduledFrame_eq {spec : FrameSpec} (hop : s.reqOp = some op)
    (he : (schedule op)[k]?.map (fun e => e.sends) = some spec) : scheduledFrame s k = buildFrame s spec := by
  obtain ⟨e, hentry, rfl⟩ := Option.map_eq_some_iff.mp he
  rw [scheduledFrame, currentEntry_eq hop hentry]

/-- A register with an address in `REGMAP` gives that address to the command frames that name it (R108). -/
theorem refAddr_eq {r : RegRef} {g : Register} {a : Addr} (hr : refRegister s r = .ok g)
    (hg : addrOf s.cfg g = some a) : refAddr s r = .ok a := by
  simp [refAddr, hr, hg]

theorem scheduledFrame_readCmd {r : RegRef} {a : Addr} (ha : refAddr s r = .ok a) (hop : s.reqOp = some op)
    (he : (schedule op)[k]?.map (fun e => e.sends) = some (.readCmd r)) :
    scheduledFrame s k = .ok (.command, mkCmd a true) := by
  rw [scheduledFrame_eq hop he, buildFrame, ha]
  rfl

theorem scheduledFrame_writeCmd {r : RegRef} {a : Addr} (ha : refAddr s r = .ok a) (hop : s.reqOp = some op)
    (he : (schedule op)[k]?.map (fun e => e.sends) = some (.writeCmd r)) :
    scheduledFrame s k = .ok (.command, mkCmd a false) := by
  rw [scheduledFrame_eq hop he, buildFrame, ha]
  rfl

theorem scheduledFrame_data {d : DataRef} {v : Word} (hv : dataValue s d = .ok v) (hop : s.reqOp = some op)
    (he : (schedule op)[k]?.map (fun e => e.sends) = some (.data d)) :
    scheduledFrame s k = .ok (.data, mkData v) :=
  (scheduledFrame_eq hop he).trans (buildFrame_data hv)

theorem scheduledFrame_nop (hop : s.reqOp = some op)
    (he : (schedule op)[k]?.map (fun e => e.sends) = some .nop) : scheduledFrame s k = .ok (.nop, mkNop) :=
  scheduledFrame_eq hop he

/-- Where the data frame of a MODIFY half is sent, the value kept for it is that of the half's function (R192). -/
theorem scheduledFrame_fnValue {sub : Sub} {g : ModFn} {u : Word} (hi : inv s = true) (hp : s.phase = .run k sub)
    (hk : k % 5 = 3) (hg : halfFn op k = some g) (hu : modFnValue s g = .ok u) (hop : s.reqOp = some op)
    (he : (schedule op)[k]?.map (fun e => e.sends) = some (.data .fnValue)) :
    scheduledFrame s k = .ok (.data, mkData u) := by
  obtain ⟨op', -, hop', -, -, -, hf⟩ := running_of_inv hi hp
  obtain rfl : op = op' := Option.some.inj (hop.symm.trans hop')
  obtain ⟨v, hv⟩ := Option.isSome_iff_exists.mp (fnValue_isSome hf (by simp [hg]) hk)
  have hvg : modFnValue s g = .ok v := by simpa [fnLatched, hg, hv] using hf
  obtain rfl : u = v := Except.ok.inj (hu.symm.trans hvg)
  exact scheduledFrame_data (d := .fnValue) (need_eq_ok.mpr hv) hop he

/-- The command of a sensor operation that is one READ names the register the operation is about (R182). -/
theorem scheduledFrame_sensorRead {g : Register} {a : Addr} (hop : s.reqOp = some op) (ha : addrOf s.cfg g = some a)
    (hg : (op, g) ∈ [(Op.angle, s.cfg.angleReg), (.angleDeg, s.cfg.angleReg), (.magnitude, .mag), (.diag, .diaagc),
      (.clrerr, .errfl)]) : scheduledFrame s 0 = .ok (.command, mkCmd a true) := by
  have hread : ∃ r, refRegister s r = .ok g ∧ (schedule op)[0]?.map (fun e => e.sends) = some (.readCmd r) := by
    simp only [List.mem_cons, List.not_mem_nil, or_false, Prod.mk.injEq] at hg
    obtain ⟨rfl, rfl⟩ | ⟨rfl, rfl⟩ | ⟨rfl, rfl⟩ | ⟨rfl, rfl⟩ | ⟨rfl, rfl⟩ := hg <;> exact ⟨_, rfl, rfl⟩
  obtain ⟨r, hr, he⟩ := hread
  exact scheduledFrame_readCmd (refAddr_eq hr ha) hop he

end

end Sys2Proof.Machine

namespace Sys2Proof.Proofs

open Sys2Proof Sys2Proof.Machine

/-- Settles O26: each row of the table is the schedule's own entry, its frame built from the operand the row names. -/
theorem scheduleTable : Obligations.ScheduleTable := by
  unfold Obligations.ScheduleTable
  refine ⟨?operand, fun s op g a => scheduledFrame_sensorRead, ?zposm, ?zposl, ?nop, ?wdata, ?modify, ?zposSet,
    fun s m l => finishValue_zposGet, ?handling⟩
  case operand =>
    intro s r a hr ha
    have haddr : refAddr s .operand = .ok a := refAddr_eq (need_eq_ok.mpr hr) ha
    exact ⟨fun hop => scheduledFrame_readCmd haddr hop rfl, fun hop => scheduledFrame_writeCmd haddr hop rfl,
      fun hop => ⟨scheduledFrame_readCmd haddr hop rfl, scheduledFrame_writeCmd haddr hop rfl⟩⟩
  case zposm =>
    intro s a ha
    have haddr : refAddr s (.fixed .zposm) = .ok a := refAddr_eq rfl ha
    exact ⟨fun hop => scheduledFrame_readCmd haddr hop rfl,
      fun hop => ⟨scheduledFrame_readCmd haddr hop rfl, scheduledFrame_writeCmd haddr hop rfl⟩⟩
  case zposl =>
    intro s a ha
    have haddr : refAddr s (.fixed .zposl) = .ok a := refAddr_eq rfl ha
    exact ⟨fun hop => scheduledFrame_readCmd haddr hop rfl,
      fun hop => ⟨scheduledFrame_readCmd haddr hop rfl, scheduledFrame_writeCmd haddr hop rfl⟩⟩
  case nop =>
    intro s op k hop hk
    refine scheduledFrame_nop hop
      ((?_ : ∀ x : Op × Nat, x ∈ _ → (schedule x.1)[x.2]?.map (fun e => e.sends) = some .nop) (op, k) hk)
    decide
  case wdata =>
    intro s d hop hd
    exact scheduledFrame_data (d := .wdata) (need_eq_ok.mpr hd) hop rfl
  case modify =>
    intro s f x sub hop hp hi hf hx
    exact scheduledFrame_fnValue hi hp rfl rfl (modFnValue_reqFn hf hx) hop rfl
  case zposSet =>
    intro s v x sub hop hi hv hx
    exact ⟨fun hp => scheduledFrame_fnValue hi hp rfl rfl (modFnValue_zposm hv hx) hop rfl,
      fun hp => scheduledFrame_fnValue hi hp rfl rfl (modFnValue_zposl hv hx) hop rfl⟩
  case handling =>
    intro op
    cases op <;> rfl

end Sys2Proof.Proofs
end

section
/-! PROOF. READ and WRITE with every outcome (spec 42_frame_sequencer R185, R189, R194): what a failed, an ignored and
the last transaction of a schedule leave, and the runs put together from them. -/

namespace Sys2Proof.Machine

/-! ### The verdict of the last frame -/

/-- The 16-bit payload of a frame is its low 14 bits (R111, R184). -/
theorem zext_payloadOf (r : Word) : zext (payloadOf r) = r &&& 0x3FFF#16 := by
  apply BitVec.eq_of_toNat_eq
  have hlow : r.toNat % 2 ^ 14 < 2 ^ 16 := by omega
  simp only [zext, payloadOf, BitVec.toNat_setWidth, BitVec.extractLsb'_toNat, Nat.shiftRight_zero, BitVec.toNat_and,
    Nat.mod_eq_of_lt hlow]
  exact (Nat.and_two_pow_sub_one_eq_mod r.toNat 14).symm

section
variable {s : State} {op : Op} {k : Nat} {e : Entry} {r : Word} {g : Word → Option Word}

/-- The last frame of a schedule ends the operation by its verdict (R183, R185, R189). -/
theorem completeFrame_last (hp : s.phase = .run k .wait) (hop : s.reqOp = some op) (he : (schedule op)[k]? = some e)
    (hh : e.handling ≠ .ignore) (hk : k + 1 = (schedule op).length)
    (hv : ∀ p, finishValue op (keepPayload e.handling p (receiveFrame r s)) = .ok (g (zext p))) :
    completeFrame r s = .next (endedState s s.answers (receiveFrame r s).trace
      (verdictResult r (g (r &&& 0x3FFF#16)))) := by
  rw [completeFrame_validated hp (currentEntry_eq hop he) hh, respValidate_eq_ones, verdictResult]
  by_cases hodd : ones 16 r % 2 = 1
  · simp only [if_pos hodd]
    exact raiseErr_eq _ _
  by_cases hflag : r.getLsbD 14 = true
  · simp only [if_neg hodd, if_pos hflag]
    exact raiseErr_eq _ _
  · simp only [if_neg hodd, if_neg hflag]
    have hop' : (keepPayload e.handling (payloadOf r) (receiveFrame r s)).reqOp = some op :=
      (keepPayload_reqOp _ _ _).trans hop
    rw [advance_finishes hop' hk, finish_eq (hv _), zext_payloadOf]
    cases e.handling <;> rfl

end

/-! ### One transaction, its outcome known -/

/-- The state in which the outcome of transaction `k` is handled: frame `w` sent, and `rest` to come (R183). -/
def issuedState (s : State) (k : Nat) (w : Word) (rest : List Answer) : State :=
  { startXfer w s with phase := .run k .wait, answers := rest }

section
variable {c s : State} {op : Op} {k n : Nat} {e e' : Entry} {es : List Entry} {pos : FramePos} {w : Word}
  {b0 b1 : Byte} {rest : List Answer}

/-- A transaction that fails, whatever its entry (R194). -/
theorem Before.run_failed {x : TransportError} (hs : Before c op k (e :: es) s) (hdue : dueFn s k = none)
    (hf : buildFrame s e.sends = .ok (pos, w)) (ha : s.answers = .fail x :: rest) :
    run 2 s = .next (endedState s rest (transaction w (some (.fail x)) :: s.trace) (.err (.communication x))) :=
  Machine.run_failed hs.turns hs.phase hdue (hs.scheduledFrame.trans hf) ha

/-- Both steps of a transaction that is answered are the completion of its frame (R183). -/
theorem Before.run_answered (hs : Before c op k (e :: es) s) (hdue : dueFn s k = none)
    (hf : buildFrame s e.sends = .ok (pos, w)) (ha : s.answers = .ok b0 b1 :: rest) :
    run 2 s = completeFrame (ofWire b0 b1) (issuedState s k w rest) :=
  Machine.run_answered hs.turns hs.phase hdue (hs.scheduledFrame.trans hf) ha

/-- A transaction whose frame is ignored (R163): the run goes on from the next entry. -/
theorem Before.run_ignored (hs : Before c op k (e :: e' :: es) s) (hh : e.handling = .ignore) (hdue : dueFn s k = none)
    (hf : buildFrame s e.sends = .ok (pos, w)) (ha : s.answers = .ok b0 b1 :: rest) :
    run (2 + n) s = run n (nextEntry s k w (ofWire b0 b1) b0 b1 rest) := by
  refine run_add ?_
  have hentry : Machine.currentEntry (issuedState s k w rest) k = .ok e := currentEntry_eq hs.reqOp hs.getElem?
  rw [hs.run_answered hdue hf ha, completeFrame_ignore rfl hentry hh, issuedState, issued_received]
  exact advance_goesOn (op := op) hs.reqOp hs.goesOn

/-- The validated NOP that ends the operation (R181, R183 finish). -/
theorem Before.run_lastNop {keep : Handling} {g : Word → Option Word} (hs : Before c op k [⟨.nop, keep, none⟩] s)
    (hh : keep ≠ .ignore) (ha : s.answers = .ok b0 b1 :: rest)
    (hv : ∀ t p, t.cfg = c.cfg → t.acc = s.acc → finishValue op (Machine.keepPayload keep p t) = .ok (g (zext p))) :
    run 2 s = .next (endedState s rest (transaction mkNop (some (.ok b0 b1)) :: s.trace)
      (verdictResult (ofWire b0 b1) (g (ofWire b0 b1 &&& 0x3FFF#16)))) := by
  have hop : (issuedState s k mkNop rest).reqOp = some op := hs.reqOp
  rw [hs.run_answered (hs.dueFn_none rfl) rfl ha,
    completeFrame_last rfl hop hs.getElem? hh hs.isLast fun p => hv _ p hs.cfg rfl, issuedState, issued_received]
  rfl

end

/-! ### The operations -/

section
variable {s : State} {op : Op} {a : Addr} {reg : Option Register} {d : Option Word} {fn : Option Fn}
  {b0 b1 c0 c1 : Byte} {e : TransportError} {rest : List Answer}

/-- Every outcome of an accepted operation that is one READ (R185, R271 to R275). -/
theorem oneRead_outcomes {r : RegRef} {f : Word → Option Word} (ht : s.turns = [])
    (hs : schedule op = readEntries r .keepValue) (ha : refAddr (latch op reg d fn s) r = .ok a)
    (hv : ∀ t x, t.cfg = s.cfg → t.resValue = some x → finishValue op t = .ok (f x)) :
    (s.answers = .fail e :: rest →
      run 2 (latch op reg d fn s) = .next (servedState s rest
        (transaction (mkCmd a true) (some (.fail e)) :: s.trace) (.err (.communication e)))) ∧
    (s.answers = .ok b0 b1 :: .fail e :: rest →
      run 4 (latch op reg d fn s) = .next (servedState s rest
        (transaction mkNop (some (.fail e)) :: transaction (mkCmd a true) (some (.ok b0 b1)) :: s.trace)
        (.err (.communication e)))) ∧
    (s.answers = .ok b0 b1 :: .ok c0 c1 :: rest →
      run 4 (latch op reg d fn s) = .next (servedState s rest (twoAnswered (mkCmd a true) b0 b1 mkNop c0 c1 s.trace)
        (verdictResult (ofWire c0 c1) (f (ofWire c0 c1 &&& 0x3FFF#16))))) := by
  have hb := before_latch op reg d fn ht
  rw [hs] at hb
  have hcmd := hb.buildFrame_readCmd ha
  have hnop := fun rest => hb.next (mkCmd a true) (ofWire b0 b1) b0 b1 rest
  refine ⟨fun hans => hb.run_failed (hb.dueFn_none rfl) hcmd hans, fun hans => ?_, fun hans => ?_⟩
  · rw [hb.run_ignored (n := 2) rfl (hb.dueFn_none rfl) hcmd hans]
    exact (hnop _).run_failed ((hnop _).dueFn_none rfl) rfl rfl
  · rw [hb.run_ignored (n := 2) rfl (hb.dueFn_none rfl) hcmd hans]
    exact (hnop _).run_lastNop (by decide) rfl fun t p hc _ => hv _ _ hc rfl

/-- Every outcome of an accepted WRITE (R189). -/
theorem write_outcomes {v : Word} {d0 d1 : Byte} (ht : s.turns = [])
    (ha : refAddr (latch .write reg (some v) fn s) .operand = .ok a) :
    (s.answers = .fail e :: rest →
      run 2 (latch .write reg (some v) fn s) = .next (servedState s rest
        (transaction (mkCmd a false) (some (.fail e)) :: s.trace) (.err (.communication e)))) ∧
    (s.answers = .ok b0 b1 :: .fail e :: rest →
      run 4 (latch .write reg (some v) fn s) = .next (servedState s rest
        (transaction (mkData v) (some (.fail e)) :: transaction (mkCmd a false) (some (.ok b0 b1)) :: s.trace)
        (.err (.communication e)))) ∧
    (s.answers = .ok b0 b1 :: .ok c0 c1 :: .fail e :: rest →
      run 6 (latch .write reg (some v) fn s) = .next (servedState s rest (transaction mkNop (some (.fail e)) ::
        twoAnswered (mkCmd a false) b0 b1 (mkData v) c0 c1 s.trace) (.err (.communication e)))) ∧
    (s.answers = .ok b0 b1 :: .ok c0 c1 :: .ok d0 d1 :: rest →
      run 6 (latch .write reg (some v) fn s) = .next (servedState s rest (transaction mkNop (some (.ok d0 d1)) ::
        twoAnswered (mkCmd a false) b0 b1 (mkData v) c0 c1 s.trace) (verdictResult (ofWire d0 d1) none))) := by
  have hb := before_latch .write reg (some v) fn ht
  have hcmd := hb.buildFrame_writeCmd ha
  have hdata := fun rest => hb.next (mkCmd a false) (ofWire b0 b1) b0 b1 rest
  have hnop := fun rest rest' => (hdata rest).next (mkData v) (ofWire c0 c1) c0 c1 rest'
  refine ⟨fun hans => hb.run_failed (hb.dueFn_none rfl) hcmd hans, fun hans => ?_, fun hans => ?_, fun hans => ?_⟩
  · rw [hb.run_ignored (n := 2) rfl (hb.dueFn_none rfl) hcmd hans]
    exact (hdata _).run_failed ((hdata _).dueFn_none rfl) rfl rfl
  · rw [hb.run_ignored (n := 4) rfl (hb.dueFn_none rfl) hcmd hans,
      (hdata _).run_ignored (n := 2) rfl ((hdata _).dueFn_none rfl) rfl rfl]
    exact (hnop _ _).run_failed ((hnop _ _).dueFn_none rfl) rfl rfl
  · rw [hb.run_ignored (n := 4) rfl (hb.dueFn_none rfl) hcmd hans,
      (hdata _).run_ignored (n := 2) rfl ((hdata _).dueFn_none rfl) rfl rfl]
    exact (hnop _ _).run_lastNop (g := fun _ => none) (by decide) rfl fun _ _ _ _ => rfl

end

end Sys2Proof.Machine

namespace Sys2Proof.Proofs

open Sys2Proof Sys2Proof.Machine

/-- Settles O32: the failed outcome is recorded and raised in one step. -/
theorem transportFailureAborts : Obligations.TransportFailureAborts := by
  unfold Obligations.TransportFailureAborts
  intro s k e rest u us ht hp ha htrace
  rw [step_failed ht hp ha, failTransaction_eq, htrace]
  rfl

/-- Settles O34: the accepted READ, by the outcomes of an operation that is one READ. -/
theorem readOutcomes : Obligations.ReadOutcomes := by
  unfold Obligations.ReadOutcomes
  intro s a r b0 b1 c0 c1 e rest hp ho ht hc hr
  obtain ⟨hx, ha⟩ := accepts_at .read (portWdata s) (portFn s) hp ho hc hr
  exact ⟨_, hx, oneRead_outcomes ht rfl ha fun t x _ hx => return_resValue some hx⟩

/-- Settles O35: the accepted WRITE, by its outcomes transaction for transaction. -/
theorem writeOutcomes : Obligations.WriteOutcomes := by
  unfold Obligations.WriteOutcomes
  intro s a v r b0 b1 c0 c1 d0 d1 e rest hp ho ht hc hr
  obtain ⟨hx, ha⟩ := accepts_at .write (some v) (portFn s) hp ho hc hr
  exact ⟨_, hx, write_outcomes ht ha⟩

end Sys2Proof.Proofs
end

section
/-! PROOF. Bitfield decoder (spec 43_bitfield_decoder R220 to R244): FLD.GET and FLD.SET bit by bit with their laws, the
diagnostics flags under a permitted layout, and the zero position as its two halves side by side. -/

namespace Sys2Proof.Machine

/-! ### FLD.GET and FLD.SET bit by bit -/

theorem mask_bit (n i : Nat) : (mask n).getLsbD i = decide (i < 16 ∧ i < n) := by
  rw [mask, BitVec.getLsbD_ofNat, Nat.testBit_two_pow_sub_one, Bool.decide_and]

theorem fieldMask_bit (hi lo : Fin 16) {i : Nat} (hi16 : i < 16) :
    (mask (fieldWidth hi lo)).getLsbD i = decide (i ≤ hi.val - lo.val) := by
  rw [mask_bit]
  exact decide_eq_decide.mpr ⟨fun h => Nat.le_of_lt_succ h.2, fun h => ⟨hi16, Nat.lt_succ_of_le h⟩⟩

/-- Bit `i` of FLD.GET is bit `lo + i` of the word within the field, and 0 above it (R220). -/
theorem fldGet_bit (v : Word) (hi lo : Fin 16) (i : Nat) :
    (fldGet v hi lo).getLsbD i = (decide (i ≤ hi.val - lo.val) && v.getLsbD (lo.val + i)) := by
  rw [fldGet, BitVec.getLsbD_and, BitVec.getLsbD_ushiftRight, Bool.and_comm]
  by_cases hi16 : i < 16
  · rw [fieldMask_bit hi lo hi16]
  · simp [BitVec.getLsbD_of_ge v (lo.val + i) (by omega)]

/-- Bit `i` of FLD.SET is the value's within the field and the word's outside it (R221). -/
theorem fldSet_bit (v x : Word) {hi lo : Fin 16} {i : Nat} (hpos : lo ≤ hi) (hi16 : i < 16) :
    (fldSet v hi lo x).getLsbD i =
      if lo.val ≤ i ∧ i ≤ hi.val then x.getLsbD (i - lo.val) else v.getLsbD i := by
  have hle : lo.val ≤ hi.val := hpos
  have hm : (mask (fieldWidth hi lo)).getLsbD (i - lo.val) = decide (i - lo.val ≤ hi.val - lo.val) :=
    fieldMask_bit hi lo (by omega)
  simp only [fldSet, BitVec.getLsbD_or, BitVec.getLsbD_and, BitVec.getLsbD_not, BitVec.getLsbD_shiftLeft, hm]
  by_cases hbelow : i < lo.val
  · simp [hi16, hbelow]
  · have hin : i - lo.val ≤ hi.val - lo.val ↔ lo.val ≤ i ∧ i ≤ hi.val := by omega
    by_cases hfield : lo.val ≤ i ∧ i ≤ hi.val <;> simp [hi16, hbelow, hin, hfield]

/-! ### The laws of FLD.GET and FLD.SET -/

/-- Reading a field just set gives the value's low bits (R222 a). -/
theorem fldGet_fldSet_same (v x : Word) {hi lo : Fin 16} (hpos : lo ≤ hi) :
    fldGet (fldSet v hi lo x) hi lo = x &&& mask (fieldWidth hi lo) := by
  have hle : lo.val ≤ hi.val := hpos
  apply BitVec.eq_of_getLsbD_eq
  intro i hi16
  rw [fldGet_bit, BitVec.getLsbD_and, fieldMask_bit hi lo hi16, Bool.and_comm]
  by_cases hin : i ≤ hi.val - lo.val
  · rw [fldSet_bit v x hpos (by omega), if_pos (by omega), Nat.add_sub_cancel_left]
  · simp [hin]

/-- Setting a field to what it holds changes nothing (R222 b). -/
theorem fldSet_fldGet_same (v : Word) {hi lo : Fin 16} (hpos : lo ≤ hi) : fldSet v hi lo (fldGet v hi lo) = v := by
  apply BitVec.eq_of_getLsbD_eq
  intro i hi16
  rw [fldSet_bit _ _ hpos hi16]
  split
  case isTrue hin =>
    obtain ⟨hlo, hhi⟩ := hin
    rw [fldGet_bit, Nat.add_sub_cancel' hlo, decide_eq_true (Nat.sub_le_sub_right hhi _), Bool.true_and]
  case isFalse => rfl

/-- The later of two sets of one field wins (R222 c). -/
theorem fldSet_fldSet_same (v x y : Word) {hi lo : Fin 16} (hpos : lo ≤ hi) :
    fldSet (fldSet v hi lo x) hi lo y = fldSet v hi lo y := by
  apply BitVec.eq_of_getLsbD_eq
  intro i hi16
  rw [fldSet_bit (fldSet v hi lo x) y hpos hi16, fldSet_bit v y hpos hi16]
  split
  case isTrue => rfl
  case isFalse hout => rw [fldSet_bit _ _ hpos hi16, if_neg hout]

section
variable {hi lo hi2 lo2 : Fin 16} (hpos : lo ≤ hi) (hpos2 : lo2 ≤ hi2) (hapart : hi < lo2 ∨ hi2 < lo)
include hpos hpos2 hapart

/-- A set leaves a field apart from it as it reads (R222 d). -/
theorem fldGet_fldSet_apart (v x : Word) : fldGet (fldSet v hi lo x) hi2 lo2 = fldGet v hi2 lo2 := by
  apply BitVec.eq_of_getLsbD_eq
  intro i hi16
  rw [fldGet_bit, fldGet_bit]
  by_cases hin : i ≤ hi2.val - lo2.val
  · rw [fldSet_bit v x hpos (by omega), if_neg (by omega)]
  · simp [hin]

/-- Sets of fields apart commute, since no bit lies in both (R222 d). -/
theorem fldSet_fldSet_comm (v x y : Word) :
    fldSet (fldSet v hi lo x) hi2 lo2 y = fldSet (fldSet v hi2 lo2 y) hi lo x := by
  apply BitVec.eq_of_getLsbD_eq
  intro i hi16
  have hdisjoint : ¬((lo.val ≤ i ∧ i ≤ hi.val) ∧ lo2.val ≤ i ∧ i ≤ hi2.val) := by omega
  rw [fldSet_bit _ _ hpos2 hi16, fldSet_bit _ _ hpos hi16, fldSet_bit _ _ hpos hi16, fldSet_bit _ _ hpos2 hi16]
  by_cases hin : lo.val ≤ i ∧ i ≤ hi.val
  · rw [if_pos hin, if_pos hin, if_neg fun hin2 => hdisjoint ⟨hin, hin2⟩]
  · rw [if_neg hin, if_neg hin]

end

/-! ### Fields at bit 0 and of one bit -/

/-- FLD.SET of the lowest bits needs no shift. -/
theorem fldSet_low (v x : Word) (hi : Fin 16) :
    fldSet v hi 0 x = (v &&& ~~~ mask (hi.val + 1)) ||| (x &&& mask (hi.val + 1)) := by
  simp [fldSet, fieldWidth]

/-- FLD.SET of a single bit clears it, and sets it again for `true`. -/
theorem fldSet_single (v : Word) (i : Fin 16) (b : Bool) :
    fldSet v i i ((BitVec.ofBool b).setWidth 16) =
      (v &&& ~~~(mask 1 <<< i.val)) ||| if b then mask 1 <<< i.val else 0 := by
  cases b <;> simp [fldSet, fieldWidth, mask]

theorem lowBits_bit (v : Word) {n i : Nat} (hin : i < n) : (v.extractLsb' 0 n).getLsbD i = v.getLsbD i := by
  rw [BitVec.getLsbD_extractLsb', decide_eq_true hin, Bool.true_and, Nat.zero_add]

/-- The low `n` bits in a 16-bit container are the word under the mask. -/
theorem lowBits_container (v : Word) (n : Nat) : (v.extractLsb' 0 n).setWidth 16 = v &&& mask n := by
  apply BitVec.eq_of_getLsbD_eq
  intro i hi16
  rw [BitVec.getLsbD_setWidth, BitVec.getLsbD_extractLsb', BitVec.getLsbD_and, mask_bit, Nat.zero_add]
  simp [hi16, Bool.and_comm]

theorem lowBits_setWidth {n : Nat} (hn : n ≤ 16) (a : BitVec n) : (a.setWidth 16).extractLsb' 0 n = a := by
  rw [← BitVec.setWidth_eq_extractLsb' hn, BitVec.setWidth_setWidth_of_le _ hn, BitVec.setWidth_eq]

/-- Setting the low bits makes them those of the new value. -/
theorem lowBits_fldSet (v x : Word) (hi : Fin 16) :
    (fldSet v hi 0 x).extractLsb' 0 (hi.val + 1) = x.extractLsb' 0 (hi.val + 1) := by
  apply BitVec.eq_of_getLsbD_eq
  intro i hlt
  rw [lowBits_bit _ hlt, lowBits_bit _ hlt, fldSet_bit v x (Fin.zero_le hi) (by omega),
    if_pos ⟨Nat.zero_le i, Nat.le_of_lt_succ hlt⟩]
  rfl

/-! ### The diagnostics flags -/

/-- R228 by the two flags. -/
theorem diagStrengthOk_eq (l : DiagLayout) (v : Word) :
    diagStrengthOk l v = decide (v.getLsbD l.bStrong.val = false ∧ v.getLsbD l.bWeak.val = false) := by
  simp [diagStrengthOk, diagStrong, diagWeak]

/-- R229 by the three flags. -/
theorem diagValid_eq (l : DiagLayout) (v : Word) :
    diagValid l v = decide (v.getLsbD l.bCof.val = false ∧ v.getLsbD l.bStrong.val = false ∧
      v.getLsbD l.bWeak.val = false) := by
  rw [diagValid, diagStrengthOk_eq]
  simp [diagCof]

/-- A permitted layout is a permutation of bits 11 to 8 with 10 for the offset compensation, so the other three flags
share bits 11, 9 and 8 (R35). -/
theorem layoutOk_perm {l : DiagLayout} (h : layoutOk l = true) : [l.bCof, l.bStrong, l.bWeak].Perm [11, 9, 8] := by
  simp only [layoutOk, Bool.and_eq_true, List.all_eq_true, decide_eq_true_eq] at h
  obtain ⟨⟨hmem, hnodup⟩, hocf⟩ := h
  have hall : [l.bStrong, l.bWeak, l.bCof, l.bOcf].Perm [11, 10, 9, 8] :=
    (List.subperm_of_subset hnodup hmem).perm_of_length_le (Nat.le_refl 4)
  rw [hocf] at hall
  have hlast : ([11, 10, 9, 8] : List (Fin 16)).Perm ([11, 9, 8] ++ [10]) := by decide
  have hthree : [l.bStrong, l.bWeak, l.bCof].Perm [11, 9, 8] :=
    (List.perm_append_right_iff [10]).mp (hall.trans hlast)
  exact (List.perm_append_comm (l₁ := [l.bCof])).trans hthree

/-- Which of the three flags stands at which bit does not matter to DIAG.VALID (R229). -/
theorem diagValid_iff_of_layoutOk {l : DiagLayout} (h : layoutOk l = true) (v : Word) :
    diagValid l v = true ↔ v.getLsbD 11 = false ∧ v.getLsbD 9 = false ∧ v.getLsbD 8 = false :=
  calc diagValid l v = true
    _ ↔ ∀ b ∈ [l.bCof, l.bStrong, l.bWeak], v.getLsbD b.val = false := by simp [diagValid_eq]
    _ ↔ ∀ b ∈ ([11, 9, 8] : List (Fin 16)), v.getLsbD b.val = false := by simp only [(layoutOk_perm h).mem_iff]
    _ ↔ v.getLsbD 11 = false ∧ v.getLsbD 9 = false ∧ v.getLsbD 8 = false := by simp

/-! ### The zero-position registers -/

theorem zposmSet_eq (v x : Word) : zposmSet v x = (v &&& 0xFF00#16) ||| (x &&& 0x00FF#16) := fldSet_low v x 7

theorem zposlSet_eq (v x : Word) : zposlSet v x = (v &&& 0xFFC0#16) ||| (x &&& 0x003F#16) := fldSet_low v x 5

theorem zposlEn7Set_eq (v : Word) (b : Bool) :
    zposlEn7Set v b = (v &&& 0xFF7F#16) ||| if b then 0x0080#16 else 0 := fldSet_single v 7 b

theorem zposlEn6Set_eq (v : Word) (b : Bool) :
    zposlEn6Set v b = (v &&& 0xFFBF#16) ||| if b then 0x0040#16 else 0 := fldSet_single v 6 b

theorem zposmGet_setWidth (a : Byte) : zposmGet (a.setWidth 16) = a := lowBits_setWidth (by decide) a

theorem zposlGet_setWidth (a : BitVec 6) : zposlGet (a.setWidth 16) = a := lowBits_setWidth (by decide) a

theorem zposmGet_zposmSet (v x : Word) : zposmGet (zposmSet v x) = zposmGet x := lowBits_fldSet v x 7

theorem zposlGet_zposlSet (v x : Word) : zposlGet (zposlSet v x) = zposlGet x := lowBits_fldSet v x 5

/-! ### ZPOS.SPLIT and ZPOS.COMPOSE -/

/-- A composed zero position is the two fields side by side (R244). -/
theorem zposCompose_eq_append (m l : Word) : zposCompose m l = zposmGet m ++ zposlGet l := by
  rw [BitVec.append_def, BitVec.shiftLeftZeroExtend_eq, BitVec.setWidth'_eq]
  rfl

theorem zposCompose_toNat (m l : Word) : (zposCompose m l).toNat = m.toNat % 256 * 64 + l.toNat % 64 := by
  rw [zposCompose_eq_append, BitVec.toNat_append, ← Nat.shiftLeft_add_eq_or_of_lt (zposlGet l).isLt, Nat.shiftLeft_eq,
    zposmGet, zposlGet, BitVec.extractLsb'_toNat, BitVec.extractLsb'_toNat, Nat.shiftRight_zero, Nat.shiftRight_zero]

/-- Splitting what was composed gives the two fields back (R244). -/
theorem zposSplit_zposCompose (m l : Word) : zposSplit (zext (zposCompose m l)) = (zposmGet m, zposlGet l) := by
  rw [zposCompose_eq_append, zposSplit, zext, BitVec.extractLsb'_setWidth_of_le (by decide),
    BitVec.extractLsb'_setWidth_of_le (by decide)]
  exact Prod.ext BitVec.extractLsb'_append_eq_left BitVec.extractLsb'_append_eq_right

/-- Registers whose fields are the halves of `v` compose to bits 13 to 0 of `v` (R244). -/
theorem zposCompose_of_halves {m l v : Word} (hm : zposmGet m = (zposSplit v).1) (hl : zposlGet l = (zposSplit v).2) :
    zext (zposCompose m l) = v &&& 0x3FFF#16 := by
  have hpayload : (zposSplit v).1 ++ (zposSplit v).2 = payloadOf v :=
    BitVec.extractLsb'_append_extractLsb'_eq_extractLsb' rfl
  rw [zposCompose_eq_append, hm, hl, hpayload, zext_payloadOf]

end Sys2Proof.Machine

namespace Sys2Proof.Proofs

open Sys2Proof Sys2Proof.Machine

/-- Settles O9: a legal position is not refused, and FLD.GET is given bit by bit. -/
theorem fldGetReadsItsField : Obligations.FldGetReadsItsField := by
  unfold Obligations.FldGetReadsItsField
  exact fun s v hi lo hpos => ⟨fldGet v hi lo, if_pos hpos, fldGet_bit v hi lo⟩

/-- Settles O10: a legal position is not refused, and FLD.SET is given bit by bit. -/
theorem fldSetReplacesItsField : Obligations.FldSetReplacesItsField := by
  unfold Obligations.FldSetReplacesItsField
  exact fun s v hi lo x hpos => ⟨fldSet v hi lo x, if_pos hpos, fun i hi16 => fldSet_bit v x hpos hi16⟩

/-- Settles O12: the four laws, each compared bit by bit. -/
theorem fieldLaws : Obligations.FieldLaws := by
  unfold Obligations.FieldLaws
  intro v x y hi lo hi2 lo2 hpos hpos2
  exact ⟨fldGet_fldSet_same v x hpos, fldSet_fldGet_same v hpos, fldSet_fldSet_same v x y hpos, fun hapart =>
    ⟨fldGet_fldSet_apart hpos hpos2 hapart v x, fldSet_fldSet_comm hpos hpos2 hapart v x y⟩⟩

/-- Settles O13: AGC is the low byte, and each flag is read at its layout's bit by definition. -/
theorem diagnosticsAccessors : Obligations.DiagnosticsAccessors := by
  unfold Obligations.DiagnosticsAccessors
  exact fun s v => ⟨⟨diagAgc v, rfl, fun i hi => lowBits_bit v hi⟩, rfl, rfl, rfl, rfl⟩

/-- Settles O14: the two verdicts by their flags, and the three bits a permitted layout leaves to them. -/
theorem diagnosticsValidity : Obligations.DiagnosticsValidity := by
  unfold Obligations.DiagnosticsValidity
  intro s v
  rw [← diagStrengthOk_eq, ← diagValid_eq]
  exact ⟨rfl, rfl, fun h => diagValid_iff_of_layoutOk h v⟩

/-- Settles O15: both accessors give the payload bits. -/
theorem magnitudeAndAngleFields : Obligations.MagnitudeAndAngleFields := by
  unfold Obligations.MagnitudeAndAngleFields
  exact fun s v => ⟨payloadOf v, fun i hi => payloadOf_bit hi, rfl, rfl⟩

/-- Settles O16: the getters are low bits or single bits, the setters FLD.SET at fixed positions. -/
theorem zeroPositionRegisterFields : Obligations.ZeroPositionRegisterFields := by
  unfold Obligations.ZeroPositionRegisterFields
  intro s v x b
  rw [← zposmSet_eq, ← zposlSet_eq, ← zposlEn7Set_eq, ← zposlEn6Set_eq]
  exact ⟨⟨zposmGet v, fun i hi => lowBits_bit v hi, rfl⟩, rfl, ⟨zposlGet v, fun i hi => lowBits_bit v hi, rfl⟩,
    rfl, rfl, rfl, rfl, rfl⟩

/-- Settles O17: each accessor reads its bit by definition. -/
theorem errorFlagBits : Obligations.ErrorFlagBits := by
  unfold Obligations.ErrorFlagBits
  exact fun s v => ⟨rfl, rfl, rfl⟩

/-- Settles O18: the values by arithmetic on the halves, the round trips by the two fields side by side. -/
theorem zeroPositionSplitAndCompose : Obligations.ZeroPositionSplitAndCompose := by
  unfold Obligations.ZeroPositionSplitAndCompose
  refine ⟨fun s v => ⟨(zposSplit v).1, (zposSplit v).2, rfl, ?_, ?_⟩,
    fun s m l => ⟨zext (zposCompose m l), rfl, ?_, ?_, ?_⟩, fun m l v => ⟨?_, ?_⟩⟩
  · rw [zposSplit, BitVec.extractLsb'_toNat, Nat.shiftRight_eq_div_pow]
  · rw [zposSplit, BitVec.extractLsb'_toNat, Nat.shiftRight_zero]
  · rw [zext, BitVec.toNat_setWidth, zposCompose_toNat]
    exact Nat.mod_eq_of_lt (by omega)
  · rw [zposSplit_zposCompose]
    exact lowBits_container m 8
  · rw [zposSplit_zposCompose]
    exact lowBits_container l 6
  · exact zposCompose_of_halves (zposmGet_setWidth _) (zposlGet_setWidth _)
  · exact zposCompose_of_halves ((zposmGet_zposmSet _ _).trans (zposmGet_setWidth _))
      ((zposlGet_zposlSet _ _).trans (zposlGet_setWidth _))

end Sys2Proof.Proofs
end

section
/-! PROOF. RELEASE (spec 44_sensor_operations R278): what it leaves, from where it releases, and that no request is
taken afterwards. -/

namespace Sys2Proof.Machine

/-- Where no working register holds a value there is nothing to clear (R23). -/
theorem clearWorking_of_workingEmpty {s : State} (h : workingEmpty s = true) : clearWorking s = s := by
  cases s
  simp only [workingEmpty, Bool.and_eq_true, Option.isNone_iff_eq_none] at h
  obtain ⟨⟨⟨⟨⟨⟨⟨⟨⟨⟨⟨rfl, rfl⟩, rfl⟩, rfl⟩, rfl⟩, rfl⟩, rfl⟩, rfl⟩, rfl⟩, rfl⟩, rfl⟩, rfl⟩ := h
  rfl

/-- RELEASE at IDLE with the transport owned (R278). -/
theorem exec_release_idle {s : State} (hp : s.phase = .idle) (ho : s.owned = true) :
    exec .release s = .next { clearWorking s with
      phase := .released, owned := false, reqPort := s.reqPort.tail, results := .ok none :: s.results } :=
  (whenIdle_idle ho hp).trans (endOperation_writeOk .released none _)

/-- RELEASE reaches RELEASED from IDLE with the transport owned only: a busy block leaves the request pending (R278,
R353). -/
theorem idle_of_exec_release {s t : State} (h : exec .release s = .next t) (ht : t.phase = .released) :
    s.phase = .idle ∧ s.owned = true := by
  obtain ⟨ho, ⟨hp, -⟩ | ⟨k, sub, hp, rfl⟩⟩ := whenIdle_next h
  · exact ⟨hp, ho⟩
  · rw [hp] at ht
    cases ht

/-- RELEASE that reaches RELEASED has given the transport up (R278). -/
theorem not_owned_of_exec_release {s t : State} (h : exec .release s = .next t) (ht : t.phase = .released) :
    t.owned = false := by
  obtain ⟨hp, ho⟩ := idle_of_exec_release h ht
  cases (exec_release_idle hp ho).symm.trans h
  rfl

/-- Without ownership every request is refused, a reserved one too (R118 (a), (c)). -/
theorem exec_request_refused {s : State} {i : Instr} {w : BitVec 34} {fn : Fn} (he : encode i = .request w fn)
    (ho : s.owned = false) : ∃ r, exec i s = .refused r := by
  cases i with
  | reservedB | reservedC | reservedD | reservedE | reservedF => exact ⟨_, rfl⟩
  | read | write | modify => exact ⟨_, whenIdle_released ho⟩
  | angle | angleDeg | magnitude | diag | clrerr | zposGet | zposSet => exact ⟨_, whenIdle_released ho⟩
  | release => exact ⟨_, whenIdle_released ho⟩
  | _ => cases he

end Sys2Proof.Machine

namespace Sys2Proof.Proofs

open Sys2Proof Sys2Proof.Machine

/-- Settles O23: the end of RELEASE with nothing to clear, the one phase it releases from, and the refusals without
ownership. -/
theorem releaseGivesTheTransportBack : Obligations.ReleaseGivesTheTransportBack := by
  unfold Obligations.ReleaseGivesTheTransportBack
  refine ⟨fun s hp ho hw => ?_, fun s t => idle_of_exec_release,
    fun s t i w fn h ht he => exec_request_refused he (not_owned_of_exec_release h ht)⟩
  rw [exec_release_idle hp ho, clearWorking_of_workingEmpty hw]

end Sys2Proof.Proofs
end

section
/-! PROOF. The sensor operations that are one READ (spec 44_sensor_operations R271 to R275): each is accepted, its
schedule is the READ of its register, and finish returns what its rule says of the payload. -/

namespace Sys2Proof.Machine

/-! ### What is returned of the payload -/

/-- ANGLE.GET and MAG.GET leave a payload in its 16-bit container as it is (R111, R230, R231). -/
theorem zext_payloadOf_and (w : Word) : zext (payloadOf (w &&& 0x3FFF#16)) = w &&& 0x3FFF#16 := by
  rw [zext_payloadOf, BitVec.and_assoc, BitVec.and_self]

/-- The 32-bit multiply of DEG.CONV does not saturate on a 16-bit word (R245). -/
theorem degConv_eq (m : AngleMax) (a : Word) : degConv m a = BitVec.ofNat 16 (a.toNat * 360 / angleMaxNat m) := by
  have hlt := a.isLt
  rw [degConv, Nat.min_eq_left (by omega)]

theorem finishValue_angleDeg {t : State} {x : Word} (h : t.resValue = some x) :
    finishValue .angleDeg t = .ok (some (BitVec.ofNat 16 (x.toNat * 360 / angleMaxNat t.cfg.angleMax))) := by
  rw [← degConv_eq]
  exact return_resValue (fun x => some (degConv t.cfg.angleMax x)) h

/-! ### One READ, whichever operation -/

/-- A request of `sensorRead` is latched as an operation whose schedule is one READ at its register's address; finish
returns of the payload what `sensorRead` says (R182, R183, R271 to R275). -/
theorem exec_sensorRead {s : State} {i : Instr} {r : Register} {a : Addr} {v : Word → Option Word}
    (hp : s.phase = .idle) (ho : s.owned = true) (hi : sensorRead s.cfg i = some (r, v))
    (ha : addrOf s.cfg r = some a) :
    ∃ (op : Op) (ref : RegRef) (f : Word → Option Word),
      exec i s = .next (latch op (portReg s) (portWdata s) (portFn s) s) ∧
      schedule op = readEntries ref .keepValue ∧
      refAddr (latch op (portReg s) (portWdata s) (portFn s) s) ref = .ok a ∧
      (∀ t x, t.cfg = s.cfg → t.resValue = some x → finishValue op t = .ok (f x)) ∧
      ∀ w, f (w &&& 0x3FFF#16) = v (w &&& 0x3FFF#16) := by
  have hneeds : ∀ g ∈ [r], (addrOf s.cfg g).isSome := by simp [ha]
  cases i with
  | angle =>
    cases hi
    exact ⟨.angle, _, _, accepts_sensor .angle _ hp ho hneeds, rfl, refAddr_angleReg ha,
      fun t x _ hx => return_resValue (fun x => some (zext (angleGet x))) hx,
      fun w => congrArg some (zext_payloadOf_and w)⟩
  | angleDeg =>
    cases hi
    exact ⟨.angleDeg, _, _, accepts_sensor .angleDeg _ hp ho hneeds, rfl, refAddr_angleReg ha,
      fun t x hc hx => hc ▸ finishValue_angleDeg hx, fun _ => rfl⟩
  | magnitude =>
    cases hi
    exact ⟨.magnitude, _, _, accepts_sensor .magnitude _ hp ho hneeds, rfl, refAddr_fixed ha,
      fun t x _ hx => return_resValue (fun x => some (zext (magGet x))) hx,
      fun w => congrArg some (zext_payloadOf_and w)⟩
  | diag =>
    cases hi
    exact ⟨.diag, _, _, accepts_sensor .diag _ hp ho hneeds, rfl, refAddr_fixed ha,
      fun t x _ hx => return_resValue some hx, fun _ => rfl⟩
  | clrerr =>
    cases hi
    exact ⟨.clrerr, _, _, accepts_sensor .clrerr _ hp ho hneeds, rfl, refAddr_fixed ha,
      fun t x hc hx => hc ▸ finishValue_clrerr hx, fun _ => rfl⟩
  | _ => cases hi

end Sys2Proof.Machine

namespace Sys2Proof.Proofs

open Sys2Proof Sys2Proof.Machine

/-- Settles O36: the accepted operation, by the outcomes of an operation that is one READ. -/
theorem sensorReadOutcomes : Obligations.SensorReadOutcomes := by
  unfold Obligations.SensorReadOutcomes
  intro s i a r v b0 b1 c0 c1 e rest hp ho ht hi ha
  obtain ⟨op, ref, f, hx, hs, haddr, hfinish, hvalue⟩ := exec_sensorRead hp ho hi ha
  refine ⟨_, hx, ?_⟩
  rw [← hvalue]
  exact oneRead_outcomes ht hs haddr hfinish

end Sys2Proof.Proofs
end

section
/-! PROOF. The endless wait (spec 42_frame_sequencer R196, 60_exceptions R330): a state that steps to itself stays for
any number of steps, and a transaction whose outcome never arrives is such a state. -/

namespace Sys2Proof.Machine

/-- Where nothing is enabled (R196), a run of any length changes nothing. -/
theorem run_of_step_self {s : State} (h : step s = .next s) (n : Nat) : run n s = .next s := by
  induction n with
  | zero => exact run_zero s
  | succ n ih => exact (run_succ h).trans ih

end Sys2Proof.Machine

namespace Sys2Proof.Proofs

open Sys2Proof Sys2Proof.Machine

/-- Settles O33: the unanswered transaction's step leaves the state as it is, so by induction every number of steps
does. -/
theorem unansweredTransactionWaitsForEver : Obligations.UnansweredTransactionWaitsForEver := by
  unfold Obligations.UnansweredTransactionWaitsForEver
  intro s k n ht hp ha
  exact run_of_step_self (step_unanswered ht hp ha) n

end Sys2Proof.Proofs
end

section
/-! PROOF. Creation (spec 70_reset_and_hazards R350, with the table of 10_state R50): what the created block holds. -/

namespace Sys2Proof.Machine

/-- Each of the twelve working registers comes out of creation without a value (R50). -/
@[simp] theorem workingEmpty_reset : workingEmpty State.reset = true := rfl

end Sys2Proof.Machine

namespace Sys2Proof.Proofs

open Sys2Proof Sys2Proof.Machine

/-- Settles O42: each fact is a field of the created state, or `workingEmpty_reset` for the working registers. -/
theorem resetLeavesTheCreatedBlock : Obligations.ResetLeavesTheCreatedBlock := by
  unfold Obligations.ResetLeavesTheCreatedBlock
  exact ⟨rfl, rfl, workingEmpty_reset, rfl, rfl⟩

end Sys2Proof.Proofs
end

section
/-! PROOF. The invariant (spec 10_state R22 to R27): what it says in each phase, that the created block meets it, and
that every move of a step keeps it. -/

namespace Sys2Proof.Machine

/-! ### What the invariant says, phase by phase -/

/-- What the invariant asks of a running operation, by name (R20, R24). -/
structure Running (s : State) (op : Op) (k : Nat) (sub : Sub) : Prop where
  reqOp       : s.reqOp = some op
  lt          : k < (schedule op).length
  operands    : operandsLatched s op = true
  acc         : accLatched s op k = true
  fn          : fnLatched s op k sub = true
  resStatus   : s.resStatus = none
  resHasValue : s.resHasValue = none
  resErr      : s.resErr = none
  txw         : sub = .issue ∨ s.txw.isSome

section
variable {s : State} {op : Op} {k : Nat} {sub : Sub}

theorem runningOk_iff : runningOk s k sub = true ↔ ∃ op, Running s op k sub := by
  unfold runningOk
  cases hop : s.reqOp with
  | none => exact iff_of_false (by simp) fun ⟨op, h⟩ => nomatch hop.symm.trans h.reqOp
  | some op =>
    simp only [Bool.and_eq_true, Bool.or_eq_true, decide_eq_true_eq, Option.isNone_iff_eq_none]
    constructor
    · rintro ⟨⟨⟨⟨⟨⟨⟨hk, ho⟩, ha⟩, hf⟩, h1⟩, h2⟩, h3⟩, ht⟩
      exact ⟨op, hop, hk, ho, ha, hf, h1, h2, h3, ht⟩
    · rintro ⟨op', hop', hk, ho, ha, hf, h1, h2, h3, ht⟩
      obtain rfl := Option.some.inj (hop.symm.trans hop')
      exact ⟨⟨⟨⟨⟨⟨⟨hk, ho⟩, ha⟩, hf⟩, h1⟩, h2⟩, h3⟩, ht⟩

/-- Every transaction of a trace has its outcome. -/
def Settled (tr : List Transaction) : Prop := ∀ u ∈ tr, u.answer.isSome

/-- The newest transaction of the trace is outstanding and carries TXW, and every other has its outcome (R26, R78). -/
def Outstanding (s : State) : Prop :=
  ∃ u us, s.trace = u :: us ∧ u.answer = none ∧ s.txw = some (ofWire u.tx0 u.tx1) ∧ Settled us

theorem inv_idle (hp : s.phase = .idle) :
    inv s = true ↔ s.owned = true ∧ workingEmpty s = true ∧ Settled s.trace := by
  simp [inv, hp, outstandingOk, Settled, and_assoc]

theorem inv_released (hp : s.phase = .released) :
    inv s = true ↔ s.owned = false ∧ workingEmpty s = true ∧ Settled s.trace := by
  simp [inv, hp, outstandingOk, Settled, and_assoc]

theorem inv_issue (hp : s.phase = .run k .issue) :
    inv s = true ↔ s.owned = true ∧ (∃ op, Running s op k .issue) ∧ Settled s.trace := by
  simp [inv, hp, outstandingOk, Settled, and_assoc, runningOk_iff]

theorem inv_wait (hp : s.phase = .run k .wait) :
    inv s = true ↔ s.owned = true ∧ (∃ op, Running s op k .wait) ∧ Outstanding s := by
  cases htr : s.trace with
  | nil => simp [inv, hp, outstandingOk, Outstanding, htr]
  | cons u us => simp [inv, hp, outstandingOk, Outstanding, Settled, htr, and_assoc, runningOk_iff]

/-- A running block owns the transport and has what its operation reads. -/
theorem running_of_inv_run (hi : inv s = true) (hp : s.phase = .run k sub) :
    s.owned = true ∧ ∃ op, Running s op k sub := by
  cases sub with
  | issue => exact ⟨((inv_issue hp).mp hi).1, ((inv_issue hp).mp hi).2.1⟩
  | wait => exact ⟨((inv_wait hp).mp hi).1, ((inv_wait hp).mp hi).2.1⟩

end

/-! ### What a move does to the trace and the working registers -/

theorem settled_recordAnswer {s : State} (a : Answer) (h : Outstanding s) : Settled (recordAnswer a s.trace) := by
  obtain ⟨u, us, htr, -, -, hus⟩ := h
  rw [htr]
  exact List.forall_mem_cons.mpr ⟨rfl, hus⟩

theorem outstanding_startXfer {s : State} (k : Nat) (w : Word) (h : Settled s.trace) :
    Outstanding { startXfer w s with phase := .run k .wait } :=
  ⟨_, _, rfl, rfl, congrArg some (ofWire_toWire w).symm, h⟩

theorem workingEmpty_iff {s : State} : workingEmpty s = true ↔ clearWorking s = s := by
  refine ⟨clearWorking_of_workingEmpty, fun h => ?_⟩
  rw [← h]
  rfl

/-! ### An accepted request -/

/-- The register found at an address has an address (R34). -/
theorem addrOf_isSome_of_registerAt {c : Config} {a : Addr} {r : Register} (h : registerAt c a = some r) :
    (addrOf c r).isSome := by
  obtain ⟨e, he, rfl⟩ := Option.map_eq_some_iff.mp h
  rw [addrOf, Option.isSome_map, List.find?_isSome]
  exact ⟨e, List.mem_of_find?_eq_some he, decide_eq_true rfl⟩

theorem operandMapped_latch {s : State} {op : Op} {a : Addr} {d : Option Word} {f : Option Fn}
    (h : (registerAt s.cfg a).isSome) : operandMapped (latch op (registerAt s.cfg a) d f s) = true := by
  obtain ⟨r, hr⟩ := Option.isSome_iff_exists.mp h
  simp only [operandMapped, latch_reqReg, latch_cfg, hr]
  exact addrOf_isSome_of_registerAt hr

/-- What lets a request be accepted is what its operation reads (R118, R183). -/
theorem operandsLatched_latch {s : State} {op : Op} {a : Addr} (d : Word) (f : Fn)
    (h : acceptable s.cfg op (registerAt s.cfg a)) :
    operandsLatched (latch op (registerAt s.cfg a) (some d) (some f) s) op = true := by
  cases op with
  | read => exact operandMapped_latch h
  | write | modify => exact Bool.and_eq_true_iff.mpr ⟨operandMapped_latch h, rfl⟩
  | zposSet =>
    have hneeds : ∀ r ∈ [Register.zposm, .zposl], (addrOf s.cfg r).isSome := h
    simpa [operandsLatched] using hneeds
  | release => exact h.elim
  | _ => exact List.all_eq_true.mpr h

theorem fnLatched_start {s : State} {op : Op} (h : s.fnValue = none) : fnLatched s op 0 .issue = true := by
  unfold fnLatched
  rw [h]
  cases halfFn op 0 <;> rfl

theorem schedule_pos {c : Config} {op : Op} {reg : Option Register} (h : acceptable c op reg) :
    0 < (schedule op).length := by
  cases op with
  | release => exact h.elim
  | _ => decide

theorem accLatched_start (s : State) (op : Op) : accLatched s op 0 = true := by cases op <;> rfl

theorem running_latch {s : State} {op : Op} {a : Addr} (d : Word) (f : Fn) (hw : workingEmpty s = true)
    (h : acceptable s.cfg op (registerAt s.cfg a)) :
    Running (latch op (registerAt s.cfg a) (some d) (some f) s) op 0 .issue := by
  rw [workingEmpty_iff] at hw
  rw [← hw]
  exact ⟨rfl, schedule_pos h, operandsLatched_latch d f h, accLatched_start _ op, fnLatched_start rfl,
    rfl, rfl, rfl, .inl rfl⟩

/-! ### A running operation's moves -/

/-- Where the function of a MODIFY half is due, and which entries keep a payload in ACC (R182): a function is due at its
half's third entry, its half's second entry fills ACC, and no other goes over to the next half; the second entry of
every composite operation fills ACC. -/
theorem schedule_halves (op : Op) : ∀ x ∈ (schedule op).zipIdx,
    (x.2 % 5 = 2 → halfFn op x.2 = x.1.evaluates) ∧
    (halfFn op x.2 ≠ none → (x.1.handling = .keepAcc ↔ x.2 % 5 = 1)) ∧
    (x.1.handling ≠ .keepAcc → halfFn op (x.2 + 1) = halfFn op x.2) ∧
    (x.1.handling = .keepAcc → halfFn op x.2 = none → halfFn op (x.2 + 1) = none) ∧
    (op = .modify ∨ op = .zposGet ∨ op = .zposSet → x.2 = 1 → x.1.handling = .keepAcc) := by
  cases op <;> decide

section
variable {s : State} {op : Op} {k : Nat} {sub : Sub} {e : Entry}

theorem accLatched_iff : accLatched s op k = true ↔
    (op = .modify ∨ op = .zposGet ∨ op = .zposSet → 1 < k → s.acc.isSome) := by
  have hk : k ≤ 1 ∨ s.acc.isSome = true ↔ (1 < k → s.acc.isSome) := by
    rw [← Nat.not_lt]; exact Decidable.imp_iff_not_or.symm
  cases op <;> simp [accLatched, hk]

theorem fnLatched_iff : fnLatched s op k sub = true ↔
    (halfFn op k = none → s.fnValue = none) ∧
    ∀ g, halfFn op k = some g →
      (∀ u, s.fnValue = some u → modFnValue s g = .ok u) ∧
      (s.fnValue = none → k % 5 ≤ 1 ∨ k % 5 = 2 ∧ sub = .issue) := by
  cases hg : halfFn op k <;> cases hv : s.fnValue <;> simp [fnLatched, hg, hv]

/-- The evaluation leaves the value that its half's function has at ACC (R192, D19). -/
theorem Running.applies {g : ModFn} {u : Word} (hr : Running s op k .issue) (hd : dueFn s k = some g)
    (hu : modFnValue s g = .ok u) : Running { s with fnValue := some u } op k .issue := by
  obtain ⟨e, hentry, hev, -⟩ := dueFn_eq_some.mp hd
  obtain ⟨op', hop', he⟩ := currentEntry_ok hentry
  obtain rfl := Option.some.inj (hr.reqOp.symm.trans hop')
  have hg : halfFn op k = some g :=
    ((schedule_needs op (e, k) (List.mk_mem_zipIdx_iff_getElem?.mpr he)).1 (by simp [hev])).2.trans hev
  refine { hr with fn := fnLatched_iff.mpr ⟨fun hnone => (nomatch hg.symm.trans hnone), fun g' hg' => ?_⟩ }
  obtain rfl := Option.some.inj (hg.symm.trans hg')
  exact ⟨fun v hv => Option.some.inj hv ▸ hu, fun hv => nomatch hv⟩

/-- What is issued has been evaluated (D19, log 16). -/
theorem Running.issues {w : Word} (hr : Running s op k .issue) (hd : dueFn s k = none) :
    Running { startXfer w s with phase := .run k .wait } op k .wait := by
  obtain ⟨hnone, hsome⟩ := fnLatched_iff.mp hr.fn
  refine ⟨hr.reqOp, hr.lt, hr.operands, hr.acc,
    fnLatched_iff.mpr ⟨hnone, fun g hg => ⟨(hsome g hg).1, fun hv => ?_⟩⟩,
    hr.resStatus, hr.resHasValue, hr.resErr, .inr rfl⟩
  obtain hk | ⟨hk, -⟩ := (hsome g hg).2 hv
  · exact .inl hk
  · have he := List.getElem?_eq_getElem hr.lt
    have hev := (schedule_halves op _ (List.mk_mem_zipIdx_iff_getElem?.mpr he)).1 hk
    have hdue := dueFn_eq_some.mpr ⟨_, currentEntry_eq hr.reqOp he, hev.symm.trans hg, hv⟩
    exact nomatch hd.symm.trans hdue

/-- The next entry finds ACC and the function's value as its half needs them (R181, R192). -/
theorem Running.continues (hr : Running s op k .wait) (he : (schedule op)[k]? = some e)
    (hk : k + 1 < (schedule op).length) (p : Payload) (b0 b1 : Byte) (rest : List Answer) :
    Running (continued s k e p b0 b1 rest) op (k + 1) .issue := by
  obtain ⟨-, hkeep, hhalf, hout, hfill⟩ := schedule_halves op (e, k) (List.mk_mem_zipIdx_iff_getElem?.mpr he)
  obtain ⟨hnone, hsome⟩ := fnLatched_iff.mp hr.fn
  have hmod : ∀ g, e.handling ≠ .keepAcc → modFnValue (continued s k e p b0 b1 rest) g = modFnValue s g := by
    intro g h
    cases g <;> simp [modFnValue, h]
  have hoperands : operandsLatched (continued s k e p b0 b1 rest) op = operandsLatched s op := by
    unfold continued
    cases e.handling <;> cases op <;> rfl
  refine ⟨by simpa using hr.reqOp, hk, hoperands.trans hr.operands, accLatched_iff.mpr fun hop hk1 => ?acc,
    fnLatched_iff.mpr ?fn, by simpa using hr.resStatus, by simpa using hr.resHasValue,
    by simpa using hr.resErr, .inl rfl⟩
  case acc =>
    rw [continued_acc]
    split
    case isTrue => rfl
    case isFalse h => exact accLatched_iff.mp hr.acc hop (by have : k ≠ 1 := fun h1 => h (hfill hop h1); omega)
  case fn =>
    rw [continued_fnValue]
    by_cases h : e.handling = .keepAcc
    · simp only [h, if_true]
      refine ⟨fun _ => trivial, fun g hg => ⟨fun u hu => (nomatch hu), fun _ => ?_⟩⟩
      have hg' : halfFn op k ≠ none := fun hn => nomatch hg.symm.trans (hout h hn)
      have hk1 : k % 5 = 1 := (hkeep hg').mp h
      exact .inr ⟨by omega, trivial⟩
    · simp only [h, if_false, hhalf h]
      refine ⟨hnone, fun g hg => ⟨fun u hu => (hmod g h).trans ((hsome g hg).1 u hu), fun hv => ?_⟩⟩
      have hk1 : k % 5 ≠ 1 := fun h1 => h ((hkeep (by simp [hg])).mpr h1)
      obtain h0 | ⟨-, hsub⟩ := (hsome g hg).2 hv
      · omega
      · cases hsub

end

/-! ### Every move -/

theorem inv_ended {s : State} {k : Nat} (hi : inv s = true) (hp : s.phase = .run k .wait) (a : Answer)
    (rest : List Answer) (r : Result) : inv (endedState s rest (recordAnswer a s.trace) r) = true := by
  obtain ⟨howned, -, hout⟩ := (inv_wait hp).mp hi
  exact (inv_idle rfl).mpr ⟨howned, rfl, settled_recordAnswer a hout⟩

/-- Every move of the block keeps the invariant. -/
theorem BlockMoves.keeps_inv {s t : State} (h : BlockMoves s t) (hi : inv s = true) : inv t = true := by
  cases h with
  | waits => exact hi
  | accepts r rest op hp ho hr ha =>
    obtain ⟨-, hw, hset⟩ := (inv_idle hp).mp hi
    exact (inv_issue rfl).mpr ⟨ho, ⟨op, running_latch _ _ hw ha⟩, hset⟩
  | releases r rest hp =>
    obtain ⟨-, -, hset⟩ := (inv_idle hp).mp hi
    exact (inv_released rfl).mpr ⟨rfl, rfl, hset⟩
  | applies k g u hp hd hu =>
    obtain ⟨ho, ⟨op, hr⟩, hset⟩ := (inv_issue hp).mp hi
    exact (inv_issue (s := { s with fnValue := some u }) hp).mpr ⟨ho, ⟨op, hr.applies hd hu⟩, hset⟩
  | issues k pos w hp hd hf =>
    obtain ⟨ho, ⟨op, hr⟩, hset⟩ := (inv_issue hp).mp hi
    exact (inv_wait rfl).mpr ⟨ho, ⟨op, hr.issues hd⟩, outstanding_startXfer k w hset⟩
  | fails k e rest hp => exact inv_ended hi hp _ rest _
  | raises k b0 b1 rest e d hp => exact inv_ended hi hp _ rest _
  | finishes k b0 b1 rest op v hp => exact inv_ended hi hp _ rest _
  | continues k b0 b1 rest op e p hp ha hop he hk =>
    obtain ⟨ho, ⟨op', hr⟩, hout⟩ := (inv_wait hp).mp hi
    obtain rfl := Option.some.inj (hop.symm.trans hr.reqOp)
    refine (inv_issue (continued_phase ..)).mpr ⟨by simpa using ho, ⟨op, hr.continues he hk p b0 b1 rest⟩, ?_⟩
    rw [continued_trace]
    exact settled_recordAnswer _ hout

/-- Every step keeps the invariant: the turns and the outputs are not in it. -/
theorem step_inv {s t : State} (hi : inv s = true) (h : step s = .next t) : inv t = true := by
  cases step_moves h with
  | evaluates => exact hi
  | block _ _ hm => exact hm.keeps_inv hi

end Sys2Proof.Machine

namespace Sys2Proof.Proofs

open Sys2Proof Sys2Proof.Machine

/-- Settles O44: by the moves of a step. -/
theorem stepKeepsTheInvariant : Obligations.StepKeepsTheInvariant := by
  unfold Obligations.StepKeepsTheInvariant
  exact fun s t => step_inv

/-- Settles O43: the created block is idle, owns the transport, and holds nothing and has sent nothing. -/
theorem resetMeetsTheInvariant : Obligations.ResetMeetsTheInvariant := by
  unfold Obligations.ResetMeetsTheInvariant
  exact ⟨(inv_idle rfl).mpr ⟨rfl, workingEmpty_reset, fun u hu => nomatch hu⟩, rfl⟩

end Sys2Proof.Proofs
end

section
/-! PROOF. What every step does to the configuration, the phase, the trace and the results, and what it never does (spec
10_state R22 to R30, 70_reset_and_hazards R351, R358): each by the moves of a step. -/

namespace Sys2Proof.Machine

/-! ### Combinational functions -/

/-- The port of a combinational function is that of the words it was decoded from (R116). -/
theorem encode_port_of_decode {port : CombPort} {w : Word} {side : List Word} {i : Instr}
    (hd : decode (.comb port w side) = .ok i) : ∃ w' side', encode i = .comb port w' side' := by
  cases port with
  | fldGet => obtain ⟨hi, lo, rfl⟩ := fldGetSide_ok hd; exact ⟨_, _, rfl⟩
  | fldSet => obtain ⟨hi, lo, x, rfl⟩ := fldSetSide_ok hd; exact ⟨_, _, rfl⟩
  | mkCmd | zposmSet | zposlSet | zposlEn7Set | zposlEn6Set | zposCompose =>
    obtain ⟨x, rfl⟩ := oneSide_ok hd; exact ⟨_, _, rfl⟩
  | _ => obtain rfl := noSide_ok hd; exact ⟨_, _, rfl⟩

/-- Whether a combinational function answers does not depend on the state: it puts one value on its port and changes
nothing else (R28, R30), or its operands are no field position (R220). -/
theorem exec_of_encode_comb {i : Instr} {port : CombPort} {w : Word} {side : List Word}
    (he : encode i = .comb port w side) :
    (∀ s, ∃ v, exec i s = .next { s with outs := ⟨port, v⟩ :: s.outs }) ∨
      ∀ s, exec i s = .refused .fieldPosition := by
  cases i with
  | fldGet v hi lo =>
    cases he
    by_cases hpos : lo ≤ hi
    · exact .inl fun s => ⟨_, if_pos hpos⟩
    · exact .inr fun s => if_neg hpos
  | fldSet v hi lo x =>
    cases he
    by_cases hpos : lo ≤ hi
    · exact .inl fun s => ⟨_, if_pos hpos⟩
    · exact .inr fun s => if_neg hpos
  | cmdRd | cmdWr | data | nop | resp => cases he
  | read | write | modify | angle | angleDeg | magnitude | diag | clrerr | zposGet | zposSet | release => cases he
  | reservedB | reservedC | reservedD | reservedE | reservedF => cases he
  | _ => cases he; exact .inl fun s => ⟨_, rfl⟩

/-! ### Requests -/

theorem encode_decodeRequest (w : BitVec 34) (fn : Fn) :
    ∃ w' fn', encode (decodeRequest w fn) = .request w' fn' := by
  unfold decodeRequest
  split <;> exact ⟨_, _, rfl⟩

section
variable {s : State} {i : Instr} {f : Fault}

theorem whenIdle_ne_fault {a : Out} (h : a ≠ .fault f) : whenIdle s a ≠ .fault f := by
  unfold whenIdle
  split
  · exact nofun
  · split
    · exact h
    · exact nofun
    · exact nofun

theorem acceptAt_ne_fault (op : Op) (a : Addr) (d : Option Word) (fn : Option Fn) :
    acceptAt op a d fn s ≠ .fault f := by
  unfold acceptAt
  split <;> exact nofun

theorem acceptSensor_ne_fault (op : Op) (d : Option Word) : acceptSensor op d s ≠ .fault f := by
  unfold acceptSensor
  split <;> exact nofun

/-- Accepting or refusing a request reads no working register (R118, R183). -/
theorem exec_request_ne_fault {w : BitVec 34} {fn : Fn} (he : encode i = .request w fn) : exec i s ≠ .fault f := by
  cases i with
  | read | write | modify => exact whenIdle_ne_fault (acceptAt_ne_fault _ _ _ _)
  | angle | angleDeg | magnitude | diag | clrerr | zposGet | zposSet =>
    exact whenIdle_ne_fault (acceptSensor_ne_fault _ _)
  | release => exact whenIdle_ne_fault (by rw [endOperation_writeOk]; exact nofun)
  | reservedB | reservedC | reservedD | reservedE | reservedF => exact nofun
  | _ => cases he

/-! ### No fault -/

/-- No step of the block from a state of the invariant is a fault: a running operation has what its rules read, and
nothing else reads a working register (R22). -/
theorem blockStep_ne_fault (hi : inv s = true) : blockStep s ≠ .fault f := by
  have rest : s.phase = .idle ∨ s.phase = .released → blockStep s ≠ .fault f := by
    intro hp
    cases hr : s.reqPort with
    | nil => rw [blockStep_no_request hp hr]; exact nofun
    | cons r rs =>
      obtain ⟨w, fn, he⟩ := encode_decodeRequest r.word r.fn
      rw [blockStep_request hp hr]
      exact exec_request_ne_fault he
  cases hp : s.phase with
  | idle => exact rest (.inl hp)
  | released => exact rest (.inr hp)
  | run k sub =>
    obtain ⟨t, h⟩ := blockStep_running_ok hi hp
    rw [h]
    exact nofun

/-- The host's evaluations read no working register (R28). -/
theorem step_evaluate_ne_fault {port : CombPort} {w : Word} {side : List Word} {rest : List Turn}
    (ht : s.turns = .evaluate port w side :: rest) : step s ≠ .fault f := by
  cases hd : decode (.comb port w side) with
  | error e => simp [step, fetch, ht, hd]
  | ok i =>
    obtain ⟨w', side', he⟩ := encode_port_of_decode hd
    rw [step_evaluate ht hd]
    obtain hnext | href := exec_of_encode_comb he
    · obtain ⟨v, hv⟩ := hnext { s with turns := rest }
      rw [hv]
      exact nofun
    · rw [href]
      exact nofun

theorem step_ne_fault (hi : inv s = true) : step s ≠ .fault f := by
  match ht : s.turns with
  | [] => rw [step_block ht]; exact blockStep_ne_fault hi
  | .block :: rest => rw [step_turn ht]; exact blockStep_ne_fault (s := { s with turns := rest }) hi
  | .evaluate port w side :: rest => exact step_evaluate_ne_fault ht

end

/-! ### The configuration, the end of an operation -/

theorem BlockMoves.cfg {s t : State} (h : BlockMoves s t) : t.cfg = s.cfg := by
  cases h with
  | continues => exact continued_cfg ..
  | _ => rfl

/-- A move that delivers a result ends the operation (R23, R28). -/
theorem BlockMoves.results {s t : State} (h : BlockMoves s t) : t.results = s.results ∨
    ∃ r, t.results = r :: s.results ∧ workingEmpty t = true ∧ (t.phase = .idle ∨ t.phase = .released) := by
  cases h with
  | releases => exact .inr ⟨_, rfl, rfl, .inr rfl⟩
  | fails | raises | finishes => exact .inr ⟨_, rfl, rfl, .inl rfl⟩
  | continues => exact .inl (continued_results ..)
  | waits | accepts | applies | issues => exact .inl rfl

/-- A released block has nothing to do but wait (R351). -/
theorem BlockMoves.eq_of_released {s t : State} (h : BlockMoves s t) (hp : s.phase = .released) : t = s := by
  cases h with
  | waits => rfl
  | accepts _ _ _ hp' | releases _ _ hp' | applies _ _ _ hp' | issues _ _ _ hp' | fails _ _ _ hp'
  | raises _ _ _ _ _ _ hp' | continues _ _ _ _ _ _ _ hp' | finishes _ _ _ _ _ _ hp' => rw [hp] at hp'; cases hp'

/-! ### The phase -/

/-- From an ISSUE or a WAIT of a running operation's schedule to the next phase (R24, R25). -/
def RunningPhaseMove (op : Op) (p q : Phase) : Prop :=
  ∃ k, k < (schedule op).length ∧
    ((p = .run k .issue ∧ q = .run k .wait) ∨
     (p = .run k .wait ∧ (q = .idle ∨ (k + 1 < (schedule op).length ∧ q = .run (k + 1) .issue))))

theorem BlockMoves.phase {s t : State} (h : BlockMoves s t) (hi : inv s = true) :
    t.phase = s.phase ∨ (s.phase = .idle ∧ (t.phase = .run 0 .issue ∨ t.phase = .released)) ∨
      ∃ op, s.reqOp = some op ∧ RunningPhaseMove op s.phase t.phase := by
  have running : ∀ {k sub}, s.phase = .run k sub → ∃ op, s.reqOp = some op ∧ k < (schedule op).length := by
    intro k sub hp
    obtain ⟨-, op, hr⟩ := running_of_inv_run hi hp
    exact ⟨op, hr.reqOp, hr.lt⟩
  cases h with
  | waits | applies => exact .inl rfl
  | accepts r rest op hp => exact .inr (.inl ⟨hp, .inl rfl⟩)
  | releases r rest hp => exact .inr (.inl ⟨hp, .inr rfl⟩)
  | issues k pos w hp =>
    obtain ⟨op, hop, hk⟩ := running hp
    exact .inr (.inr ⟨op, hop, k, hk, .inl ⟨hp, rfl⟩⟩)
  | continues k b0 b1 rest op e p hp ha hop he hk =>
    exact .inr (.inr ⟨op, hop, k, schedule_lt he, .inr ⟨hp, .inr ⟨hk, continued_phase ..⟩⟩⟩)
  | fails k e rest hp | raises k b0 b1 rest e d hp | finishes k b0 b1 rest op v hp =>
    obtain ⟨op, hop, hk⟩ := running hp
    exact .inr (.inr ⟨op, hop, k, hk, .inr ⟨hp, .inl rfl⟩⟩)

/-! ### The trace -/

/-- Recording an outcome in WAIT gives it to the newest transaction (R26, R180). -/
theorem recordAnswer_of_inv {s : State} {k : Nat} (hi : inv s = true) (hp : s.phase = .run k .wait) (a : Answer) :
    ∃ u us, s.trace = u :: us ∧ u.answer = none ∧ recordAnswer a s.trace = { u with answer := some a } :: us := by
  obtain ⟨-, -, u, us, htr, hu, -⟩ := (inv_wait hp).mp hi
  exact ⟨u, us, htr, hu, by rw [htr]; rfl⟩

/-- A move starts a transaction at an ISSUE with none outstanding, records the outcome of the newest at a WAIT, or
leaves the trace (R26, R78). -/
theorem BlockMoves.trace {s t : State} (h : BlockMoves s t) (hi : inv s = true) :
    t.trace = s.trace ∨
    (∃ k b0 b1, s.phase = .run k .issue ∧ t.phase = .run k .wait ∧ t.trace = ⟨b0, b1, none⟩ :: s.trace ∧
      ∀ u ∈ s.trace, u.answer ≠ none) ∨
    (∃ k a u us, s.phase = .run k .wait ∧ s.trace = u :: us ∧ u.answer = none ∧
      t.trace = { u with answer := some a } :: us) := by
  have records : ∀ {k} a, s.phase = .run k .wait → t.trace = recordAnswer a s.trace → ∃ k a u us,
      s.phase = .run k .wait ∧ s.trace = u :: us ∧ u.answer = none ∧ t.trace = { u with answer := some a } :: us := by
    intro k a hp ht
    obtain ⟨u, us, htr, hu, hrec⟩ := recordAnswer_of_inv hi hp a
    exact ⟨k, a, u, us, hp, htr, hu, ht.trans hrec⟩
  cases h with
  | waits | accepts | releases | applies => exact .inl rfl
  | issues k pos w hp =>
    obtain ⟨-, -, hset⟩ := (inv_issue hp).mp hi
    exact .inr (.inl ⟨k, _, _, hp, rfl, rfl, fun u hu => Option.isSome_iff_ne_none.mp (hset u hu)⟩)
  | fails k e rest hp => exact .inr (.inr (records _ hp rfl))
  | raises k b0 b1 rest e d hp | finishes k b0 b1 rest op v hp => exact .inr (.inr (records _ hp rfl))
  | continues k b0 b1 rest op e p hp => exact .inr (.inr (records _ hp (continued_trace ..)))

end Sys2Proof.Machine

namespace Sys2Proof.Proofs

open Sys2Proof Sys2Proof.Machine

/-- Settles O47: the block's step by its phase, the host's evaluations by what they read. -/
theorem noStepFaults : Obligations.NoStepFaults := by
  unfold Obligations.NoStepFaults
  exact fun s f => step_ne_fault

/-- Settles O20: an instruction of a combinational port that answers puts its value there. -/
theorem combinationalFunctionsChangeNothing : Obligations.CombinationalFunctionsChangeNothing := by
  unfold Obligations.CombinationalFunctionsChangeNothing
  intro i s t port w side he h
  obtain hnext | href := exec_of_encode_comb he
  · obtain ⟨v, hv⟩ := hnext s
    cases hv.symm.trans h
    exact ⟨v, rfl⟩
  · cases (href s).symm.trans h

/-- Settles O46: by the moves of a step, the schedule's bound by the invariant. -/
theorem phaseMovesForward : Obligations.PhaseMovesForward := by
  unfold Obligations.PhaseMovesForward
  intro s t hi h
  cases step_moves h with
  | evaluates => exact .inl rfl
  | block _ _ hm =>
    obtain hsame | hidle | ⟨op, hop, k, hk, hmove⟩ := hm.phase hi
    · exact .inl hsame
    · exact .inr (.inl hidle)
    · exact .inr (.inr ⟨k, op, hop, hk, hmove⟩)

/-- Settles O48: a released block only waits, and without ownership every request is refused. -/
theorem releasedIsFinal : Obligations.ReleasedIsFinal := by
  unfold Obligations.ReleasedIsFinal
  intro s hp hi
  obtain ⟨howned, -, -⟩ := (inv_released hp).mp hi
  refine ⟨fun t h => ?_, fun r rest ht hr => ?_⟩
  · cases step_moves h with
    | evaluates => exact ⟨hp, howned, rfl, rfl⟩
    | block _ _ hm =>
      obtain rfl := hm.eq_of_released hp
      exact ⟨hp, howned, rfl, rfl⟩
  · obtain ⟨w, fn, he⟩ := encode_decodeRequest r.word r.fn
    rw [step_request ht (.inr hp) hr]
    exact exec_request_refused he howned

/-- Settles O49: by the moves of a step; that none is outstanding at ISSUE, and the newest at WAIT, is the invariant. -/
theorem oneTransactionAtATime : Obligations.OneTransactionAtATime := by
  unfold Obligations.OneTransactionAtATime
  intro s t hi h
  cases step_moves h with
  | evaluates => exact .inl rfl
  | block _ _ hm => exact hm.trace (s := popTurn s) hi

/-- Settles O50: by the moves of a step; each that delivers a result clears the working registers. -/
theorem resultEndsTheOperation : Obligations.ResultEndsTheOperation := by
  unfold Obligations.ResultEndsTheOperation
  intro s t h
  cases step_moves h with
  | evaluates => exact .inl rfl
  | block _ _ hm => exact hm.results (s := popTurn s)

/-- Settles O51: in the host's turn a step has the one move of an evaluation. -/
theorem evaluationLeavesTheBlock : Obligations.EvaluationLeavesTheBlock := by
  unfold Obligations.EvaluationLeavesTheBlock
  intro s t port w side rest ht h
  cases step_moves h with
  | evaluates port' w' side' rest' v ht' =>
    cases ht.symm.trans ht'
    exact ⟨v, rfl⟩
  | block _ ht' _ =>
    obtain hnil | ⟨rest', hblock⟩ := ht'
    · cases ht.symm.trans hnil
    · cases ht.symm.trans hblock

/-- Settles O45: by the moves of a step. -/
theorem configurationIsFixed : Obligations.ConfigurationIsFixed := by
  unfold Obligations.ConfigurationIsFixed
  intro s t h
  cases step_moves h with
  | evaluates => rfl
  | block _ _ hm => exact hm.cfg

end Sys2Proof.Proofs
end

section
/-! PROOF. A running operation ends (spec 10_state R25, 20_memory R81): each of its steps lowers a bound on the steps
left, as long as the transport answers. -/

namespace Sys2Proof.Machine

/-- How many entries name a function to evaluate (D19). -/
def evaluations (es : List Entry) : Nat := es.countP fun e => e.evaluates.isSome

/-- A bound on the steps left to a running operation: two a transaction, of which WAIT has one behind it, and one for
each function still to evaluate (R25, R81). -/
def stepsLeft (s : State) (op : Op) (k : Nat) : Sub → Nat
  | .issue => 2 * ((schedule op).length - k) + evaluations ((schedule op).drop (k + 1)) + (dueFn s k).isSome.toNat
  | .wait => 2 * ((schedule op).length - k) + evaluations ((schedule op).drop (k + 1)) - 1

/-- No schedule evaluates more than two functions (R182). -/
theorem evaluations_schedule (op : Op) : evaluations (schedule op) ≤ 2 := by cases op <;> decide

section
variable {s : State} {op : Op} {k : Nat}

theorem evaluations_drop {e : Entry} (he : (schedule op)[k]? = some e) :
    evaluations ((schedule op).drop k) = evaluations ((schedule op).drop (k + 1)) + e.evaluates.isSome.toNat := by
  obtain ⟨hk, rfl⟩ := List.getElem?_eq_some_iff.mp he
  rw [List.drop_eq_getElem_cons hk, evaluations, List.countP_cons]
  cases ((schedule op)[k]).evaluates <;> rfl

/-- A function is due at an entry only where the entry names one. -/
theorem due_le_evaluates {e : Entry} (hop : s.reqOp = some op) (he : (schedule op)[k]? = some e) :
    (dueFn s k).isSome.toNat ≤ e.evaluates.isSome.toNat := by
  cases hd : dueFn s k with
  | none => exact Nat.zero_le _
  | some g =>
    obtain ⟨e', hentry, hev, -⟩ := dueFn_eq_some.mp hd
    obtain rfl := Except.ok.inj ((currentEntry_eq hop he).symm.trans hentry)
    rw [hev]

theorem stepsLeft_issue_le {e : Entry} (hop : s.reqOp = some op) (he : (schedule op)[k]? = some e) :
    stepsLeft s op k .issue ≤ 2 * ((schedule op).length - k) + evaluations ((schedule op).drop k) := by
  have hdue := due_le_evaluates hop he
  rw [evaluations_drop he, stepsLeft]
  omega

theorem stepsLeft_le (sub : Sub) (hop : s.reqOp = some op) (hk : k < (schedule op).length) :
    stepsLeft s op k sub ≤ 2 * ((schedule op).length - k) + 2 := by
  have he := List.getElem?_eq_getElem hk
  have hdrop : evaluations ((schedule op).drop k) ≤ 2 :=
    ((List.drop_sublist k _).countP_le).trans (evaluations_schedule op)
  cases sub with
  | issue => exact (stepsLeft_issue_le hop he).trans (by omega)
  | wait =>
    rw [evaluations_drop he] at hdrop
    rw [stepsLeft]
    omega

end

/-! ### One step -/

/-- `s` runs entry `k` of `op`, with an outcome to come for each transaction that is left and `R` delivered so far. -/
structure Answered (R : List Result) (op : Op) (k : Nat) (sub : Sub) (s : State) : Prop where
  inv     : Machine.inv s = true
  turns   : s.turns = []
  phase   : s.phase = .run k sub
  reqOp   : s.reqOp = some op
  answers : (schedule op).length - k ≤ s.answers.length
  results : s.results = R

/-- The operation begun with `R` delivered is over: one result more, and the block at IDLE with nothing latched. -/
def Over (R : List Result) (t : State) : Prop :=
  t.phase = .idle ∧ t.owned = true ∧ (∃ r, t.results = r :: R) ∧ workingEmpty t = true

theorem Answered.lt {R : List Result} {op : Op} {k : Nat} {sub : Sub} {s : State} (h : Answered R op k sub s) :
    k < (schedule op).length := by
  obtain ⟨-, op', hr⟩ := running_of_inv_run h.inv h.phase
  obtain rfl := Option.some.inj (h.reqOp.symm.trans hr.reqOp)
  exact hr.lt

theorem Answered.stepsLeft_pos {R : List Result} {op : Op} {k : Nat} {sub : Sub} {s : State}
    (h : Answered R op k sub s) : 0 < stepsLeft s op k sub := by
  have hlt := h.lt
  cases sub <;> rw [stepsLeft] <;> omega

/-- A move of an answered operation ends it or lowers the bound on the steps left. -/
theorem Answered.move {R : List Result} {op : Op} {k : Nat} {sub : Sub} {s t : State} (h : Answered R op k sub s)
    (hm : BlockMoves s t) :
    Over R t ∨ ∃ k' sub', Answered R op k' sub' t ∧ stepsLeft t op k' sub' < stepsLeft s op k sub := by
  have hlt := h.lt
  obtain ⟨hi, ht, hp, hop, hans, rfl⟩ := h
  have hi' := hm.keeps_inv hi
  have howned := (running_of_inv_run hi hp).1
  cases hm with
  | waits hw =>
    obtain ⟨k', -, hnil⟩ | ⟨hrest, -⟩ := hw
    · rw [hnil, List.length_nil] at hans
      omega
    · rcases hrest with hrest | hrest <;> cases hp.symm.trans hrest
  | accepts _ _ _ hp' => cases hp.symm.trans hp'
  | releases _ _ hp' => cases hp.symm.trans hp'
  | applies k' g u hp' hd hu =>
    cases hp.symm.trans hp'
    refine .inr ⟨k, .issue, ⟨hi', ht, hp, hop, hans, rfl⟩, ?_⟩
    rw [stepsLeft, stepsLeft, hd, dueFn_of_isSome rfl]
    exact Nat.lt_succ_self _
  | issues k' pos w hp' hd hf =>
    cases hp.symm.trans hp'
    refine .inr ⟨k, .wait, ⟨hi', ht, rfl, hop, hans, rfl⟩, ?_⟩
    rw [stepsLeft, stepsLeft]
    omega
  | fails | raises | finishes => exact .inl ⟨rfl, howned, ⟨_, rfl⟩, rfl⟩
  | continues k' b0 b1 rest op' e p hp' ha hop' he hk =>
    cases hp.symm.trans hp'
    cases hop.symm.trans hop'
    rw [ha, List.length_cons] at hans
    have hop1 : (continued s k e p b0 b1 rest).reqOp = some op := (continued_reqOp ..).trans hop
    refine .inr ⟨k + 1, .issue, ⟨hi', (continued_turns ..).trans ht, continued_phase .., hop1,
      by rw [continued_answers]; omega, continued_results ..⟩, ?_⟩
    refine (stepsLeft_issue_le hop1 (List.getElem?_eq_getElem hk)).trans_lt ?_
    rw [stepsLeft]
    omega

theorem Answered.step {R : List Result} {op : Op} {k : Nat} {sub : Sub} {s : State} (h : Answered R op k sub s) :
    ∃ t, step s = .next t ∧
      (Over R t ∨ ∃ k' sub', Answered R op k' sub' t ∧ stepsLeft t op k' sub' < stepsLeft s op k sub) := by
  obtain ⟨t, hb⟩ := blockStep_running_ok h.inv h.phase
  exact ⟨t, (step_block h.turns).trans hb, h.move (blockStep_moves hb)⟩

/-- So the operation is over after as many steps as the bound says, by induction on the bound. -/
theorem Answered.ends {R : List Result} {op : Op} (m : Nat) {k : Nat} {sub : Sub} {s : State}
    (h : Answered R op k sub s) (hm : stepsLeft s op k sub ≤ m) : ∃ n ≤ m, ∃ t, run n s = .next t ∧ Over R t := by
  induction m generalizing k sub s with
  | zero => exact absurd h.stepsLeft_pos (Nat.not_lt.mpr hm)
  | succ m ih =>
    obtain ⟨t, hstep, hover | ⟨k', sub', ht, hless⟩⟩ := h.step
    · exact ⟨1, by omega, t, run_succ hstep, hover⟩
    · obtain ⟨n, hn, u, hrun, hover⟩ := ih ht (by omega)
      exact ⟨n + 1, by omega, u, (run_succ hstep).trans hrun, hover⟩

end Sys2Proof.Machine

namespace Sys2Proof.Proofs

open Sys2Proof Sys2Proof.Machine

/-- Settles O41: by induction on a bound on the steps left. -/
theorem everyAnsweredOperationEnds : Obligations.EveryAnsweredOperationEnds := by
  unfold Obligations.EveryAnsweredOperationEnds
  intro s k sub op hi ht hp hop hans
  have h : Answered s.results op k sub s := ⟨hi, ht, hp, hop, hans, rfl⟩
  obtain ⟨n, hn, t, hrun, hphase, howned, ⟨r, hres⟩, hw⟩ := h.ends _ (stepsLeft_le sub hop h.lt)
  exact ⟨n, hn, t, r, hrun, hphase, howned, hres, hw⟩

end Sys2Proof.Proofs
end

section
/-! PROOF. Parity of frames (spec 40_parity_codec R143, 41_response_validator R162): what a flipped bit does to it, that
every frame the block builds is even, and that a frame's lower fields and its parity fix it. -/

namespace Sys2Proof.Machine

/-! ### Flipped bits -/

/-- The word with bit `i` alone set. -/
theorem oneBit_bit {i : Nat} (hi : i < 16) (j : Nat) : (1#16 <<< i).getLsbD j = decide (i = j) :=
  (BitVec.getLsbD_twoPow i j).trans (by rw [decide_eq_true hi, Bool.true_and])

/-- Flipping bit `i` changes the count of ones by one, in one direction or the other, where bit `i` is counted. -/
theorem ones_flip (f : Word) {i : Nat} (hi : i < 16) (n : Nat) :
    ones n (f ^^^ (1#16 <<< i)) % 2 = (ones n f + (decide (i < n)).toNat) % 2 := by
  induction n with
  | zero => rfl
  | succ n ih =>
    rw [ones_succ, ones_succ, BitVec.getLsbD_xor, oneBit_bit hi]
    by_cases h : i = n
    · subst h
      have hbit : (f.getLsbD i ^^ true).toNat + (f.getLsbD i).toNat = 1 := by cases f.getLsbD i <;> rfl
      simp only [Nat.lt_irrefl, Nat.lt_succ_self, decide_true, decide_false, Bool.toNat_true, Bool.toNat_false] at ih ⊢
      omega
    · have hlt : i < n + 1 ↔ i < n := by omega
      simp only [h, decide_false, Bool.xor_false, hlt]
      omega

/-- One flipped bit turns the check of a frame around (R143). -/
theorem parVerify_flip (f : Word) {i : Nat} (hi : i < 16) : parVerify (f ^^^ (1#16 <<< i)) = !parVerify f := by
  have h := ones_flip f hi 16
  rw [decide_eq_true hi] at h
  rw [parVerify_eq_ones, parVerify_eq_ones, ← decide_not]
  refine decide_eq_decide.mpr ?_
  simp only [Bool.toNat_true] at h
  omega

/-! ### Even frames -/

/-- A frame passes exactly when bit 15 is the parity of the bits below (R143). -/
theorem parVerify_iff (f : Word) : parVerify f = true ↔ f.getLsbD 15 = parCompute f := by
  rw [parVerify_eq_ones, parCompute_eq_ones, ones_succ]
  cases f.getLsbD 15
  · simp
  · simp; omega

theorem parVerify_mkCmd (a : Addr) (rd : Bool) : parVerify (mkCmd a rd) = true :=
  (parVerify_iff _).mpr (mkCmd_15 a rd)

theorem parVerify_mkData (d : Word) : parVerify (mkData d) = true := (parVerify_iff _).mpr (mkData_15 d)

/-- Whatever the schedule sends has an even count of ones (R105, R147). -/
theorem parVerify_scheduledFrame {s : State} {k : Nat} {pos : FramePos} {w : Word}
    (h : scheduledFrame s k = .ok (pos, w)) : parVerify w = true := by
  obtain ⟨-, a, rd, rfl⟩ | ⟨-, d, rfl⟩ | ⟨-, rfl⟩ := scheduledFrame_shape h
  · exact parVerify_mkCmd a rd
  · exact parVerify_mkData d
  · rfl

/-- An outcome does not touch the frames sent. -/
theorem evenTrace_recordAnswer {s t : State} (a : Answer) (ht : t.trace = recordAnswer a s.trace)
    (h : evenTrace s = true) : evenTrace t = true := by
  unfold evenTrace at h ⊢
  rw [ht]
  cases htr : s.trace with
  | nil => rfl
  | cons u us => rw [htr] at h; exact h

/-- A move sends at most one frame more, and that is a scheduled one. -/
theorem BlockMoves.evenTrace {s t : State} (hm : BlockMoves s t) (h : evenTrace s = true) :
    Machine.evenTrace t = true := by
  cases hm with
  | waits | accepts | releases | applies => exact h
  | issues k pos w hp hd hf =>
    have hw : parVerify (ofWire (toWire w).1 (toWire w).2) = true := by
      rw [ofWire_toWire]
      exact parVerify_scheduledFrame hf
    exact Bool.and_eq_true_iff.mpr ⟨hw, h⟩
  | fails | raises | finishes => exact evenTrace_recordAnswer _ rfl h
  | continues => exact evenTrace_recordAnswer _ (continued_trace ..) h

/-! ### One frame for a verdict -/

/-- Even frames with the same bit 14 and the same payload are the same (R162). -/
theorem eq_of_parVerify {f g : Word} (hf : parVerify f = true) (hg : parVerify g = true)
    (h14 : f.getLsbD 14 = g.getLsbD 14) (hd : payloadOf f = payloadOf g) : f = g := by
  have hlow : ∀ i, i < 15 → f.getLsbD i = g.getLsbD i := by
    intro i hi
    by_cases h : i < 14
    · rw [← payloadOf_bit h, hd, payloadOf_bit h]
    · obtain rfl : i = 14 := by omega
      exact h14
  have h15 : f.getLsbD 15 = g.getLsbD 15 := by
    rw [(parVerify_iff f).mp hf, (parVerify_iff g).mp hg, parCompute, parCompute, popcount15_congr hlow]
  rw [← packFrame_fields f, ← packFrame_fields g, h15, h14, hd]

theorem respValidate_eq_good {f : Word} {d : Payload} :
    respValidate f = .good d ↔ parVerify f = true ∧ f.getLsbD 14 = false ∧ payloadOf f = d := by
  unfold respValidate errorFlag
  cases parVerify f <;> cases f.getLsbD 14 <;> simp

theorem respValidate_eq_sensorFlag {f : Word} :
    respValidate f = .sensorFlag ↔ parVerify f = true ∧ f.getLsbD 14 = true := by
  unfold respValidate errorFlag
  cases parVerify f <;> cases f.getLsbD 14 <;> simp

theorem payloadOf_mkData (d : Payload) : payloadOf (mkData (d.setWidth 16)) = d := by
  apply BitVec.eq_of_getLsbD_eq
  intro i hi
  rw [payloadOf_bit hi, mkData_bit (by omega), BitVec.getLsbD_setWidth]
  simp [hi, show i < 16 by omega]

/-- MKDATA of a payload is the one frame validated to it (R162). -/
theorem respValidate_eq_good_iff (f : Word) (d : Payload) :
    respValidate f = .good d ↔ f = mkData (d.setWidth 16) := by
  rw [respValidate_eq_good]
  constructor
  · rintro ⟨hpar, h14, hd⟩
    exact eq_of_parVerify hpar (parVerify_mkData _) (h14.trans (mkData_14 _).symm) (hd.trans (payloadOf_mkData d).symm)
  · rintro rfl
    exact ⟨parVerify_mkData _, mkData_14 _, payloadOf_mkData d⟩

/-- Flipping bits 15 and 14 of a frame keeps its parity and its payload (R143, R162). -/
theorem flipTop_fields (f : Word) : parVerify (f ^^^ 0xC000#16) = parVerify f ∧
    (f ^^^ 0xC000#16).getLsbD 14 = !f.getLsbD 14 ∧ payloadOf (f ^^^ 0xC000#16) = payloadOf f := by
  have hc : f ^^^ 0xC000#16 = f ^^^ (1#16 <<< 14) ^^^ (1#16 <<< 15) := by
    rw [BitVec.xor_assoc]
    rfl
  refine ⟨?_, ?_, ?_⟩
  · rw [hc, parVerify_flip _ (by decide), parVerify_flip _ (by decide), Bool.not_not]
  · rw [BitVec.getLsbD_xor]
    exact Bool.xor_true _
  · apply BitVec.eq_of_getLsbD_eq
    intro i hi
    have hbit : (0xC000#16).getLsbD i = false := by
      rw [show 0xC000#16 = 1#16 <<< 14 ^^^ 1#16 <<< 15 from rfl, BitVec.getLsbD_xor, oneBit_bit (by decide),
        oneBit_bit (by decide)]
      simp [show 14 ≠ i by omega, show 15 ≠ i by omega]
    rw [payloadOf_bit hi, payloadOf_bit hi, BitVec.getLsbD_xor, hbit, Bool.xor_false]

end Sys2Proof.Machine

namespace Sys2Proof.Proofs

open Sys2Proof Sys2Proof.Machine

/-- Settles O5: by the moves of a step; the frame one of them sends is even by how it is built. -/
theorem everyStepSendsEvenFrames : Obligations.EveryStepSendsEvenFrames := by
  unfold Obligations.EveryStepSendsEvenFrames
  intro s t hs h
  cases step_moves h with
  | evaluates => exact hs
  | block _ _ hm => exact hm.evenTrace hs

/-- Settles O4: the check as a test of bit 15, and one flipped bit after the other. -/
theorem parityLawJoinsComputeAndVerify : Obligations.ParityLawJoinsComputeAndVerify := by
  unfold Obligations.ParityLawJoinsComputeAndVerify
  refine ⟨parVerify_iff, fun f i hi hf => ?_, fun f i j hi hj _ hf => ?_⟩
  · rw [parVerify_flip f hi, hf]
    rfl
  · rw [parVerify_flip _ hj, parVerify_flip f hi, hf]
    rfl

/-- Settles O8: parity and the lower fields fix a frame, and bits 15 and 14 flipped together turn the one verdict into
the other. -/
theorem eachVerdictHasItsFrame : Obligations.EachVerdictHasItsFrame := by
  unfold Obligations.EachVerdictHasItsFrame
  intro f d
  refine ⟨respValidate_eq_good_iff f d, ?_⟩
  obtain ⟨hpar, h14, hd⟩ := flipTop_fields f
  calc respValidate f = .sensorFlag ∧ payloadOf f = d
    _ ↔ respValidate (f ^^^ 0xC000#16) = .good d := by
      rw [respValidate_eq_sensorFlag, respValidate_eq_good, hpar, h14, hd, Bool.not_eq_false', and_assoc]
    _ ↔ f ^^^ 0xC000#16 = mkData (d.setWidth 16) := respValidate_eq_good_iff _ d
    _ ↔ f = mkData (d.setWidth 16) ^^^ 0xC000#16 := xor_eq_iff_left_eq _ _ _

end Sys2Proof.Proofs
end

section
/-! PROOF. The degree conversion and the illegal field positions (spec 43_bitfield_decoder R220, R245), and the
functions that a MODIFY can be given (30_encoding R106, R354). -/

namespace Sys2Proof.Machine

/-- DEG.CONV as division of numbers: 16 bits hold every quotient (R245). -/
theorem degConv_toNat (m : AngleMax) (a : Word) : (degConv m a).toNat = a.toNat * 360 / angleMaxNat m := by
  have ha := a.isLt
  rw [degConv_eq, BitVec.toNat_ofNat, Nat.mod_eq_of_lt]
  cases m <;> simp only [angleMaxNat] <;> omega

/-- All words. -/
def allWords : List Word := (List.finRange (2 ^ 16)).map BitVec.ofFin

theorem mem_allWords (x : Word) : x ∈ allWords := List.mem_map.mpr ⟨x.toFin, List.mem_finRange _, rfl⟩

/-- A table of a function's values gives each argument its value. -/
theorem find_values {xs : List Word} (f : Word → Word) {x : Word} (hx : x ∈ xs) :
    (xs.map fun y => (y, f y)).find? (fun r => r.1 = x) = some (x, f x) := by
  cases h : (xs.map fun y => (y, f y)).find? (fun r => r.1 = x) with
  | none => exact absurd (decide_eq_true rfl) (List.find?_eq_none.mp h (x, f x) (List.mem_map_of_mem hx))
  | some r =>
    obtain ⟨y, -, rfl⟩ := List.mem_map.mp (List.mem_of_find?_eq_some h)
    have hyx := List.find?_some h
    obtain rfl : y = x := of_decide_eq_true hyx
    rfl

theorem evalFn_values {xs : List Word} (f : Word → Word) {x : Word} (hx : x ∈ xs) :
    evalFn (.table (xs.map fun y => (y, f y)) .arg) x = f x := by
  rw [evalFn, find_values f hx]

end Sys2Proof.Machine

namespace Sys2Proof.Proofs

open Sys2Proof Sys2Proof.Machine

/-- Settles O19: the quotient of numbers, and linear arithmetic over the two divisors. -/
theorem degreeConversionIsFloor : Obligations.DegreeConversionIsFloor := by
  unfold Obligations.DegreeConversionIsFloor
  refine ⟨fun s a => ⟨degConv s.cfg.angleMax a, rfl, ?_⟩, fun a ha => ?_⟩
  · rw [degConv_toNat]
    cases s.cfg.angleMax <;> rfl
  · rw [degConv_toNat, degConv_toNat, ← BitVec.toNat_inj]
    simp only [angleMaxNat, BitVec.toNat_ofNat]
    omega

/-- Settles O11: the position is tested before the function. -/
theorem illegalFieldPositionRefused : Obligations.IllegalFieldPositionRefused := by
  unfold Obligations.IllegalFieldPositionRefused
  exact fun s v hi lo x h => ⟨if_neg (not_le_of_gt h), if_neg (not_le_of_gt h)⟩

/-- Settles O59: the table of all values. -/
theorem everyFunctionIsAnOperand : Obligations.EveryFunctionIsAnOperand := by
  unfold Obligations.EveryFunctionIsAnOperand
  exact fun f => ⟨.table (allWords.map fun y => (y, f y)) .arg, fun x => evalFn_values f (mem_allWords x)⟩

end Sys2Proof.Proofs
end

section
/-! PROOF. The decoder reads back what the encoder writes (spec 30_encoding R100 to R107, R116). -/

namespace Sys2Proof

/-! ### Request words -/

section
variable (op : BitVec 4) (a : Addr) (d : Word)

theorem requestOp_packRequest : requestOp (packRequest op a d) = op.toNat := by
  have h : packRequest op a d = op ++ (a ++ d) := by rw [packRequest, BitVec.append_assoc]; rfl
  rw [requestOp, h]
  exact congrArg BitVec.toNat BitVec.extractLsb'_append_eq_left

theorem requestAddr_packRequest : requestAddr (packRequest op a d) = a := by
  rw [requestAddr, packRequest, BitVec.extractLsb'_append_eq_of_le (by decide)]
  exact BitVec.extractLsb'_append_eq_right

theorem requestData_packRequest : requestData (packRequest op a d) = d := BitVec.extractLsb'_append_eq_right

end

/-! ### Operands of combinational functions -/

theorem bitWord_0 (b : Bool) : (bitWord b).getLsbD 0 = b := by cases b <;> rfl

theorem indexWord_toNat (i : Fin 16) : (indexWord i).toNat = i.val := by
  rw [indexWord, BitVec.toNat_ofNat]
  exact Nat.mod_eq_of_lt (by omega)

theorem decodePosition_indexWord {hi lo : Fin 16} (h : lo ≤ hi) :
    decodePosition (indexWord hi) (indexWord lo) = .ok (hi, lo) := by
  have hle : lo.val ≤ hi.val := h
  simp [decodePosition, indexWord_toNat, hle]

/-! ### Sent frames -/

section
open Machine

theorem decode_command (p rd : Bool) (a : Addr) : decode (.sent .command (packFrame p rd a)) =
    .ok (if rd then .cmdRd p a else .cmdWr p a) := by
  rw [decode, decodeSent, packFrame_14, packFrame_15, payloadOf_packFrame]

theorem decode_data (p : Bool) (d : Payload) : decode (.sent .data (packFrame p false d)) = .ok (.data p d) := by
  rw [decode, decodeSent, packFrame_14, packFrame_15, payloadOf_packFrame]
  rfl

theorem decode_received (p ef : Bool) (d : Payload) : decode (.received (packFrame p ef d)) = .ok (.resp p ef d) := by
  rw [decode, packFrame_14, packFrame_15, payloadOf_packFrame]

end

end Sys2Proof

namespace Sys2Proof.Proofs

open Sys2Proof Sys2Proof.Machine

/-- Settles O56: the fields of a frame, of a request word and of a port's inputs are read where they are written. -/
theorem decodeEncodeRoundTrip : Obligations.DecodeEncodeRoundTrip := by
  unfold Obligations.DecodeEncodeRoundTrip
  intro i hwf
  cases i with
  | cmdRd p a => exact decode_command p true a
  | cmdWr p a => exact decode_command p false a
  | data p d => exact decode_data p d
  | resp p ef d => exact decode_received p ef d
  | read | write | modify | zposSet =>
    simp only [encode, encodeRequest, decode, decodeRequest, requestOp_packRequest, requestAddr_packRequest,
      requestData_packRequest]
    rfl
  | mkCmd a rd =>
    have ha : (a.setWidth 16).extractLsb' 0 14 = a := lowBits_setWidth (by decide) a
    simp only [encode, decode, decodeComb, oneSide, ha, bitWord_0]
  | zposlEn7Set v x | zposlEn6Set v x => simp only [encode, decode, decodeComb, oneSide, bitWord_0]
  | fldGet v hi lo =>
    simp only [encode, decode, decodeComb, fldGetSide, decodePosition_indexWord (of_decide_eq_true hwf)]
  | fldSet v hi lo x =>
    simp only [encode, decode, decodeComb, fldSetSide, decodePosition_indexWord (of_decide_eq_true hwf)]
  | _ => rfl

/-- Settles O57: each word by evaluation of the decoder. -/
theorem specWordsDecode : Obligations.SpecWordsDecode := by
  unfold Obligations.SpecWordsDecode
  exact ⟨rfl, rfl, rfl, rfl, rfl, rfl, rfl, rfl, rfl, rfl, rfl⟩

end Sys2Proof.Proofs
end

section
/-! PROOF. Requests (spec 30_encoding R118, 42_frame_sequencer R183): accepted whole, refused for a register `REGMAP`
lacks, and left on their port while an operation runs. -/

namespace Sys2Proof.Machine

/-- A request handed over while an operation runs changes nothing (R353, log 17). -/
theorem whenIdle_run {s : State} {k : Nat} {sub : Sub} {a : Out} (ho : s.owned = true) (hp : s.phase = .run k sub) :
    whenIdle s a = .next s := by
  simp [whenIdle, ho, hp]

/-- The same for every request that is not reserved. -/
theorem exec_request_run {s : State} {i : Instr} {w : BitVec 34} {fn : Fn} {k : Nat} {sub : Sub}
    (he : encode i = .request w fn) (hop : requestOp w ≤ 0xA) (ho : s.owned = true) (hp : s.phase = .run k sub) :
    exec i s = .next s := by
  cases i with
  | read | write | modify => exact whenIdle_run ho hp
  | angle | angleDeg | magnitude | diag | clrerr | zposGet | zposSet => exact whenIdle_run ho hp
  | release => exact whenIdle_run ho hp
  | reservedB | reservedC | reservedD | reservedE | reservedF => cases he; exact absurd hop (by decide)
  | _ => cases he

/-- A sensor operation that needs one register is refused without it (R118 (d), log 23). -/
theorem lacks_register {s : State} {op : Op} {d : Option Word} {r : Register} (hp : s.phase = .idle)
    (ho : s.owned = true) (hn : neededRegisters s.cfg op = [r]) (h : addrOf s.cfg r = none) :
    whenIdle s (acceptSensor op d s) = .refused (.lacksRegister r) :=
  (whenIdle_idle ho hp).trans (acceptSensor_refused hn h)

/-- REQ.op of an accepted request is the operation of its `op` code (R107, R183). -/
theorem opCode_of_accepted {s t : State} {w : BitVec 34} {fn : Fn} {op : Op} (hp : s.phase = .idle)
    (h : exec (decodeRequest w fn) s = .next t) (ht : t.phase = .run 0 .issue) (hop : t.reqOp = some op) :
    opCode op = w.extractLsb' 30 4 := by
  have idle : ∀ {a : Out}, whenIdle s a = .next t → a = .next t := by
    intro a h
    obtain ⟨-, ⟨-, ha⟩ | ⟨k, sub, hrun, -⟩⟩ := whenIdle_next h
    · exact ha
    · cases hp.symm.trans hrun
  have code : ∀ {o : Op}, t.reqOp = some o → requestOp w = (opCode o).toNat → opCode op = w.extractLsb' 30 4 := by
    intro o ho hw
    obtain rfl := Option.some.inj (ho.symm.trans hop)
    exact BitVec.eq_of_toNat_eq hw.symm
  have at' : ∀ {o : Op} {a : Addr} {d : Option Word} {f : Option Fn}, whenIdle s (acceptAt o a d f s) = .next t →
      requestOp w = (opCode o).toNat → opCode op = w.extractLsb' 30 4 := by
    intro o a d f h
    obtain ⟨r, -, rfl⟩ := acceptAt_next (idle h)
    exact code rfl
  have sensor : ∀ {o : Op} {d : Option Word}, whenIdle s (acceptSensor o d s) = .next t →
      requestOp w = (opCode o).toNat → opCode op = w.extractLsb' 30 4 := by
    intro o d h
    obtain ⟨-, rfl⟩ := acceptSensor_next (idle h)
    exact code rfl
  unfold decodeRequest at h
  split at h
  · next hw => exact at' (o := .read) h hw
  · next hw => exact at' (o := .write) h hw
  · next hw => exact at' (o := .modify) h hw
  · next hw => exact sensor (o := .angle) h hw
  · next hw => exact sensor (o := .angleDeg) h hw
  · next hw => exact sensor (o := .magnitude) h hw
  · next hw => exact sensor (o := .diag) h hw
  · next hw => exact sensor (o := .clrerr) h hw
  · next hw => exact sensor (o := .zposGet) h hw
  · next hw => exact sensor (o := .zposSet) h hw
  · obtain ⟨r, -, rfl⟩ := endOperation_next (idle h)
    cases ht
  all_goals cases h

/-- A step that accepts has latched the request at the head of the port, field by field (R82, R183, D15). -/
theorem step_accepts {s t : State} {r : Request} {rest : List Request} (hturns : s.turns = []) (hp : s.phase = .idle)
    (hr : s.reqPort = r :: rest) (h : step s = .next t) (ht : t.phase = .run 0 .issue) :
    ∃ op, opCode op = r.word.extractLsb' 30 4 ∧
      t = latch op (registerAt s.cfg (requestAddr r.word)) (some (requestData r.word)) (some r.fn) s := by
  rw [step_request hturns (.inl hp) hr] at h
  obtain ⟨-, -, ⟨op, -, rfl⟩ | rfl⟩ := exec_request hr (.inl hp) h
  · exact ⟨op, opCode_of_accepted hp h ht rfl, rfl⟩
  · cases ht

end Sys2Proof.Machine

namespace Sys2Proof.Proofs

open Sys2Proof Sys2Proof.Machine

/-- Settles O21: accept at a register's address, latched. -/
theorem readWriteModifyAccepted : Obligations.ReadWriteModifyAccepted := by
  unfold Obligations.ReadWriteModifyAccepted
  intro s a d f r hp ho hr
  have accepted (op d f) : whenIdle s (acceptAt op a d f s) = .next (latch op (some r) d f s) :=
    (whenIdle_idle ho hp).trans (acceptAt_eq hr)
  exact ⟨accepted .read _ _, accepted .write _ _, accepted .modify _ _⟩

/-- Settles O22: accept with the registers an operation needs, and the fields of the port by what a step accepts. -/
theorem sensorOperationsAccepted : Obligations.SensorOperationsAccepted := by
  unfold Obligations.SensorOperationsAccepted
  refine ⟨fun s op i hp ho hi hangle hmag hdiag herr hzpos => ?_, fun s d hp ho hm hl => ?_,
    fun s t r rest hturns hp hr h ht => ?_⟩
  · have accepted (op) := accepts_sensor op (portWdata s) hp ho
    simp only [List.mem_cons, List.not_mem_nil, or_false, Prod.mk.injEq] at hi
    obtain ⟨rfl, rfl⟩ | ⟨rfl, rfl⟩ | ⟨rfl, rfl⟩ | ⟨rfl, rfl⟩ | ⟨rfl, rfl⟩ | ⟨rfl, rfl⟩ := hi
    · exact accepted .angle (List.forall_mem_singleton.mpr (hangle (.inl rfl)))
    · exact accepted .angleDeg (List.forall_mem_singleton.mpr (hangle (.inr rfl)))
    · exact accepted .magnitude (List.forall_mem_singleton.mpr (hmag rfl))
    · exact accepted .diag (List.forall_mem_singleton.mpr (hdiag rfl))
    · exact accepted .clrerr (List.forall_mem_singleton.mpr (herr rfl))
    · obtain ⟨hm, hl⟩ := hzpos rfl
      exact accepted .zposGet (List.forall_mem_cons.mpr ⟨hm, List.forall_mem_singleton.mpr hl⟩)
  · exact accepts_sensor .zposSet (some d) hp ho (List.forall_mem_cons.mpr ⟨hm, List.forall_mem_singleton.mpr hl⟩)
  · obtain ⟨op, hcode, rfl⟩ := step_accepts hturns hp hr h ht
    refine ⟨op, hcode, ?_⟩
    rw [latch, hr]
    rfl

/-- Settles O60: each of the five needs one register. -/
theorem missingRegisterRefused : Obligations.MissingRegisterRefused := by
  unfold Obligations.MissingRegisterRefused
  intro s hp ho
  exact ⟨fun h => ⟨lacks_register hp ho rfl h, lacks_register hp ho rfl h⟩, fun h => lacks_register hp ho rfl h,
    fun h => lacks_register hp ho rfl h, fun h => lacks_register hp ho rfl h⟩

/-- Settles O25: the reserved codes by definition, every other request by the test of the phase. -/
theorem requestsOutOfTurn : Obligations.RequestsOutOfTurn := by
  unfold Obligations.RequestsOutOfTurn
  exact ⟨fun s => ⟨rfl, rfl, rfl, rfl, rfl⟩, fun s i w fn k sub => exec_request_run⟩

end Sys2Proof.Proofs
end

section
/-! PROOF. Sent frames and what a step fetches (spec 42_frame_sequencer R183 issue, 30_encoding R117, 00_scope R14): the
frame the schedule sends goes out, every other is refused, and where a function is due. -/

namespace Sys2Proof.Machine

/-! ### Where a function is due -/

/-- The schedule's own marks of a function to evaluate (R182, D19). -/
theorem schedule_evaluates (op : Op) : ∀ x ∈ (schedule op).zipIdx,
    x.1.evaluates = none ∨ ((∃ r ∈ [RegRef.operand, .fixed .zposm, .fixed .zposl], x.1.sends = .writeCmd r) ∧
      ((op = .modify ∧ x.2 = 2 ∧ x.1.evaluates = some .reqFn) ∨
       (op = .zposSet ∧ x.2 = 2 ∧ x.1.evaluates = some .zposm) ∨
       (op = .zposSet ∧ x.2 = 7 ∧ x.1.evaluates = some .zposl))) := by
  cases op <;> decide

section
variable {s : State} {k : Nat} {g : ModFn} {pos : FramePos} {w : Word}

/-- A function is due at the start of the WRITE half of MODIFY, or of either half of ZPOS.SET, while its value is not
there (D19, log 16). -/
theorem dueFn_iff : dueFn s k = some g ↔ s.fnValue = none ∧
    ((s.reqOp = some .modify ∧ k = 2 ∧ g = .reqFn) ∨ (s.reqOp = some .zposSet ∧ k = 2 ∧ g = .zposm) ∨
     (s.reqOp = some .zposSet ∧ k = 7 ∧ g = .zposl)) := by
  rw [dueFn_eq_some]
  constructor
  · rintro ⟨e, hentry, hev, hv⟩
    obtain ⟨op, hop, he⟩ := currentEntry_ok hentry
    refine ⟨hv, ?_⟩
    obtain hnone | ⟨-, hsome⟩ := schedule_evaluates op (e, k) (List.mk_mem_zipIdx_iff_getElem?.mpr he)
    · cases hev.symm.trans hnone
    · simpa [hop, hev, eq_comm] using hsome
  · rintro ⟨hv, ⟨hop, rfl, rfl⟩ | ⟨hop, rfl, rfl⟩ | ⟨hop, rfl, rfl⟩⟩ <;>
      exact ⟨_, currentEntry_eq hop rfl, rfl, hv⟩

/-- Where a function is due, the entry sends a write command. -/
theorem dueFn_none_of_frame (hf : scheduledFrame s k = .ok (pos, w)) (hw : pos = .command → w.getLsbD 14 = true) :
    dueFn s k = none := by
  obtain ⟨e, hentry, hb⟩ := scheduledFrame_entry hf
  obtain ⟨op, hop, he⟩ := currentEntry_ok hentry
  obtain hnone | ⟨⟨r, -, hr⟩, -⟩ := schedule_evaluates op (e, k) (List.mk_mem_zipIdx_iff_getElem?.mpr he)
  · exact dueFn_of_evaluates hentry hnone
  · rw [hr, buildFrame] at hb
    cases ha : refAddr s r with
    | error f => rw [ha] at hb; cases hb
    | ok a =>
      rw [ha] at hb
      cases hb
      exact absurd ((mkCmd_14 a false).symm.trans (hw rfl)) Bool.false_ne_true

/-! ### Issuing -/

theorem exec_of_encode_sent {i : Instr} (he : encode i = .sent pos w) : exec i s = issueFrame pos w s := by
  cases i with
  | cmdRd | cmdWr | data | nop => cases he; rfl
  | _ => cases he

theorem issueFrame_notIssue (h : ∀ k, s.phase ≠ .run k .issue) : issueFrame pos w s = .refused (.notScheduled w) := by
  unfold issueFrame
  split
  · next k hk => exact absurd hk (h k)
  · rfl

theorem issueFrame_due (hp : s.phase = .run k .issue) (hd : dueFn s k = some g) :
    issueFrame pos w s = .refused (.notScheduled w) := by
  simp only [issueFrame, hp, hd]

theorem issueFrame_other {f : FramePos × Word} (hp : s.phase = .run k .issue) (hf : scheduledFrame s k = .ok f)
    (hne : f ≠ (pos, w)) : issueFrame pos w s = .refused (.notScheduled w) := by
  cases hd : dueFn s k with
  | some g => exact issueFrame_due hp hd
  | none => simp only [issueFrame, hp, hd, hf, if_neg hne]

theorem completeFrame_notWait {r : Word} (h : ∀ k, s.phase ≠ .run k .wait) :
    completeFrame r s = .refused .noTransaction := by
  unfold completeFrame
  split
  · next k hk => exact absurd hk (h k)
  · rfl

/-! ### Fetching -/

theorem fetch_block (h : s.turns = []) : fetch s = fetchBlock s := by
  simp only [fetch, h]

end

end Sys2Proof.Machine

namespace Sys2Proof.Proofs

open Sys2Proof Sys2Proof.Machine

/-- Settles O27: the scheduled frame is issued, and only a write command can find a function due before it. -/
theorem scheduledFrameIsIssued : Obligations.ScheduledFrameIsIssued := by
  unfold Obligations.ScheduledFrameIsIssued
  intro s k p a d hp
  exact ⟨fun hf => issueFrame_eq hp (dueFn_none_of_frame hf fun _ => packFrame_14 p true a) hf,
    fun hf hd => issueFrame_eq hp hd hf,
    fun hf => issueFrame_eq hp (dueFn_none_of_frame hf nofun) hf,
    fun hf => issueFrame_eq hp (dueFn_none_of_frame hf nofun) hf⟩

/-- Settles O28: a sent frame's meaning is `issueFrame`, RESP's `completeFrame`, and each tests the phase first. -/
theorem unscheduledFrameRefused : Obligations.UnscheduledFrameRefused := by
  unfold Obligations.UnscheduledFrameRefused
  exact ⟨fun s i pos w he h => (exec_of_encode_sent he).trans (issueFrame_notIssue h),
    fun s i pos w k f he hp hf hne => (exec_of_encode_sent he).trans (issueFrame_other hp hf hne),
    fun s i pos w k g he hp hd => (exec_of_encode_sent he).trans (issueFrame_due hp hd),
    fun s p e d h => completeFrame_notWait h⟩

/-- Settles O58: the step by what is fetched, the fetch by turn, phase and port, the evaluation by where it is due. -/
theorem stepRunsTheDecodedInstruction : Obligations.StepRunsTheDecodedInstruction := by
  unfold Obligations.StepRunsTheDecodedInstruction
  refine ⟨fun s t p i => step_instr, ?evaluates, ?request, ?sent, ?applies, fun s k g => dueFn_iff, ?received, ?block⟩
  case evaluates =>
    intro s port w side rest ht
    simp only [fetch, ht]
  case request =>
    intro s r rest ht hp hr
    rw [fetch_block ht]
    obtain hp | hp := hp <;> simp only [fetchBlock, hp, hr]
  case sent =>
    intro s k pos w ht hp hd hf
    rw [fetch_block ht]
    simp only [fetchBlock, hp, hd, hf]
  case applies =>
    intro s k g u ht hp hd hu
    exact (step_evaluation ht hp hd).trans (evaluateFn_eq hu)
  case received =>
    intro s k b0 b1 rest ht hp ha
    rw [fetch_block ht]
    simp only [fetchBlock, hp, ha]
    rfl
  case block =>
    intro s rest ht
    simp only [fetch, ht]

end Sys2Proof.Proofs
end

section
/-! PROOF. The outcome of one transaction (spec 41_response_validator R163, 42_frame_sequencer R181, R183, 60_exceptions
R313 to R317): ignored, bad, kept, and last. -/

namespace Sys2Proof.Machine

/-- What the schedules say of handling (R182): an ignored frame is never the last, and RES.value is written at the last
only. -/
theorem schedule_handling (op : Op) : ∀ x ∈ (schedule op).zipIdx,
    (x.1.handling = .ignore → x.2 + 1 < (schedule op).length) ∧
    (x.1.handling = .keepValue → x.2 + 1 = (schedule op).length) := by
  cases op <;> decide

section
variable {s : State} {op : Op} {k : Nat} {e : Entry} {u : Transaction} {us : List Transaction} {r : Word} {d : Payload}

theorem goesOn_of_ignore (he : (schedule op)[k]? = some e) (hh : e.handling = .ignore) :
    k + 1 < (schedule op).length :=
  (schedule_handling op (e, k) (List.mk_mem_zipIdx_iff_getElem?.mpr he)).1 hh

theorem isLast_of_keepValue (he : (schedule op)[k]? = some e) (hh : e.handling = .keepValue) :
    k + 1 = (schedule op).length :=
  (schedule_handling op (e, k) (List.mk_mem_zipIdx_iff_getElem?.mpr he)).2 hh

/-- The state an ignored transaction leaves (R163). -/
theorem completeFrame_ignored (hp : s.phase = .run k .wait) (he : currentEntry s k = .ok e)
    (hh : e.handling = .ignore) :
    completeFrame r s = .next { receiveFrame r s with phase := .run (k + 1) .issue } := by
  obtain ⟨op, hop, hs⟩ := currentEntry_ok he
  rw [completeFrame_ignore hp he hh]
  exact advance_goesOn (op := op) hop (goesOn_of_ignore hs hh)

/-- The state a bad validated transaction leaves (R313, R314, R316). -/
theorem completeFrame_bad (hp : s.phase = .run k .wait) (he : currentEntry s k = .ok e) (hh : e.handling ≠ .ignore)
    (hbad : ones 16 r % 2 = 1 ∨ r.getLsbD 14 = true) :
    completeFrame r s = .next (endedState s s.answers (receiveFrame r s).trace
      (.err (if ones 16 r % 2 = 1 then .parityError else .sensorError))) := by
  rw [completeFrame_validated hp he hh, respValidate_eq_ones]
  by_cases hodd : ones 16 r % 2 = 1
  · simp only [if_pos hodd]
    exact raiseErr_eq _ _
  · simp only [if_neg hodd, if_pos (hbad.resolve_left hodd)]
    exact raiseErr_eq _ _

theorem respValidate_good (heven : ones 16 r % 2 = 0) (h14 : r.getLsbD 14 = false) :
    respValidate r = .good (payloadOf r) :=
  respValidate_eq_good.mpr ⟨(parVerify_eq_ones r).trans (decide_eq_true heven), h14, rfl⟩

/-- The state a good validated transaction leaves that is not the last (R181, R183). -/
theorem completeFrame_kept (hp : s.phase = .run k .wait) (hop : s.reqOp = some op) (he : (schedule op)[k]? = some e)
    (hh : e.handling ≠ .ignore) (hk : k + 1 < (schedule op).length) (heven : ones 16 r % 2 = 0)
    (h14 : r.getLsbD 14 = false) :
    completeFrame r s = .next { s with
      phase := .run (k + 1) .issue, rxw := some r,
      acc := if e.handling = .keepAcc then some (zext (payloadOf r)) else s.acc,
      fnValue := if e.handling = .keepAcc then none else s.fnValue,
      trace := (receiveFrame r s).trace } := by
  have hop' : (keepPayload e.handling (payloadOf r) (receiveFrame r s)).reqOp = some op :=
    (keepPayload_reqOp _ _ _).trans hop
  rw [completeFrame_validated hp (currentEntry_eq hop he) hh, respValidate_good heven h14]
  refine (advance_goesOn hop' hk).trans ?_
  cases hd : e.handling with
  | ignore => exact absurd hd hh
  | keepValue => exact absurd (isLast_of_keepValue he hd) (Nat.ne_of_lt hk)
  | keepAcc | discard => rfl

/-! ### What the last transaction returns -/

theorem zext_toNat (p : Payload) : (zext p).toNat = p.toNat := by
  rw [zext, BitVec.toNat_setWidth]
  exact Nat.mod_eq_of_lt (by omega)

theorem payloadOf_zext (p : Payload) : payloadOf (zext p) = p := lowBits_setWidth (by decide) p

/-- Finish returns what the operation's rule says of its last payload (R184, R188, R192, R271 to R277). -/
theorem finishValue_last {t : State} (he : (schedule op)[k]? = some e) (hk : k + 1 = (schedule op).length) (m : Word)
    (hm : op = .zposGet → t.acc = some m) (p : Payload) :
    finishValue op (keepPayload e.handling p t) = .ok (lastValue t.cfg op m p) := by
  cases op with
  | write | modify | zposSet | release => rfl
  | read | diag =>
    obtain rfl : k = 1 := Nat.succ.inj hk
    cases he
    rfl
  | angle | magnitude =>
    obtain rfl : k = 1 := Nat.succ.inj hk
    cases he
    exact congrArg (fun q => Except.ok (some (zext q))) (payloadOf_zext p)
  | angleDeg =>
    obtain rfl : k = 1 := Nat.succ.inj hk
    cases he
    rw [finishValue_angleDeg (x := zext p) rfl, zext_toNat]
    rfl
  | clrerr =>
    obtain rfl : k = 1 := Nat.succ.inj hk
    cases he
    exact finishValue_clrerr rfl
  | zposGet =>
    obtain rfl : k = 3 := Nat.succ.inj hk
    cases he
    refine (finishValue_zposGet (t := keepPayload .keepValue p t) (l := zext p) (hm rfl) rfl).trans ?_
    refine congrArg (fun q => Except.ok (some q)) (BitVec.eq_of_toNat_eq ?_)
    rw [zext_toNat, zposCompose_toNat, zext_toNat, BitVec.toNat_ofNat]
    omega

theorem verdictResult_good (v : Option Word) (heven : ones 16 r % 2 = 0) (h14 : r.getLsbD 14 = false) :
    verdictResult r v = .ok v := by
  rw [verdictResult, heven, h14]
  rfl

/-- The last entry of a schedule is validated (R182). -/
theorem handling_last (he : (schedule op)[k]? = some e) (hk : k + 1 = (schedule op).length) :
    e.handling ≠ .ignore :=
  fun hh => absurd hk (Nat.ne_of_lt (goesOn_of_ignore he hh))

end

end Sys2Proof.Machine

namespace Sys2Proof.Proofs

open Sys2Proof Sys2Proof.Machine

/-- Settles O29: the frame is received and the next entry follows. -/
theorem ignoredFrameChangesNothing : Obligations.IgnoredFrameChangesNothing := by
  unfold Obligations.IgnoredFrameChangesNothing
  intro s k e p ef d u us hp he hh htr
  have h := completeFrame_ignored (r := packFrame p ef d) hp he hh
  rw [receiveFrame, htr] at h
  exact h

/-- Settles O30: the verdict on the frame is one of the two errors, raised. -/
theorem badValidatedFrameRaises : Obligations.BadValidatedFrameRaises := by
  unfold Obligations.BadValidatedFrameRaises
  intro s k e p ef d u us hp he hh htr hbad
  have h := completeFrame_bad (r := packFrame p ef d) hp he hh (by rwa [packFrame_14])
  rw [receiveFrame_trace, htr] at h
  exact h

/-- Settles O31: a good verdict keeps the payload by the entry's handling, and in the last entry finishes. -/
theorem goodValidatedFrameIsKept : Obligations.GoodValidatedFrameIsKept := by
  unfold Obligations.GoodValidatedFrameIsKept
  refine ⟨fun s k op e p d u us hp hop he hh hk heven htr => ?_, fun s k op p d m u us hp hop hk hm heven htr => ?_⟩
  · have h := completeFrame_kept hp hop he hh hk heven (packFrame_14 p false d)
    rw [payloadOf_packFrame, receiveFrame_trace, htr] at h
    exact h
  · have he := List.getElem?_eq_getElem (show k < (schedule op).length by omega)
    have h := completeFrame_last (r := packFrame p false d) (g := fun x => lastValue s.cfg op m (payloadOf x)) hp hop he
      (handling_last he hk) hk fun q => by
        rw [payloadOf_zext]
        exact finishValue_last (t := receiveFrame _ s) he hk m hm q
    rw [verdictResult_good _ heven (packFrame_14 p false d), ← zext_payloadOf, payloadOf_zext, payloadOf_packFrame,
      receiveFrame_trace, htr] at h
    exact h

/-- Settles O53: either frame leaves only itself in RXW and in the trace. -/
theorem ignoredFramesHaveNoInfluence : Obligations.IgnoredFramesHaveNoInfluence := by
  unfold Obligations.IgnoredFramesHaveNoInfluence
  intro s k e b0 b1 c0 c1 rest ht hp he hh
  have hstep (x0 x1 : Byte) : step { s with answers := .ok x0 x1 :: rest } =
      .next { receiveFrame (ofWire x0 x1) { s with answers := rest } with phase := .run (k + 1) .issue } :=
    (step_received (s := { s with answers := .ok x0 x1 :: rest }) ht hp rfl).trans
      (completeFrame_ignored (s := { s with answers := rest }) hp he hh)
  exact ⟨_, _, hstep b0 b1, hstep c0 c1, rfl, rfl, rfl, rfl, rfl, rfl⟩

end Sys2Proof.Proofs
end

section
/-! PROOF. MODIFY, ZPOS.GET and ZPOS.SET with their outcomes (spec 42_frame_sequencer R192, 44_sensor_operations R276,
R277): the parts of a schedule as stretches of a run, and the runs put together from them. -/

namespace Sys2Proof.Machine

/-! ### Stretches of an operation's run -/

/-- From `s` the run comes in `n` steps to `t`, with `ans` still to come and the trace `tr`, inside the same operation:
where it ends, it ends as the operation of `s` does. -/
structure Reaches (n : Nat) (s : State) (ans : List Answer) (tr : List Transaction) (t : State) : Prop where
  run     : run n s = .next t
  answers : t.answers = ans
  trace   : t.trace = tr
  ended   : ∀ ans tr r, endedState t ans tr r = endedState s ans tr r

theorem Reaches.trans {m n : Nat} {s t u : State} {ans ans' : List Answer} {tr tr' : List Transaction}
    (h : Reaches m s ans tr t) (h' : Reaches n t ans' tr' u) : Reaches (m + n) s ans' tr' u :=
  ⟨(run_add h.run).trans h'.run, h'.answers, h'.trace, fun a b c => (h'.ended a b c).trans (h.ended a b c)⟩

/-- A stretch, then the end of the operation. -/
theorem Reaches.ends {m n : Nat} {s t : State} {ans ans' : List Answer} {tr tr' : List Transaction} {r : Result}
    (h : Reaches m s ans tr t) (hrun : Machine.run n t = .next (endedState t ans' tr' r)) :
    Machine.run (m + n) s = .next (endedState s ans' tr' r) := by
  rw [run_add h.run, hrun, h.ended]

section
variable {c s : State} {op : Op} {k : Nat} {e e' : Entry} {es : List Entry} {pos : FramePos} {w : Word}
  {r : RegRef} {a : Addr} {b0 b1 c0 c1 d0 d1 : Byte} {rest : List Answer}

/-- An ignored transaction (R163). -/
theorem Before.reaches_ignored (hs : Before c op k (e :: e' :: es) s) (hh : e.handling = .ignore)
    (hdue : dueFn s k = none) (hf : buildFrame s e.sends = .ok (pos, w)) (ha : s.answers = .ok b0 b1 :: rest) :
    ∃ t, Reaches 2 s rest (transaction w (some (.ok b0 b1)) :: s.trace) t ∧ Before c op (k + 1) (e' :: es) t ∧
      t.acc = s.acc ∧ t.fnValue = s.fnValue :=
  ⟨_, ⟨hs.run_ignored (n := 0) hh hdue hf ha, rfl, rfl, fun _ _ _ => rfl⟩, hs.next w _ b0 b1 rest, rfl, rfl⟩

/-- A validated NOP that passes, with entries after it (R181). -/
theorem Before.reaches_nop {keep : Handling} (hs : Before c op k (⟨.nop, keep, none⟩ :: e' :: es) s)
    (hk : keep ≠ .ignore) (ha : s.answers = .ok b0 b1 :: rest) (heven : ones 16 (ofWire b0 b1) % 2 = 0)
    (h14 : (ofWire b0 b1).getLsbD 14 = false) :
    ∃ t, Reaches 2 s rest (transaction mkNop (some (.ok b0 b1)) :: s.trace) t ∧ Before c op (k + 1) (e' :: es) t ∧
      t.acc = (if keep = .keepAcc then some (ofWire b0 b1 &&& 0x3FFF#16) else s.acc) ∧
      t.fnValue = (if keep = .keepAcc then none else s.fnValue) := by
  have hentry : (schedule op)[k]? = some ⟨.nop, keep, none⟩ := hs.getElem?
  have hrun := hs.run_answered (hs.dueFn_none rfl) rfl ha
  rw [completeFrame_kept (s := issuedState s k mkNop rest) rfl hs.reqOp hentry hk hs.goesOn heven h14,
    zext_payloadOf] at hrun
  refine ⟨_, ⟨hrun, rfl, ?_, fun _ _ _ => rfl⟩,
    ⟨hs.turns, rfl, hs.tail, hs.reqOp, hs.cfg, hs.reqReg, hs.reqWdata, hs.reqFn⟩, rfl, rfl⟩
  rw [issuedState, issued_received]

/-- A validated NOP that does not pass ends the operation (R313, R314). -/
theorem Before.run_badNop {keep : Handling} (hs : Before c op k (⟨.nop, keep, none⟩ :: es) s) (hk : keep ≠ .ignore)
    (ha : s.answers = .ok b0 b1 :: rest)
    (hbad : ones 16 (ofWire b0 b1) % 2 = 1 ∨ (ofWire b0 b1).getLsbD 14 = true) (v : Option Word) :
    run 2 s = .next (endedState s rest (transaction mkNop (some (.ok b0 b1)) :: s.trace)
      (verdictResult (ofWire b0 b1) v)) := by
  have hentry : Machine.currentEntry (issuedState s k mkNop rest) k = .ok ⟨.nop, keep, none⟩ := hs.currentEntry
  have hv : verdictResult (ofWire b0 b1) v =
      .err (if ones 16 (ofWire b0 b1) % 2 = 1 then .parityError else .sensorError) := by
    unfold verdictResult
    by_cases hodd : ones 16 (ofWire b0 b1) % 2 = 1
    · rw [if_pos hodd, if_pos hodd]
    · rw [if_neg hodd, if_neg hodd, if_pos (hbad.resolve_left hodd)]
  rw [hs.run_answered (hs.dueFn_none rfl) rfl ha, completeFrame_bad rfl hentry hk hbad, hv, issuedState,
    issued_received]
  rfl

/-- The command of a READ (R182, R184). -/
theorem Before.reaches_readCmd {keep : Handling} (hs : Before c op k (readEntries r keep ++ es) s)
    (ha : Machine.refAddr c r = .ok a) (hans : s.answers = .ok b0 b1 :: rest) :
    ∃ t, Reaches 2 s rest (transaction (mkCmd a true) (some (.ok b0 b1)) :: s.trace) t ∧
      Before c op (k + 1) (⟨.nop, keep, none⟩ :: es) t ∧ t.acc = s.acc := by
  obtain ⟨t, hr, ht, hacc, -⟩ := hs.reaches_ignored rfl (hs.dueFn_none rfl) (hs.buildFrame_readCmd ha) hans
  exact ⟨t, hr, ht, hacc⟩

/-- A READ whose payload goes to ACC, its frame good (R182, R184). -/
theorem Before.reaches_readToAcc (hs : Before c op k (readEntries r .keepAcc ++ e' :: es) s)
    (ha : Machine.refAddr c r = .ok a) (hans : s.answers = .ok b0 b1 :: .ok c0 c1 :: rest)
    (heven : ones 16 (ofWire c0 c1) % 2 = 0) (h14 : (ofWire c0 c1).getLsbD 14 = false) :
    ∃ t, Reaches 4 s rest (twoAnswered (mkCmd a true) b0 b1 mkNop c0 c1 s.trace) t ∧
      Before c op (k + 2) (e' :: es) t ∧ t.acc = some (ofWire c0 c1 &&& 0x3FFF#16) ∧ t.fnValue = none := by
  obtain ⟨t, hr, ht, -⟩ := hs.reaches_readCmd ha hans
  obtain ⟨u, hr', hu, hacc, hfn⟩ := ht.reaches_nop (by decide) hr.answers heven h14
  rw [hr.trace] at hr'
  exact ⟨u, hr.trans hr', hu, hacc, hfn⟩

/-- A READ whose frame is bad ends the operation, whatever comes after it (R185). -/
theorem Before.run_badRead {keep : Handling} (hs : Before c op k (readEntries r keep ++ es) s) (hk : keep ≠ .ignore)
    (ha : Machine.refAddr c r = .ok a) (hans : s.answers = .ok b0 b1 :: .ok c0 c1 :: rest)
    (hbad : ones 16 (ofWire c0 c1) % 2 = 1 ∨ (ofWire c0 c1).getLsbD 14 = true) (v : Option Word) :
    run 4 s = .next (endedState s rest (twoAnswered (mkCmd a true) b0 b1 mkNop c0 c1 s.trace)
      (verdictResult (ofWire c0 c1) v)) := by
  obtain ⟨t, hr, ht, -⟩ := hs.reaches_readCmd ha hans
  have hend := ht.run_badNop hk hr.answers hbad v
  rw [hr.trace] at hend
  exact hr.ends hend

/-- The WRITE half of a MODIFY up to its last NOP: the evaluation of the function, and two frames (R192, D19). -/
theorem Before.reaches_writeHalf {g : ModFn} {u : Word} (hs : Before c op k (writeEntries r .fnValue (some g) ++ es) s)
    (ha : Machine.refAddr c r = .ok a) (hfn : s.fnValue = none) (hu : modFnValue s g = .ok u)
    (hans : s.answers = .ok b0 b1 :: .ok c0 c1 :: rest) :
    ∃ t, Reaches 5 s rest (twoAnswered (mkCmd a false) b0 b1 (mkData u) c0 c1 s.trace) t ∧
      Before c op (k + 2) (⟨.nop, .discard, none⟩ :: es) t := by
  have hdue : dueFn s k = some g := dueFn_eq_some.mpr ⟨_, hs.currentEntry, rfl, hfn⟩
  have heval : Reaches 1 s (.ok b0 b1 :: .ok c0 c1 :: rest) s.trace { s with fnValue := some u } :=
    ⟨run_succ ((step_evaluation hs.turns hs.phase hdue).trans (evaluateFn_eq hu)), hans, rfl, fun _ _ _ => rfl⟩
  have hs' := hs.fnValue (some u)
  obtain ⟨t, hr, ht, -, hv⟩ :=
    hs'.reaches_ignored rfl (dueFn_of_isSome rfl) (hs'.buildFrame_writeCmd ha) heval.answers
  obtain ⟨t', hr', ht', -, -⟩ :=
    ht.reaches_ignored rfl (ht.dueFn_none rfl) (buildFrame_data (d := .fnValue) (need_eq_ok.mpr hv)) hr.answers
  rw [hr.trace] at hr'
  exact ⟨t', (heval.trans hr).trans hr', ht'⟩

/-- A MODIFY half up to its last NOP, the frame of its READ good: four transactions and the evaluation (R192). -/
theorem Before.reaches_modifyFrames {g : ModFn} {u : Word} {x0 x1 y0 y1 : Byte}
    (hs : Before c op k (modifyEntries r g ++ es) s) (ha : Machine.refAddr c r = .ok a)
    (hans : s.answers = .ok b0 b1 :: .ok c0 c1 :: .ok x0 x1 :: .ok y0 y1 :: rest)
    (heven : ones 16 (ofWire c0 c1) % 2 = 0) (h14 : (ofWire c0 c1).getLsbD 14 = false)
    (hu : ∀ t, t.reqWdata = c.reqWdata → t.reqFn = c.reqFn → t.acc = some (ofWire c0 c1 &&& 0x3FFF#16) →
      modFnValue t g = .ok u) :
    ∃ t, Reaches 9 s rest (twoAnswered (mkCmd a false) x0 x1 (mkData u) y0 y1
        (twoAnswered (mkCmd a true) b0 b1 mkNop c0 c1 s.trace)) t ∧
      Before c op (k + 4) (⟨.nop, .discard, none⟩ :: es) t := by
  obtain ⟨t, hr, ht, hacc, hfn⟩ := hs.reaches_readToAcc ha hans heven h14
  obtain ⟨t', hr', ht'⟩ := ht.reaches_writeHalf ha hfn (hu t ht.reqWdata ht.reqFn hacc) hr.answers
  rw [hr.trace] at hr'
  exact ⟨t', hr.trans hr', ht'⟩

/-- The MODIFY half that ends the operation ends it by its last frame (R192). -/
theorem Before.run_modifyLast {g : ModFn} {u : Word} {x0 x1 y0 y1 : Byte}
    (hs : Before c op k (modifyEntries r g) s) (ha : Machine.refAddr c r = .ok a)
    (hans : s.answers = .ok b0 b1 :: .ok c0 c1 :: .ok x0 x1 :: .ok y0 y1 :: .ok d0 d1 :: rest)
    (heven : ones 16 (ofWire c0 c1) % 2 = 0) (h14 : (ofWire c0 c1).getLsbD 14 = false)
    (hu : ∀ t, t.reqWdata = c.reqWdata → t.reqFn = c.reqFn → t.acc = some (ofWire c0 c1 &&& 0x3FFF#16) →
      modFnValue t g = .ok u) (hv : ∀ t, finishValue op t = .ok none) :
    run 11 s = .next (endedState s rest (transaction mkNop (some (.ok d0 d1)) ::
      twoAnswered (mkCmd a false) x0 x1 (mkData u) y0 y1 (twoAnswered (mkCmd a true) b0 b1 mkNop c0 c1 s.trace))
      (verdictResult (ofWire d0 d1) none)) := by
  obtain ⟨t, hr, ht⟩ := hs.reaches_modifyFrames (es := []) ha hans heven h14 hu
  have hend := ht.run_lastNop (g := fun _ => none) (by decide) hr.answers fun _ _ _ _ => hv _
  rw [hr.trace] at hend
  exact hr.ends hend

/-- The READ that ends the operation, with what is returned of its payload (R185). -/
theorem Before.run_readLast {g : Word → Option Word} (hs : Before c op k (readEntries r .keepValue) s)
    (ha : Machine.refAddr c r = .ok a) (hans : s.answers = .ok b0 b1 :: .ok c0 c1 :: rest)
    (hv : ∀ t x, t.cfg = c.cfg → t.acc = s.acc → t.resValue = some x → finishValue op t = .ok (g x)) :
    run 4 s = .next (endedState s rest (twoAnswered (mkCmd a true) b0 b1 mkNop c0 c1 s.trace)
      (verdictResult (ofWire c0 c1) (g (ofWire c0 c1 &&& 0x3FFF#16)))) := by
  obtain ⟨t, hr, ht, hacc⟩ := hs.reaches_readCmd (es := []) ha hans
  have hend := ht.run_lastNop (g := g) (by decide) hr.answers fun u p hc hu => hv _ _ hc (hu.trans hacc) rfl
  rw [hr.trace] at hend
  exact hr.ends hend

end

/-! ### The operations -/

section
variable {s : State} {reg : Option Register} {d : Option Word} {fn : Option Fn} {rest : List Answer}
  {a0 a1 b0 b1 c0 c1 d0 d1 e0 e1 : Byte}

/-- ZPOS.GET with both READ halves answered and the first good (R276). -/
theorem zposGet_ends {am al : Addr} (ht : s.turns = []) (hm : addrOf s.cfg .zposm = some am)
    (hl : addrOf s.cfg .zposl = some al)
    (hans : s.answers = .ok a0 a1 :: .ok b0 b1 :: .ok c0 c1 :: .ok d0 d1 :: rest)
    (heven : ones 16 (ofWire b0 b1) % 2 = 0) (h14 : (ofWire b0 b1).getLsbD 14 = false) :
    run 8 (latch .zposGet reg d fn s) = .next (servedState s rest (twoAnswered (mkCmd al true) c0 c1 mkNop d0 d1
      (twoAnswered (mkCmd am true) a0 a1 mkNop b0 b1 s.trace)) (verdictResult (ofWire d0 d1)
        (some (zext (zposCompose (ofWire b0 b1 &&& 0x3FFF#16) (ofWire d0 d1 &&& 0x3FFF#16)))))) := by
  have hb := before_latch .zposGet reg d fn ht
  obtain ⟨t, hr, ht, hacc, -⟩ := hb.reaches_readToAcc (refAddr_fixed hm) hans heven h14
  have hend := ht.run_readLast (g := fun l => some (zext (zposCompose (ofWire b0 b1 &&& 0x3FFF#16) l)))
    (refAddr_fixed hl) hr.answers fun u l _ hu hval => finishValue_zposGet (hu.trans hacc) hval
  rw [hr.trace] at hend
  exact hr.ends hend

/-- The composed zero position from the received bytes (R244, R276). -/
theorem zposCompose_received (b0 b1 d0 d1 : Byte) :
    zext (zposCompose (ofWire b0 b1 &&& 0x3FFF#16) (ofWire d0 d1 &&& 0x3FFF#16)) =
      BitVec.ofNat 16 (b1.toNat * 64 + d1.toNat % 64) := by
  have hlow (x0 x1 : Byte) : (ofWire x0 x1 &&& 0x3FFF#16).toNat = (x0.toNat * 256 + x1.toNat) % 2 ^ 14 := by
    rw [BitVec.toNat_and, ofWire_toNat]
    exact Nat.and_two_pow_sub_one_eq_mod _ 14
  have hb := b1.isLt
  apply BitVec.eq_of_toNat_eq
  rw [zext_toNat, zposCompose_toNat, hlow, hlow, BitVec.toNat_ofNat]
  omega

end

/-! ### The halves of a zero position in a register's word -/

theorem msbWord_and (v : Word) : msbWord v &&& 0x00FF#16 = (v >>> 6) &&& 0x00FF#16 := by
  have h : msbWord v = (v >>> 6) &&& 0x00FF#16 := lowBits_container (v >>> 6) 8
  rw [h, BitVec.and_assoc, BitVec.and_self]

theorem lsbWord_and (v : Word) : lsbWord v &&& 0x003F#16 = v &&& 0x003F#16 := by
  have h : lsbWord v = v &&& 0x003F#16 := lowBits_container v 6
  rw [h, BitVec.and_assoc, BitVec.and_self]

end Sys2Proof.Machine

namespace Sys2Proof.Proofs

open Sys2Proof Sys2Proof.Machine

/-- Settles O37: the bad READ half ends the accepted operation; the good one is followed by the WRITE half. -/
theorem modifyOutcomes : Obligations.ModifyOutcomes := by
  unfold Obligations.ModifyOutcomes
  intro s a f r b0 b1 c0 c1 d0 d1 e0 e1 f0 f1 rest hp ho ht hc hr
  obtain ⟨hx, ha⟩ := accepts_at .modify (portWdata s) (some f) hp ho hc hr
  have hb := before_latch .modify (some r) (portWdata s) (some f) ht
  exact ⟨_, hx, fun hans hbad => hb.run_badRead (by decide) ha hans hbad none,
    fun hans heven h14 => hb.run_modifyLast ha hans heven h14
      (fun t _ hfn hacc => modFnValue_reqFn hfn hacc) fun _ => rfl⟩

/-- Settles O38: the bad first READ ends the accepted operation; the good one is followed by the second. -/
theorem zeroPositionGetOutcomes : Obligations.ZeroPositionGetOutcomes := by
  unfold Obligations.ZeroPositionGetOutcomes
  intro s am al b0 b1 c0 c1 d0 d1 e0 e1 rest hp ho ht hm hl
  have hb := before_latch .zposGet (portReg s) (portWdata s) (portFn s) ht
  refine ⟨_, accepts_sensor .zposGet _ hp ho (needs_zpos hm hl),
    fun hans hbad => hb.run_badRead (by decide) (refAddr_fixed hm) hans hbad none, fun hans heven h14 => ?_⟩
  rw [← zposCompose_received c0 c1 e0 e1]
  exact zposGet_ends ht hm hl hans heven h14

/-- Settles O39: the MODIFY of the high half, its last frame good, then the MODIFY of the low half. -/
theorem zeroPositionSetFrames : Obligations.ZeroPositionSetFrames := by
  unfold Obligations.ZeroPositionSetFrames
  intro s v am al rest a0 a1 b0 b1 c0 c1 d0 d1 e0 e1 f0 f1 g0 g1 h0 h1 i0 i1 j0 j1 hp ho ht hm hl hans hgood
  obtain ⟨hbeven, hb14⟩ := hgood (ofWire b0 b1) (by simp [ofWire])
  obtain ⟨heeven, he14⟩ := hgood (ofWire e0 e1) (by simp [ofWire])
  obtain ⟨hgeven, hg14⟩ := hgood (ofWire g0 g1) (by simp [ofWire])
  have hb := before_latch .zposSet (portReg s) (some v) (portFn s) ht
  refine ⟨_, accepts_sensor .zposSet (some v) hp ho (needs_zpos hm hl), ?_⟩
  obtain ⟨t1, hr1, ht1⟩ := hb.reaches_modifyFrames (refAddr_fixed hm) hans hbeven hb14
    fun t hv _ hacc => modFnValue_zposm hv hacc
  obtain ⟨t2, hr2, ht2, -, -⟩ := ht1.reaches_nop (by decide) hr1.answers heeven he14
  have hend := ht2.run_modifyLast (refAddr_fixed hl) hr2.answers hgeven hg14
    (fun t hv _ hacc => modFnValue_zposl hv hacc) fun _ => rfl
  rw [hr2.trace, hr1.trace, zposmSet_eq, zposlSet_eq, msbWord_and, lsbWord_and] at hend
  exact (hr1.trans hr2).ends hend

end Sys2Proof.Proofs
end

section
/-! PROOF. What lies behind a state has no influence (spec 42_frame_sequencer R199, 10_state R23): a step taken with
another past is the same step, operation by operation. -/

namespace Sys2Proof.Machine

/-! ### Another past -/

/-- The state with the past of `p`: its trace, results, outputs and last frame received. -/
def withPast (s p : State) : State :=
  { s with trace := p.trace, results := p.results, outs := p.outs, rxw := p.rxw }

/-- Two states that differ at most in their pasts are the one with the other's past. -/
theorem eq_withPast {s t : State} (h : sameButHistory s t) : withPast s t = t := by
  have hpast := congrArg (fun u => withPast u t) h
  exact hpast

/-- From `s1` to `t1` and from `s2` to `t2` is the same move: the states differ at most in their pasts, the same result
is delivered if any, and the same frame sent if any. -/
structure SameMove (s1 s2 t1 t2 : State) : Prop where
  same    : sameButHistory t1 t2
  results : (t1.results = s1.results ∧ t2.results = s2.results) ∨
    ∃ r, t1.results = r :: s1.results ∧ t2.results = r :: s2.results
  sent    : newestSent s1 = newestSent s2 → newestSent t1 = newestSent t2

/-- Where the first outcome is a next state, so is the second, by the same move. -/
def Alike (s1 s2 : State) (o1 o2 : Out) : Prop := ∀ t1, o1 = .next t1 → ∃ t2, o2 = .next t2 ∧ SameMove s1 s2 t1 t2

theorem alike_next {s1 s2 t1 t2 : State} (h : SameMove s1 s2 t1 t2) : Alike s1 s2 (.next t1) (.next t2) :=
  fun _ ht => ⟨t2, rfl, Host.Outcome.next.inj ht ▸ h⟩

/-- A move from states that have delivered and sent as `s1` and `s2` have is one from these. -/
theorem Alike.of_base {s1 s2 u1 u2 : State} {o1 o2 : Out} (h : Alike u1 u2 o1 o2) (h1 : u1.results = s1.results)
    (h2 : u2.results = s2.results) (hs : newestSent s1 = newestSent s2 → newestSent u1 = newestSent u2) :
    Alike s1 s2 o1 o2 := by
  intro t1 ht
  obtain ⟨t2, ht2, hsame, hres, hsent⟩ := h t1 ht
  rw [h1, h2] at hres
  exact ⟨t2, ht2, hsame, hres, fun hn => hsent (hs hn)⟩

/-- An outcome does not touch the newest frame sent. -/
theorem newestSent_recordAnswer {s t : State} (a : Answer) (h : t.trace = recordAnswer a s.trace) :
    newestSent t = newestSent s := by
  rw [newestSent, newestSent, h]
  cases s.trace <;> rfl

section
variable (s p : State)

/-! ### What does not read the past -/

theorem modFnValue_withPast (g : ModFn) : modFnValue (withPast s p) g = modFnValue s g := by cases g <;> rfl

theorem finishValue_withPast (op : Op) : finishValue op (withPast s p) = finishValue op s := by cases op <;> rfl

theorem keepPayload_withPast (h : Handling) (d : Payload) :
    keepPayload h d (withPast s p) = withPast (keepPayload h d s) p := by cases h <;> rfl

/-! ### Requests -/

theorem whenIdle_alike {a b : Out} (h : Alike s (withPast s p) a b) :
    Alike s (withPast s p) (whenIdle s a) (whenIdle (withPast s p) b) := by
  intro t ht
  obtain ⟨ho, ⟨hp, ha⟩ | ⟨k, sub, hp, rfl⟩⟩ := whenIdle_next ht
  · obtain ⟨t2, hb, hm⟩ := h t ha
    exact ⟨t2, (whenIdle_idle (s := withPast s p) ho hp).trans hb, hm⟩
  · exact ⟨_, whenIdle_run (s := withPast _ p) ho hp, rfl, .inl ⟨rfl, rfl⟩, id⟩

theorem acceptAt_alike (op : Op) (a : Addr) (d : Option Word) (f : Option Fn) :
    Alike s (withPast s p) (acceptAt op a d f s) (acceptAt op a d f (withPast s p)) := by
  intro t ht
  obtain ⟨r, hr, rfl⟩ := acceptAt_next ht
  exact ⟨_, acceptAt_eq hr, rfl, .inl ⟨rfl, rfl⟩, id⟩

theorem acceptSensor_alike (op : Op) (d : Option Word) :
    Alike s (withPast s p) (acceptSensor op d s) (acceptSensor op d (withPast s p)) := by
  intro t ht
  obtain ⟨hn, rfl⟩ := acceptSensor_next ht
  exact ⟨_, acceptSensor_eq hn, rfl, .inl ⟨rfl, rfl⟩, id⟩

theorem exec_request_alike {i : Instr} {w : BitVec 34} {fn : Fn} (he : encode i = .request w fn) :
    Alike s (withPast s p) (exec i s) (exec i (withPast s p)) := by
  cases i with
  | read | write | modify => exact whenIdle_alike s p (acceptAt_alike s p _ _ _ _)
  | angle | angleDeg | magnitude | diag | clrerr | zposGet | zposSet =>
    exact whenIdle_alike s p (acceptSensor_alike s p _ _)
  | release =>
    refine whenIdle_alike s p ?_
    rw [endOperation_writeOk, endOperation_writeOk]
    exact alike_next ⟨rfl, .inr ⟨_, rfl, rfl⟩, id⟩
  | reservedB | reservedC | reservedD | reservedE | reservedF =>
    intro t ht
    cases ht
  | _ => cases he

/-! ### The outcome of a transaction -/

theorem advance_alike (k : Nat) : Alike s (withPast s p) (advance k s) (advance k (withPast s p)) := by
  intro t ht
  obtain ⟨op, hop, ⟨hk, rfl⟩ | ⟨hk, v, hv, rfl⟩⟩ := advance_next ht
  · exact ⟨_, advance_goesOn (s := withPast s p) hop hk, rfl, .inl ⟨rfl, rfl⟩, id⟩
  · have hfinish := finish_eq ((finishValue_withPast s p op).trans hv)
    have hadv : advance k (withPast s p) = finish op (withPast s p) := by
      simp [advance, show (withPast s p).reqOp = some op from hop, hk]
    exact ⟨_, hadv.trans hfinish, rfl, .inr ⟨_, rfl, rfl⟩, id⟩

theorem raiseErr_alike (d : DriverError) : Alike s (withPast s p) (raiseErr d s) (raiseErr d (withPast s p)) := by
  rw [raiseErr_eq, raiseErr_eq]
  exact alike_next ⟨rfl, .inr ⟨_, rfl, rfl⟩, id⟩

/-- What is made of a received frame, whatever the verdict, is alike when it is alike once received. -/
theorem received_alike (r : Word) {o1 o2 : Out}
    (h : Alike (receiveFrame r s) (receiveFrame r (withPast s p)) o1 o2) : Alike s (withPast s p) o1 o2 :=
  h.of_base rfl rfl fun hs =>
    (newestSent_recordAnswer _ rfl).trans (hs.trans (newestSent_recordAnswer (s := withPast s p) _ rfl).symm)

theorem kept_alike (h : Handling) (d : Payload) {o1 o2 : Out}
    (ha : Alike (keepPayload h d s) (keepPayload h d p) o1 o2) : Alike s p o1 o2 := by
  cases h <;> exact ha.of_base rfl rfl id

theorem completeFrame_alike {k : Nat} (r : Word) (hp : s.phase = .run k .wait) :
    Alike s (withPast s p) (completeFrame r s) (completeFrame r (withPast s p)) := by
  have hrec : receiveFrame r (withPast s p) = withPast (receiveFrame r s) (receiveFrame r (withPast s p)) := rfl
  cases he : currentEntry s k with
  | error f => simp [Alike, completeFrame, hp, he]
  | ok e =>
    refine received_alike s p r ?_
    by_cases hh : e.handling = .ignore
    · rw [completeFrame_ignore hp he hh, completeFrame_ignore (s := withPast s p) hp he hh, hrec]
      exact advance_alike _ _ k
    · rw [completeFrame_validated hp he hh, completeFrame_validated (s := withPast s p) hp he hh, hrec]
      cases respValidate r with
      | parityBad => exact raiseErr_alike _ _ _
      | sensorFlag => exact raiseErr_alike _ _ _
      | good d =>
        refine kept_alike _ _ e.handling d ?_
        simp only [keepPayload_withPast]
        exact advance_alike _ _ k

/-! ### The step -/

theorem atRest_alike (hp : s.phase = .idle ∨ s.phase = .released) :
    Alike s (withPast s p) (blockStep s) (blockStep (withPast s p)) := by
  cases hr : s.reqPort with
  | nil =>
    rw [blockStep_no_request hp hr, blockStep_no_request (s := withPast s p) hp hr]
    exact alike_next ⟨rfl, .inl ⟨rfl, rfl⟩, id⟩
  | cons r rest =>
    obtain ⟨w, fn, he⟩ := encode_decodeRequest r.word r.fn
    rw [blockStep_request hp hr, blockStep_request (s := withPast s p) hp hr]
    exact exec_request_alike s p he

theorem issuing_alike {k : Nat} (hp : s.phase = .run k .issue) :
    Alike s (withPast s p) (blockStep s) (blockStep (withPast s p)) := by
  cases hd : dueFn s k with
  | some g =>
    rw [blockStep_evaluation hp hd, blockStep_evaluation (s := withPast s p) hp hd]
    intro t ht
    obtain ⟨u, hu, rfl⟩ := evaluateFn_next ht
    exact ⟨_, evaluateFn_eq ((modFnValue_withPast s p g).trans hu), rfl, .inl ⟨rfl, rfl⟩, id⟩
  | none =>
    cases hf : scheduledFrame s k with
    | error f =>
      have hb : fetchBlock s = .fault f := by simp [fetchBlock, hp, hd, hf]
      simp [Alike, blockStep, hb]
    | ok f =>
      rw [blockStep_issue hp hd hf, blockStep_issue (s := withPast s p) hp hd hf]
      exact alike_next ⟨rfl, .inl ⟨rfl, rfl⟩, fun _ => rfl⟩

theorem waiting_alike {k : Nat} (hp : s.phase = .run k .wait) :
    Alike s (withPast s p) (blockStep s) (blockStep (withPast s p)) := by
  match ha : s.answers with
  | [] =>
    rw [blockStep_unanswered hp ha, blockStep_unanswered (s := withPast s p) hp ha]
    exact alike_next ⟨rfl, .inl ⟨rfl, rfl⟩, id⟩
  | .fail e :: rest =>
    rw [blockStep_failed hp ha, blockStep_failed (s := withPast s p) hp ha, failTransaction_eq, failTransaction_eq]
    exact alike_next ⟨rfl, .inr ⟨_, rfl, rfl⟩, fun hs => (newestSent_recordAnswer _ rfl).trans
      (hs.trans (newestSent_recordAnswer (s := withPast s p) _ rfl).symm)⟩
  | .ok b0 b1 :: rest =>
    rw [blockStep_received hp ha, blockStep_received (s := withPast s p) hp ha]
    exact (completeFrame_alike { s with answers := rest } p (ofWire b0 b1) hp).of_base rfl rfl id

theorem blockStep_alike : Alike s (withPast s p) (blockStep s) (blockStep (withPast s p)) := by
  match hp : s.phase with
  | .idle => exact atRest_alike s p (.inl hp)
  | .released => exact atRest_alike s p (.inr hp)
  | .run k .issue => exact issuing_alike s p hp
  | .run k .wait => exact waiting_alike s p hp

theorem step_alike : Alike s (withPast s p) (step s) (step (withPast s p)) := by
  match ht : s.turns with
  | [] =>
    rw [step_block ht, step_block (s := withPast s p) ht]
    exact blockStep_alike s p
  | .block :: rest =>
    rw [step_turn ht, step_turn (s := withPast s p) ht]
    exact (blockStep_alike { s with turns := rest } p).of_base rfl rfl id
  | .evaluate port w side :: rest =>
    cases hd : decode (.comb port w side) with
    | error e => simp [Alike, step, fetch, ht, hd]
    | ok i =>
      obtain ⟨w', side', he⟩ := encode_port_of_decode hd
      rw [step_evaluate ht hd, step_evaluate (s := withPast s p) ht hd]
      obtain hnext | href := exec_of_encode_comb he
      · obtain ⟨v, hv⟩ := hnext { s with turns := rest }
        obtain ⟨v', hv'⟩ := hnext { withPast s p with turns := rest }
        rw [hv, hv']
        exact alike_next ⟨rfl, .inl ⟨rfl, rfl⟩, id⟩
      · simp [Alike, href]

end

end Sys2Proof.Machine

namespace Sys2Proof.Proofs

open Sys2Proof Sys2Proof.Machine

/-- Settles O52: the second state is the first with its own past, and no operation of a step reads the past. -/
theorem historyHasNoInfluence : Obligations.HistoryHasNoInfluence := by
  unfold Obligations.HistoryHasNoInfluence
  intro s1 s2 t1 hs h
  have halike := step_alike s1 s2
  rw [eq_withPast hs] at halike
  obtain ⟨t2, h2, hsame, hres, hsent⟩ := halike t1 h
  exact ⟨t2, h2, hsame, hres, hsent⟩

end Sys2Proof.Proofs
end

section
/-! PROOF. READ under E-READ (spec 20_memory R72, 42_frame_sequencer R184): where the transactions of the operation just
performed stand among all that were, and what the premise says of its answer. -/

namespace Sys2Proof.Machine

/-! ### The places of the operation just performed -/

section
variable {h : List Performed} {op : Op}

/-- The transactions of the last operation follow the places of those before it. -/
theorem placed_last (did : List Transaction) (j : Nat) :
    (placed (h ++ [⟨op, did⟩]))[(placed h).length + j]? =
      ((schedule op).zip did)[j]?.map fun (e, t) => ⟨h.length, e, settledAfter h, t⟩ := by
  rw [placed_snoc, List.getElem?_append_right (Nat.le_add_right _ _), Nat.add_sub_cancel_left, List.getElem?_map]

/-- A read command is answered by the next transaction of its operation. -/
theorem answerTo_readCmd {log : List Placed} {n : Nat} {x y : Placed} {r : RegRef} (hx : log[n]? = some x)
    (hs : x.entry.sends = .readCmd r) (hy : log[n + 1]? = some y) (ho : y.opNo = x.opNo) :
    answerTo log n = some y := by
  simp [answerTo, later, hx, hs, hy, ho]

/-- E-READ of a READ just performed, both transactions answered: what its answer carries (R72). -/
theorem EnvRead.read {content : Nat → Addr → Payload} {flag : Nat → Bool} {a : Addr} {a0 a1 : Option Answer}
    {w r : Word} (hsettled : settledAfter h = true)
    (henv : EnvRead content flag (h ++ [⟨.read, [transaction (mkCmd a true) a0, transaction w a1]⟩]))
    (hr : (transaction w a1).received = some r) :
    payloadOf r = content ((placed h).length + 1) a ∧ errorFlag r = flag ((placed h).length + 1) ∧
      parVerify r = true := by
  have hcmd := placed_last (h := h) (op := .read) [transaction (mkCmd a true) a0, transaction w a1] 0
  have hnop := placed_last (h := h) (op := .read) [transaction (mkCmd a true) a0, transaction w a1] 1
  have haddr : payloadOf (transaction (mkCmd a true) a0).sent = a :=
    (congrArg payloadOf (ofWire_toWire _)).trans (payloadOf_mkCmd a true)
  have hanswer := answerTo_readCmd (r := .operand) hcmd rfl hnop rfl
  exact henv _ _ _ a r hcmd hsettled (congrArg some haddr) hanswer hr

end

/-! ### The READ -/

/-- The last frame of a READ decides by its fields, once its parity is even (R185). -/
theorem verdictResult_even {r : Word} (hpar : parVerify r = true) (v : Option Word) :
    verdictResult r v = if errorFlag r then .err .sensorError else .ok v := by
  have heven : ones 16 r % 2 = 0 := of_decide_eq_true ((parVerify_eq_ones r).symm.trans hpar)
  rw [verdictResult, heven]
  rfl

/-- What a request of two answered transactions leaves in the log after what was there. -/
theorem log_drop_twoAnswered (s : State) (ans : List Answer) (r : Result) (w1 w2 : Word) (b0 b1 c0 c1 : Byte) :
    (servedState s ans (twoAnswered w1 b0 b1 w2 c0 c1 s.trace) r).log.drop s.log.length =
      [transaction w1 (some (.ok b0 b1)), transaction w2 (some (.ok c0 c1))] := by
  have hlog : (servedState s ans (twoAnswered w1 b0 b1 w2 c0 c1 s.trace) r).log =
      s.log ++ [transaction w1 (some (.ok b0 b1)), transaction w2 (some (.ok c0 c1))] :=
    List.reverse_append (as := [transaction w2 (some (.ok c0 c1)), transaction w1 (some (.ok b0 b1))])
  rw [hlog, List.drop_left]

end Sys2Proof.Machine

namespace Sys2Proof.Proofs

open Sys2Proof Sys2Proof.Machine

/-- Settles O54: the outcome of the READ is its second frame's, and E-READ says what that frame carries. -/
theorem readReturnsTheContent : Obligations.ReadReturnsTheContent := by
  unfold Obligations.ReadReturnsTheContent
  intro s s0 t a r content flag past b0 b1 c0 c1 rest hp ho ht hc hr hans hexec hrun hpast hsettled henv
  obtain ⟨hx, ha⟩ := accepts_at .read (portWdata s) (portFn s) hp ho hc hr
  obtain rfl := Host.Outcome.next.inj (hx.symm.trans hexec)
  obtain ⟨-, -, hends⟩ := oneRead_outcomes (e := ⟨0⟩) (f := some) ht rfl ha fun t x _ hx => return_resValue some hx
  obtain rfl := Host.Outcome.next.inj ((hends hans).symm.trans hrun)
  refine ⟨.served past s _ _ (.read a) .read _ 4 hpast hp hexec rfl rfl hrun rfl rfl, ?_⟩
  rw [log_drop_twoAnswered] at henv
  obtain ⟨hcontent, hflag, hpar⟩ := henv.read (r := ofWire c0 c1) hsettled rfl
  rw [placed_length hpast] at hcontent hflag
  rw [verdictResult_even hpar, ← zext_payloadOf, hcontent, hflag]
  rfl

end Sys2Proof.Proofs
end
